-- ==== Sys2Proof/Word.lean ====
section
/-! DEFINITION. The word types of HUFFCORE (00_scope.md R11, R13): every quantity is an unsigned number of a stated
width. -/

namespace Sys2Proof

/-- A byte: a symbol, a data byte or a packed byte (R11 `NSYM` = 256). -/
abbrev Byte := BitVec 8

/-- A command word, `CMDBITS` = 48 bits (30_encoding.md R70). -/
abbrev Command := BitVec 48

/-- A response word, `RSPBITS` = 64 bits (R70). -/
abbrev Response := BitVec 64

/-- A leaf weight, an entry of `W`, `WBITS` = 32 bits (R29). -/
abbrev Weight := BitVec 32

/-- A tree-node weight, `NWBITS` = 40 bits (R30). -/
abbrev NodeWeight := BitVec 40

/-- A node index, `IDXBITS` = 9 bits (R30, R52). -/
abbrev NodeIndex := BitVec 9

/-- The branch choices of a path or the bits of a code, `MAXLEN` = 255 bits (R32, R33). -/
abbrev PathBits := BitVec 255

end Sys2Proof
end

