-- ==== Sys2Proof/Syntax.lean ====
section
/-! DEFINITION. The twenty commands (30_encoding.md R73), the five formats (R71), and the assembly notation: tokens and
lines (R80) and pseudo-instructions (R81). -/

namespace Sys2Proof

/-- One constructor per row of the opcode table (R73); an operand has the width of its field (R72). -/
inductive Instr where
  | nop
  | rst
  | clre
  | rds
  | fclr
  | fsmp (a : Byte)
  | fscl
  | wrw (a : Byte) (d : Weight)
  | rdw (a : Byte)
  | build
  | rdn (idx : NodeIndex)
  | derive
  | rdl (a : Byte)
  | rdc (a : Byte) (q : BitVec 2)
  | encs
  | encb (a : Byte)
  | ence
  | decs
  | decb (a : Byte)
  | dece
  deriving DecidableEq, Repr

/-- The five formats of R71. -/
inductive Format where
  | n
  | a
  | ad
  | x9
  | ax2
  deriving DecidableEq, Repr

/-- One line of assembly after its numbers are read (R80): a mnemonic and its operands in order. -/
structure Line where
  mnemonic : String
  operands : List Nat
  deriving DecidableEq, Repr

/-- The pseudo-instructions of R81. -/
inductive Pseudo where
  | ftbl (sample : List Byte)
  | encode (data : List Byte)
  | decode (packed : List Byte)
  | wclr
  | prep
  deriving DecidableEq, Repr

/-- The tokens of a line of assembly text (R80, R81). -/
inductive Token where
  | space
  | word (letters : List Char)
  | char (c : Char)
  | text (bytes : List Char)
  | comma
  | opening
  | closing
  | bad
  deriving DecidableEq, Repr

end Sys2Proof
end

