-- ==== Sys2Proof/WellFormed.lean ====
section
/-! DEFINITION. Which command words are legal (30_encoding.md R71, R73, R75) and which assembly lines are well formed
(R80). The operands of `Instr` have exactly the widths of their fields (R72), so every term of `Instr` is well formed,
the operand 511 of RDN included (R76: legal to encode). -/

namespace Sys2Proof

/-- The mask of a format: the bits that must match (R71). -/
def Format.mask : Format → Command
  | .n   => 0xFFFFFFFFFFFF#48
  | .a   => 0xFF00FFFFFFFF#48
  | .ad  => 0xFF0000000000#48
  | .x9  => 0xFFFFFFFFFE00#48
  | .ax2 => 0xFF00FFFFFFFC#48

/-- A row of the opcode table: mnemonic, `op` and format (R73). -/
structure Row where
  mnemonic : String
  op       : BitVec 8
  fmt      : Format
  deriving DecidableEq, Repr

/-- `match`: the word of a row with all operands zero (R73). -/
def Row.matchWord (r : Row) : Command := r.op ++ 0#40

/-- The twenty rows of R73. -/
def opcodeRows : List Row :=
  [⟨"NOP", 0x00#8, .n⟩, ⟨"RST", 0x01#8, .n⟩, ⟨"CLRE", 0x02#8, .n⟩, ⟨"RDS", 0x03#8, .n⟩] ++
  [⟨"FCLR", 0x10#8, .n⟩, ⟨"FSMP", 0x11#8, .a⟩, ⟨"FSCL", 0x12#8, .n⟩, ⟨"WRW", 0x13#8, .ad⟩, ⟨"RDW", 0x14#8, .a⟩] ++
  [⟨"BUILD", 0x20#8, .n⟩, ⟨"RDN", 0x21#8, .x9⟩] ++
  [⟨"DERIVE", 0x30#8, .n⟩, ⟨"RDL", 0x31#8, .a⟩, ⟨"RDC", 0x32#8, .ax2⟩] ++
  [⟨"ENCS", 0x40#8, .n⟩, ⟨"ENCB", 0x41#8, .a⟩, ⟨"ENCE", 0x42#8, .n⟩] ++
  [⟨"DECS", 0x50#8, .n⟩, ⟨"DECB", 0x51#8, .a⟩, ⟨"DECE", 0x52#8, .n⟩]

/-- A word selects a row iff `c & mask = match` (R73). -/
def Row.selects (r : Row) (c : Command) : Bool := c &&& r.fmt.mask == r.matchWord

/-- A word is legal iff it selects a row: its `op` is defined and every must-be-zero bit is zero (R75). -/
def wordLegal (c : Command) : Bool := opcodeRows.any fun r => r.selects c

/-- The operands of a line fit the fields of a format, in the order of R80. -/
def Format.fits : Format → List Nat → Bool
  | .n,   []     => true
  | .a,   [x]    => decide (x < 256)
  | .ad,  [x, y] => decide (x < 256) && decide (y < 4294967296)
  | .x9,  [x]    => decide (x < 512)
  | .ax2, [x, y] => decide (x < 256) && decide (y < 4)
  | _,    _      => false

/-- The row a mnemonic names. -/
def rowOf (mnemonic : String) : Option Row := opcodeRows.find? fun r => r.mnemonic == mnemonic

/-- A line is well formed iff its mnemonic is one of the twenty and its operands fit that row's format (R80). -/
def Line.wellFormed (l : Line) : Bool :=
  match rowOf l.mnemonic with
  | none   => false
  | some r => r.fmt.fits l.operands

end Sys2Proof
end

