-- ==== Sys2Proof/Decode.lean ====
section
/-! DEFINITION. The decoder (30_encoding.md R70, R72, R74, R75), the encoder (R73), the assembler of
lines (R80), the expansions of the pseudo-instructions (R81) and the reader of assembly text (R80, R81). -/

namespace Sys2Proof

/-- Why a word is illegal (R75): (a) its `op` is not defined, (b) a must-be-zero bit is one. -/
inductive Illegal where
  | undefinedOpcode
  | mustBeZeroBitSet
  deriving DecidableEq, Repr

/-- The three fields put together: `op << 40 | a << 32 | d` (R70, R80). -/
def commandWord (op : BitVec 8) (a : Byte) (d : BitVec 32) : Command := op ++ a ++ d

/-- `op = c[47:40]` (R70). -/
def opField (c : Command) : BitVec 8 := c.extractLsb' 40 8

/-- `a = c[39:32]` (R72). -/
def aField (c : Command) : Byte := c.extractLsb' 32 8

/-- `d = c[31:0]` (R72). -/
def dField (c : Command) : BitVec 32 := c.extractLsb' 0 32

/-- Format `N`: `a` and `d` must be 0 (R71). -/
def formatN (c : Command) (i : Instr) : Except Illegal Instr :=
  if aField c = 0 ∧ dField c = 0 then .ok i else .error .mustBeZeroBitSet

/-- Format `A`: `a` an operand, `d` must be 0 (R71). -/
def formatA (c : Command) (i : Byte → Instr) : Except Illegal Instr :=
  if dField c = 0 then .ok (i (aField c)) else .error .mustBeZeroBitSet

/-- Format `AD`: `a` and all 32 bits of `d` are operands (R71). -/
def formatAD (c : Command) (i : Byte → Weight → Instr) : Except Illegal Instr :=
  .ok (i (aField c) (dField c))

/-- Format `X9`: `d[8:0]` an operand, `a` and `d[31:9]` must be 0 (R71). -/
def formatX9 (c : Command) (i : NodeIndex → Instr) : Except Illegal Instr :=
  if aField c = 0 ∧ (dField c).extractLsb' 9 23 = 0 then .ok (i ((dField c).extractLsb' 0 9))
  else .error .mustBeZeroBitSet

/-- Format `AX2`: `a` and `d[1:0]` operands, `d[31:2]` must be 0 (R71). -/
def formatAX2 (c : Command) (i : Byte → BitVec 2 → Instr) : Except Illegal Instr :=
  if (dField c).extractLsb' 2 30 = 0 then .ok (i (aField c) ((dField c).extractLsb' 0 2))
  else .error .mustBeZeroBitSet

/-- Decoding (R74): by `op`, then by the must-be-zero bits of the row's format. Total; an illegal word is refused by
name. -/
def decode (c : Command) : Except Illegal Instr :=
  match opField c with
  | 0x00#8 => formatN c .nop
  | 0x01#8 => formatN c .rst
  | 0x02#8 => formatN c .clre
  | 0x03#8 => formatN c .rds
  | 0x10#8 => formatN c .fclr
  | 0x11#8 => formatA c .fsmp
  | 0x12#8 => formatN c .fscl
  | 0x13#8 => formatAD c .wrw
  | 0x14#8 => formatA c .rdw
  | 0x20#8 => formatN c .build
  | 0x21#8 => formatX9 c .rdn
  | 0x30#8 => formatN c .derive
  | 0x31#8 => formatA c .rdl
  | 0x32#8 => formatAX2 c .rdc
  | 0x40#8 => formatN c .encs
  | 0x41#8 => formatA c .encb
  | 0x42#8 => formatN c .ence
  | 0x50#8 => formatN c .decs
  | 0x51#8 => formatA c .decb
  | 0x52#8 => formatN c .dece
  | _      => .error .undefinedOpcode

/-- The `op` of an instruction (R73). -/
def Instr.opcode : Instr → BitVec 8
  | .nop     => 0x00#8
  | .rst     => 0x01#8
  | .clre    => 0x02#8
  | .rds     => 0x03#8
  | .fclr    => 0x10#8
  | .fsmp _  => 0x11#8
  | .fscl    => 0x12#8
  | .wrw _ _ => 0x13#8
  | .rdw _   => 0x14#8
  | .build   => 0x20#8
  | .rdn _   => 0x21#8
  | .derive  => 0x30#8
  | .rdl _   => 0x31#8
  | .rdc _ _ => 0x32#8
  | .encs    => 0x40#8
  | .encb _  => 0x41#8
  | .ence    => 0x42#8
  | .decs    => 0x50#8
  | .decb _  => 0x51#8
  | .dece    => 0x52#8

/-- The word of an instruction, from the formats of R71 and the opcodes of R73. -/
def encode (i : Instr) : Command :=
  match i with
  | .nop     => commandWord i.opcode 0 0
  | .rst     => commandWord i.opcode 0 0
  | .clre    => commandWord i.opcode 0 0
  | .rds     => commandWord i.opcode 0 0
  | .fclr    => commandWord i.opcode 0 0
  | .fsmp a  => commandWord i.opcode a 0
  | .fscl    => commandWord i.opcode 0 0
  | .wrw a d => commandWord i.opcode a d
  | .rdw a   => commandWord i.opcode a 0
  | .build   => commandWord i.opcode 0 0
  | .rdn x   => commandWord i.opcode 0 (x.setWidth 32)
  | .derive  => commandWord i.opcode 0 0
  | .rdl a   => commandWord i.opcode a 0
  | .rdc a q => commandWord i.opcode a (q.setWidth 32)
  | .encs    => commandWord i.opcode 0 0
  | .encb a  => commandWord i.opcode a 0
  | .ence    => commandWord i.opcode 0 0
  | .decs    => commandWord i.opcode 0 0
  | .decb a  => commandWord i.opcode a 0
  | .dece    => commandWord i.opcode 0 0

/-- The command word the host means by the number `w` of `nbits` bits: a command is one 48-bit number and the table
numbers its bits as the command does (R56, R70), so there is no byte order to settle; bits at `nbits` and above are
0. -/
def tableWord (nbits w : Nat) : Command := BitVec.ofNat 48 (w % 2 ^ nbits)

/-- The instruction the decoder reads from a table word. -/
def decodeTableWord (nbits w : Nat) : Option Instr :=
  match decode (tableWord nbits w) with
  | .ok i    => some i
  | .error _ => none

/-- The `a` and `d` fields a line's operands fill (R80: operand order per format). -/
def operandFields : Format → List Nat → Byte × BitVec 32
  | .a,   [a]    => (BitVec.ofNat 8 a, 0)
  | .ad,  [a, d] => (BitVec.ofNat 8 a, BitVec.ofNat 32 d)
  | .x9,  [i]    => (0, BitVec.ofNat 32 i)
  | .ax2, [a, q] => (BitVec.ofNat 8 a, BitVec.ofNat 32 q)
  | _,    _      => (0, 0)

/-- The word of a well-formed line (R80: `op << 40 | a << 32 | d`); `none` for a line that is not well formed. -/
def assemble (l : Line) : Option Command :=
  match rowOf l.mnemonic with
  | none   => none
  | some r =>
    if r.fmt.fits l.operands then
      some (commandWord r.op (operandFields r.fmt l.operands).1 (operandFields r.fmt l.operands).2)
    else none

/-- The expansion of a pseudo-instruction (R81). -/
def Pseudo.expand : Pseudo → List Instr
  | .ftbl s   => [.fclr] ++ s.map .fsmp ++ [.fscl]
  | .encode s => [.encs] ++ s.map .encb ++ [.ence]
  | .decode p => [.decs] ++ p.map .decb ++ [.dece]
  | .wclr     => (List.range 256).map fun i => .wrw (BitVec.ofNat 8 i) 0
  | .prep     => [.build, .derive]

/-! ## Assembly text (R80, R81) -/

/-- One more letter in front of the tokens. -/
def consLetter (c : Char) : List Token → List Token
  | .word w :: ts => .word (c :: w) :: ts
  | ts            => .word [c] :: ts

/-- The characters of a quoted string, its closing quote passed, and what follows; `none` where the line ends first. -/
def closeQuote : List Char → Option (List Char × List Char)
  | []       => none
  | '"' :: q => some ([], q)
  | c :: q   => (closeQuote q).map fun r => (c :: r.1, r.2)

/-- The tokens of one line; a comment runs from `;` to its end (R80). `n` bounds the tokens. -/
def tokens : Nat → List Char → List Token
  | 0,     _                     => []
  | _ + 1, []                    => []
  | _ + 1, ';' :: _              => []
  | n + 1, '\'' :: c :: '\'' :: q => .char c :: tokens n q
  | n + 1, '"' :: q              =>
    match closeQuote q with
    | none        => [.bad]
    | some (t, r) => .text t :: tokens n r
  | n + 1, ',' :: q              => .comma :: tokens n q
  | n + 1, '[' :: q              => .opening :: tokens n q
  | n + 1, ']' :: q              => .closing :: tokens n q
  | n + 1, ' ' :: q              => .space :: tokens n q
  | n + 1, '\t' :: q             => .space :: tokens n q
  | n + 1, c :: q                => consLetter c (tokens n q)

/-- The value of a digit in a base. -/
def digitValue (base : Nat) (c : Char) : Option Nat :=
  let n := c.toNat
  let v := if 48 ≤ n ∧ n ≤ 57 then n - 48 else if 65 ≤ n ∧ n ≤ 70 then n - 55 else if 97 ≤ n ∧ n ≤ 102 then n - 87 else 16
  if v < base then some v else none

/-- Digits read from the left onto a value. -/
def readDigits (base : Nat) : Nat → List Char → Option Nat
  | v, []     => some v
  | v, c :: q =>
    match digitValue base c with
    | none   => none
    | some d => readDigits base (v * base + d) q

/-- A number: `0x` hexadecimal, `0b` binary, else decimal, with at least one digit (R80). -/
def readNumber : List Char → Option Nat
  | []                   => none
  | '0' :: 'x' :: c :: q => readDigits 16 0 (c :: q)
  | '0' :: 'b' :: c :: q => readDigits 2 0 (c :: q)
  | w                    => readDigits 10 0 w

/-- An operand: a number, or one ASCII character in single quotes (R80). -/
def readOperand : Token → Option Nat
  | .word w => readNumber w
  | .char c => if c.toNat < 128 then some c.toNat else none
  | _       => none

/-- Operands separated by commas (R80), at least one. -/
def readOperands : List Token → Option (List Nat)
  | []               => none
  | [t]              => (readOperand t).map fun x => [x]
  | t :: .comma :: q =>
    match readOperand t, readOperands q with
    | some x, some xs => some (x :: xs)
    | _,      _       => none
  | _                => none

/-- The bytes of a list of numbers, each of which must be a byte. -/
def readBytes (xs : List Nat) : Option (List Byte) :=
  if xs.all fun x => decide (x < 256) then some (xs.map (BitVec.ofNat 8)) else none

/-- A string operand: bytes in double quotes (ASCII), or a comma-separated list in brackets (R81). -/
def readString : List Token → Option (List Byte)
  | [.text t]             => if t.all fun c => decide (c.toNat < 128) then readBytes (t.map Char.toNat) else none
  | [.opening, .closing]  => some []
  | .opening :: q         =>
    if q.getLast? = some .closing then (readOperands q.dropLast).bind readBytes else none
  | _                     => none

/-- The pseudo-instruction a name and its operand tokens give (R81); `none` where the name is none of the five. -/
def readPseudo (name : String) (q : List Token) : Option Pseudo :=
  match name with
  | "FTBL"   => (readString q).map .ftbl
  | "ENCODE" => (readString q).map .encode
  | "DECODE" => (readString q).map .decode
  | "WCLR"   => if q = [] then some .wclr else none
  | "PREP"   => if q = [] then some .prep else none
  | _        => none

/-- The words of one line of text: none for a blank line, one for a command (R80), the expansion's for a
pseudo-instruction (R81); `none` for a line the notation does not have. -/
def assembleText (line : List Char) : Option (List Command) :=
  match (tokens line.length line).filter fun t => decide (t ≠ .space) with
  | []           => some []
  | .word w :: q =>
    match readPseudo (String.ofList w) q with
    | some p => some (p.expand.map encode)
    | none   =>
      match if q = [] then some [] else readOperands q with
      | none    => none
      | some xs => (assemble { mnemonic := String.ofList w, operands := xs }).map fun c => [c]
  | _            => none

/-- The words of a program, a straight list of commands (R80): all its lines assembled in order, or `none`. -/
def assembleProgram : List (List Char) → Option (List Command)
  | []     => some []
  | l :: q =>
    match assembleText l, assembleProgram q with
    | some c, some cs => some (c ++ cs)
    | _,      _       => none

end Sys2Proof
end

