-- ==== Sys2Proof/Config.lean ====
section
/-! DEFINITION. The four open parameters of HUFFCORE (00_scope.md R11, R12; 92_eei_decisions.md D6, D7, D18, D19).
Every other row of R11 is fixed for HUFFCORE 1.0 and is a literal in the definition that uses it. -/

namespace Sys2Proof

/-- `BIT_ORDER`: the position of a stream bit inside its byte (20_memory.md R55). -/
inductive BitOrder where
  | msbFirst
  | lsbFirst
  deriving DecidableEq, Repr

/-- The parameters R12 asks a model to keep as configuration fields it can quantify over. -/
structure Config where
  /-- `EOT_SYM`: the byte value that is the sentinel. -/
  eotSym   : Byte
  /-- `SCALE`: the factor of FSCL, a 16-bit unsigned constant. -/
  scale    : BitVec 16
  /-- `BIT_ORDER`. -/
  bitOrder : BitOrder
  /-- `PAD_BIT`: the value of the padding bits of the last packed byte. -/
  padBit   : Bool
  deriving DecidableEq, Repr

/-- The values R11 gives for this hardware. -/
def Config.huffcore : Config :=
  { eotSym := 0x04#8, scale := 1000#16, bitOrder := .msbFirst, padBit := false }

end Sys2Proof
end

