-- ==== Sys2Proof/Machine/Params.lean ====
section
/-! DEFINITION. What is computed from the parameters alone (00_scope.md R11). -/

namespace Sys2Proof.Machine

/-- `PAD`: the byte whose eight bits all equal `PAD_BIT` (10_state.md R37 (d)). -/
def padByte (c : Config) : Byte := if c.padBit then 0xFF#8 else 0x00#8

/-- `FLOOR`, the initial weight of every symbol (00_scope.md R11). -/
def floorWeight : Weight := 1#32

/-- `2^32 - 1`, the greatest leaf weight (40_frequency_table.md R92, R93). -/
def maxWeight : Weight := 0xFFFFFFFF#32

end Sys2Proof.Machine
end

