-- ==== Sys2Proof/Machine/State.lean ====
section
/-! DEFINITION. The state of HUFFCORE (10_state.md R20), what an output event and a move of the host are (20_memory.md
R58, R60, R66), the reasons a step can stop, and the state after reset (R38). -/

namespace Sys2Proof.Machine

/-- The values of `PH`, the FSM state register (R21). The 4-bit codes 11 to 15 are never taken and have no name here. -/
inductive Phase where
  | idle
  | enc
  | dec
  | fault
  | tbLoad
  | tbXa
  | tbChk
  | tbXb
  | tbMerge
  | cdVisit
  | cdPop
  deriving DecidableEq, Repr

/-- The architectural faults of HUFFCORE (60_exceptions.md R216). -/
inductive FaultName where
  | eIllcmd
  | eSeq
  | eEmpty
  | eWovf
  | eNocode
  | eTrunc
  | eMidpath
  | eDegen
  | eRange
  deriving DecidableEq, Repr

/-- An entry of `NODE` (R30). -/
structure Node where
  w : NodeWeight
  l : NodeIndex
  r : NodeIndex
  deriving DecidableEq, Repr

/-- An entry of `CODE` (R32). -/
structure CodeEntry where
  valid : Bool
  len   : BitVec 8
  bits  : PathBits
  deriving DecidableEq, Repr

/-- An entry of `STK` (R33). -/
structure StackEntry where
  node : NodeIndex
  dep  : BitVec 8
  deriving DecidableEq, Repr

/-- What an entry of `NODE` holds after reset (R38); what an unlisted entry reads as. -/
def emptyNode : Node := { w := 0, l := 0, r := 0 }

/-- What an entry of `CODE` holds after reset (R38); what an unlisted entry reads as. -/
def emptyCode : CodeEntry := { valid := false, len := 0, bits := 0 }

/-- What an entry of `STK` holds after reset (R38); what an unlisted entry reads as. -/
def emptyStack : StackEntry := { node := 0, dep := 0 }

/-- One of the indexed memories: the entries that differ from the reset entry, by rising index. -/
abbrev Memory (α : Type) := List (Nat × α)

/-- An output event (00_scope.md R7, R16): a byte on `out_data` or a word on `rsp_data`. -/
inductive Event where
  | out (b : Byte)
  | rsp (v : Response)
  deriving DecidableEq, Repr

/-- A move of the host (20_memory.md R66): it offers a command word, or it asserts `rst` after having taken `taken` of
the events not yet transferred (R240: the others are dropped). -/
inductive HostMove where
  | cmd (c : Command)
  | rst (taken : Nat)
  deriving DecidableEq, Repr

/-- Why the machine stops in Lean. None of these can happen in a run from reset: each names something the spec says does
not exist or never happens, and each is SAFE (the model stops where the spec has no move). An architectural fault is no
such stop: it is a next state with `ERR` written and `PH = FAULT` (60_exceptions.md R218). -/
inductive Fault where
  /-- Raised by a read or write of `NODE[511]`, or by putting index 511 into `PQ`: not an entry (R50, R52). Safe. -/
  | nodeAbsent
  /-- Raised by `TB_LOAD` with `LI` at 256 or above: `W` has no such entry (R50). Safe. -/
  | weightAbsent
  /-- Raised by a push at `SP = 255`: `STK` has no entry 255 (R50, 42_code_deriver.md R148). Safe. -/
  | stackAbsent
  /-- Raised by a descent or a resumption at depth 255: `PATH` has bits 0 to 254 only (R148). Safe. -/
  | pathAbsent
  /-- Raised by `PQ.extract_min` on an empty queue, against its precondition (41_tree_builder.md R112). Safe. -/
  | queueEmpty
  /-- Raised by `PQ.insert` of a member, or into a queue of 256, against its precondition (R112). Safe. -/
  | queueContract
  /-- Raised by BUILD's merge loop after 256 passes or DERIVE's loop after 511 visits, the bounds of
  70_reset_and_hazards.md R255: only a graph that is no tree has more. Safe. -/
  | loopBound
  /-- Raised by `exec` in a busy state, where no command is accepted (00_scope.md R7; U24). `step` never does it. Safe. -/
  | busyCore
  deriving DecidableEq, Repr

/-- Why an instruction has no meaning. -/
inductive Refusal where
  /-- Raised by an arm of `exec` whose instruction is not modelled. No arm raises it. Safe. -/
  | notModelled (mnemonic : String)
  deriving DecidableEq, Repr

/-- The complete state (R20), and after it four fields of the model's own: the parameters, the host's moves to come, and
the output events. -/
structure State where
  /-- `PH`. -/
  ph        : Phase
  /-- `ERR`: no fault, or the first fault since the last clear (R27). -/
  err       : Option FaultName
  /-- `TREE_VALID`. -/
  treeValid : Bool
  /-- `CODE_VALID`. -/
  codeValid : Bool
  /-- `DEC_DONE`. -/
  decDone   : Bool
  /-- `COLL`. -/
  coll      : Bool
  /-- `ROOT`. -/
  root      : NodeIndex
  /-- `NLEAF`. -/
  nleaf     : BitVec 9
  /-- `NEXT`. -/
  nextNode  : NodeIndex
  /-- `LI`. -/
  li        : BitVec 9
  /-- `A`. -/
  a         : NodeIndex
  /-- `B`. -/
  b         : NodeIndex
  /-- `CN`. -/
  cn        : NodeIndex
  /-- `CDEP`. -/
  cdep      : BitVec 8
  /-- `SP`. -/
  sp        : BitVec 8
  /-- `PATH`. -/
  path      : PathBits
  /-- `CUR`. -/
  cur       : NodeIndex
  /-- `ACC`. -/
  acc       : Byte
  /-- `NACC`. -/
  nacc      : BitVec 3
  /-- `W[0..255]`. -/
  w         : Memory Weight
  /-- `NODE[0..510]`. -/
  node      : Memory Node
  /-- `PQ`: a set of node indices, as the list of its members by rising index (R31). -/
  pq        : List NodeIndex
  /-- `CODE[0..255]`. -/
  code      : Memory CodeEntry
  /-- `STK[0..254]`. -/
  stk       : Memory StackEntry
  /-- The parameters of 00_scope.md R12. No step writes them. -/
  cfg       : Config
  /-- What the host will do, oldest first. -/
  host      : List HostMove
  /-- Events emitted and not yet transferred to the host, oldest first (20_memory.md R60). -/
  outq      : List Event
  /-- Events the host has taken, oldest first: the observation (R60). -/
  seen      : List Event
  deriving DecidableEq, Repr

/-- The state after reset with parameters `c` (R38): nothing listed in a memory, no host move, no event. -/
def State.resetWith (c : Config) : State :=
  { ph := .idle, err := none
    treeValid := false, codeValid := false, decDone := false, coll := false
    root := 0, nleaf := 0, nextNode := 256#9, li := 0, a := 0, b := 0
    cn := 0, cdep := 0, sp := 0, path := 0, cur := 0
    acc := padByte c, nacc := 0
    w := [], node := [], pq := [], code := [], stk := []
    cfg := c, host := [], outq := [], seen := [] }

/-- The machine right after reset, with the parameters of HUFFCORE 1.0 (R11, R38). -/
def State.reset : State := State.resetWith Config.huffcore

/-- The answer of a step or of a part of one. -/
abbrev Answer := Host.Outcome State Fault Refusal

end Sys2Proof.Machine
end

