-- ==== Sys2Proof/Machine/Flags.lean ====
section
/-! DEFINITION. The codes of `PH` and `ERR`, the status register and the status wires (10_state.md R21, R34, R35;
60_exceptions.md R216). HUFFCORE has no condition codes (R28). -/

namespace Sys2Proof.Machine

/-- The 4-bit value of `PH` (R21). -/
def phaseCode : Phase → BitVec 4
  | .idle    => 0
  | .enc     => 1
  | .dec     => 2
  | .fault   => 3
  | .tbLoad  => 4
  | .tbXa    => 5
  | .tbChk   => 6
  | .tbXb    => 7
  | .tbMerge => 8
  | .cdVisit => 9
  | .cdPop   => 10

/-- The code of a fault (R216). -/
def faultCode : FaultName → BitVec 4
  | .eIllcmd  => 1
  | .eSeq     => 2
  | .eEmpty   => 3
  | .eWovf    => 4
  | .eNocode  => 5
  | .eTrunc   => 6
  | .eMidpath => 7
  | .eDegen   => 8
  | .eRange   => 9

/-- The 4-bit value of `ERR`, 0 for no fault (R27). -/
def errCode : Option FaultName → BitVec 4
  | none   => 0
  | some f => faultCode f

/-- The wire `busy`: `PH >= 4` (R35). -/
def busyWire (s : State) : Bool := decide (4 ≤ (phaseCode s.ph).toNat)

/-- The wire `fault`: `PH = 3` (R35). -/
def faultWire (s : State) : Bool := decide (s.ph = .fault)

/-- The wire `cmd_ready`: at a command boundary with all earlier output events delivered (20_memory.md R58). -/
def cmdReady (s : State) : Bool := !busyWire s && s.outq.isEmpty

/-- `STATUS` (R34, 45_system.md R204), from bit 63 down to bit 0. -/
def statusWord (s : State) : Response :=
  0#23 ++ s.nleaf ++ 0#7 ++ s.root ++ errCode s.err ++ 0#1 ++ s.nacc ++ 0#2 ++ BitVec.ofBool s.coll ++
    BitVec.ofBool s.decDone ++ (phaseCode s.ph).extractLsb' 0 2 ++ BitVec.ofBool s.codeValid ++
    BitVec.ofBool s.treeValid

end Sys2Proof.Machine
end

