-- ==== Sys2Proof/Machine/Operands.lean ====
section
/-! DEFINITION. The forms operands and entries are read in: tree vocabulary (00_scope.md R17), the views of a code
(20_memory.md R55, R57), the layouts of responses, and the command classes (30_encoding.md R77). -/

namespace Sys2Proof.Machine

/-- `isleaf(i) = (i < 256)` (R17). -/
def isLeaf (i : NodeIndex) : Bool := decide (i.toNat < 256)

/-- `sym(i) = i[7:0]` (R17). -/
def symOf (i : NodeIndex) : Byte := i.extractLsb' 0 8

/-- The leaf of a symbol: the node index equal to its byte value (R52). -/
def leafOf (a : Byte) : NodeIndex := a.setWidth 9

/-- `child(i, bit)` of an entry: `l` for 0, `r` for 1 (R17). -/
def childOf (n : Node) (bit : Bool) : NodeIndex := if bit then n.r else n.l

/-- A code as a sequence: `c[j] = bits[j]` for `j < len` (R57). -/
def codeBits (e : CodeEntry) : List Bool := (List.range e.len.toNat).map fun j => e.bits.getLsbD j

/-- Where stream bit `m` of a byte stands in the byte (R55). -/
def bitPosition (o : BitOrder) (m : Nat) : Nat :=
  match o with
  | .msbFirst => 7 - m
  | .lsbFirst => m

/-- The eight bits of a packed byte in stream order (44_bit_unpacker.md R185). -/
def streamBits (o : BitOrder) (x : Byte) : List Bool := (List.range 8).map fun m => x.getLsbD (bitPosition o m)

/-- Bit `n` of a byte made equal to `v`. -/
def setBit (x : Byte) (n : Nat) (v : Bool) : Byte :=
  let mask : Byte := BitVec.twoPow 8 n
  if v then x ||| mask else x &&& ~~~mask

/-- The response of RDC: bit `k` is code bit `64q + k`, zero at code bit 255 (42_code_deriver.md R153). -/
def codeChunk (bits : PathBits) (q : BitVec 2) : Response := bits.extractLsb' (64 * q.toNat) 64

/-- The response of RDL: bits 7:0 `len`, bit 8 `valid` (R152). -/
def lengthWord (e : CodeEntry) : Response := 0#55 ++ BitVec.ofBool e.valid ++ e.len

/-- The response of RDN: bits 39:0 `w`, 48:40 `l`, 57:49 `r`, 58 `leaf` (41_tree_builder.md R133). -/
def nodeWord (i : NodeIndex) (n : Node) : Response := 0#5 ++ BitVec.ofBool (isLeaf i) ++ n.r ++ n.l ++ n.w

/-- The command classes (R77). -/
inductive CommandClass where
  | always
  | idle
  | enc
  | dec
  deriving DecidableEq, Repr

/-- The class of each command (R73, R77). -/
def commandClass : Instr → CommandClass
  | .nop     => .always
  | .rst     => .always
  | .clre    => .always
  | .rds     => .always
  | .fclr    => .idle
  | .fsmp _  => .idle
  | .fscl    => .idle
  | .wrw _ _ => .idle
  | .rdw _   => .always
  | .build   => .idle
  | .rdn _   => .always
  | .derive  => .idle
  | .rdl _   => .always
  | .rdc _ _ => .always
  | .encs    => .idle
  | .encb _  => .enc
  | .ence    => .enc
  | .decs    => .idle
  | .decb _  => .dec
  | .dece    => .dec

/-- What becomes of a command of a class (R78); a busy core accepts none (00_scope.md R7). -/
inductive Admission where
  | ok
  | seqFault
  | drop
  | notAccepted
  deriving DecidableEq, Repr

/-- The admission table (R78). -/
def admission : CommandClass → Phase → Admission
  | .always, .idle  => .ok
  | .always, .enc   => .ok
  | .always, .dec   => .ok
  | .always, .fault => .ok
  | .idle,   .idle  => .ok
  | .idle,   .enc   => .seqFault
  | .idle,   .dec   => .seqFault
  | .idle,   .fault => .drop
  | .enc,    .idle  => .seqFault
  | .enc,    .enc   => .ok
  | .enc,    .dec   => .seqFault
  | .enc,    .fault => .drop
  | .dec,    .idle  => .seqFault
  | .dec,    .enc   => .seqFault
  | .dec,    .dec   => .ok
  | .dec,    .fault => .drop
  | _,       _      => .notAccepted

end Sys2Proof.Machine
end

