-- ==== Sys2Proof/Machine/Ops.lean ====
section
/-! DEFINITION. The named operations over the memories, the queue, the outputs and the host's moves; entering the
`FAULT` state (`raise`, 60_exceptions.md R218) and leaving it (R203, R223); the admission check every command begins with
(30_encoding.md R79); reset (70_reset_and_hazards.md R240). -/

namespace Sys2Proof.Machine

/-! ## Sequencing -/

/-- Go on with `f` where `r` answers a next state; a stop stays a stop. -/
def andThen (r : Answer) (f : State → Answer) : Answer :=
  match r with
  | .next s    => f s
  | .fault x   => .fault x
  | .refused x => .refused x

/-- `f`, `n` times over. -/
def repeatOp (f : State → Answer) : Nat → State → Answer
  | 0,     s => .next s
  | n + 1, s => andThen (f s) (repeatOp f n)

/-! ## Indexed memories (20_memory.md R51) -/

/-- `MemRead`: the listed entry, or the reset entry `d`. -/
def Memory.read {α : Type} (d : α) : Memory α → Nat → α
  | [],          _ => d
  | (k, v) :: m, i => if k = i then v else Memory.read d m i

/-- The memory with entry `i` not listed. -/
def Memory.erase {α : Type} (m : Memory α) (i : Nat) : Memory α := m.filter fun c => decide (c.1 ≠ i)

/-- The memory with entry `i` listed in its place. -/
def Memory.insert {α : Type} (i : Nat) (v : α) : Memory α → Memory α
  | []           => [(i, v)]
  | (k, u) :: m  => if i < k then (i, v) :: (k, u) :: m else (k, u) :: Memory.insert i v m

/-- `MemWrite`: the whole entry `i` becomes `v`; the reset entry `d` is not listed. -/
def Memory.write {α : Type} [DecidableEq α] (d : α) (m : Memory α) (i : Nat) (v : α) : Memory α :=
  if v = d then m.erase i else Memory.insert i v (m.erase i)

/-- A memory of `n` entries written whole: entry `i` is `f i`. -/
def Memory.fill {α : Type} [DecidableEq α] (d : α) (n : Nat) (f : Nat → α) : Memory α :=
  ((List.range n).map fun i => (i, f i)).filter fun c => decide (c.2 ≠ d)

/-- The canonical form of a memory of `size` entries: indices strictly rise, lie below `size`, and no entry equals the
reset entry `d`. -/
abbrev Memory.wf {α : Type} (size : Nat) (d : α) (m : Memory α) : Prop :=
  m.Pairwise (fun x y => x.1 < y.1) ∧ ∀ c ∈ m, c.1 < size ∧ c.2 ≠ d

/-- `W[i]`. -/
def weightAt (s : State) (i : Nat) : Weight := Memory.read 0 s.w i

/-- `NODE[i]`. -/
def nodeAt (s : State) (i : Nat) : Node := Memory.read emptyNode s.node i

/-- `CODE[a]`. -/
def codeAt (s : State) (a : Byte) : CodeEntry := Memory.read emptyCode s.code a.toNat

/-- `STK[k]`. -/
def stackAt (s : State) (k : Nat) : StackEntry := Memory.read emptyStack s.stk k

/-- `W[a] <- v`. -/
def setWeight (a : Byte) (v : Weight) (s : State) : State := { s with w := Memory.write 0 s.w a.toNat v }

/-- All of `W` written: `W[i] <- f i` for `i` in 0..255. -/
def setWeights (f : Nat → Weight) (s : State) : State := { s with w := Memory.fill 0 256 f }

/-- `CODE[a] <- e`. -/
def setCode (a : Byte) (e : CodeEntry) (s : State) : State :=
  { s with code := Memory.write emptyCode s.code a.toNat e }

/-- All of `CODE` written with the reset entry. -/
def clearCodes (s : State) : State := { s with code := [] }

/-- Read `NODE[i]` and go on; index 511 is not an entry (R52). -/
def withNode (i : NodeIndex) (s : State) (f : Node → Answer) : Answer :=
  if i = 511#9 then .fault .nodeAbsent else f (nodeAt s i.toNat)

/-- `NODE[i] <- n`; index 511 is not an entry. -/
def setNode (i : NodeIndex) (n : Node) (s : State) : Answer :=
  if i = 511#9 then .fault .nodeAbsent else .next { s with node := Memory.write emptyNode s.node i.toNat n }

/-- `STK[SP] <- e ; SP <- SP + 1`; there is no entry 255. -/
def pushStack (e : StackEntry) (s : State) : Answer :=
  if s.sp = 255#8 then .fault .stackAbsent
  else .next { s with stk := Memory.write emptyStack s.stk s.sp.toNat e, sp := s.sp + 1 }

/-! ## The priority queue (41_tree_builder.md R111, R112) -/

/-- Tree `i` precedes tree `j`: the lesser weight, at equal weight the lesser index (R111). -/
def precedes (s : State) (i j : NodeIndex) : Bool :=
  decide ((nodeAt s i.toNat).w < (nodeAt s j.toNat).w) ||
    (decide ((nodeAt s i.toNat).w = (nodeAt s j.toNat).w) && decide (i < j))

/-- A member put in its place among the members by rising index. -/
def insertMember (i : NodeIndex) : List NodeIndex → List NodeIndex
  | []     => [i]
  | j :: q => if i < j then i :: j :: q else j :: insertMember i q

/-- The member that precedes every other member. -/
def minMember (s : State) : List NodeIndex → Option NodeIndex
  | []     => none
  | i :: q =>
    match minMember s q with
    | none   => some i
    | some j => if precedes s j i then some j else some i

/-- `PQ.insert(i)`, with its precondition `i ∉ PQ` and `|PQ| < 256` (R112). -/
def insertQueue (i : NodeIndex) (s : State) : Answer :=
  if i = 511#9 then .fault .nodeAbsent
  else if i ∈ s.pq ∨ 256 ≤ s.pq.length then .fault .queueContract
  else .next { s with pq := insertMember i s.pq }

/-- `PQ.extract_min()`, with its precondition that `PQ` is not empty (R112): go on with the minimum, taken out. -/
def withMin (s : State) (f : NodeIndex → State → Answer) : Answer :=
  if 511#9 ∈ s.pq then .fault .nodeAbsent
  else
    match minMember s s.pq with
    | none   => .fault .queueEmpty
    | some m => f m { s with pq := s.pq.filter fun j => decide (j ≠ m) }

/-! ## Output (00_scope.md R16, 20_memory.md R60) -/

/-- `emit OUT(b)` or `emit RSP(v)`. -/
def emit (e : Event) (s : State) : State := { s with outq := s.outq ++ [e] }

/-- Every event not yet transferred is transferred: what the acceptance of a command implies (R60). -/
def transferAll (s : State) : State := { s with seen := s.seen ++ s.outq, outq := [] }

/-! ## Faults (60_exceptions.md R218, R223) -/

/-- `raise F`: outside `FAULT` it records the fault and enters `FAULT`; in `FAULT` it records nothing. -/
def raise (f : FaultName) (s : State) : State :=
  if s.ph = .fault then s else { s with err := some f, ph := .fault }

/-- The return from `FAULT` (R203, R221): to `IDLE`, with `ERR` and the waiting bits cleared. -/
def leaveFault (s : State) : State :=
  if s.ph = .fault then { s with err := none, acc := padByte s.cfg, nacc := 0, ph := .idle } else s

/-- The first part of every command (30_encoding.md R79): in `FAULT` only `always` commands run, and a command not
admitted in the current `PH` raises `E_SEQ`. -/
def withAdmission (c : CommandClass) (s : State) (body : State → Answer) : Answer :=
  match admission c s.ph with
  | .ok          => body s
  | .seqFault    => .next (raise .eSeq s)
  | .drop        => .next s
  | .notAccepted => .fault .busyCore

/-! ## Reset (10_state.md R38, 45_system.md R202, 70_reset_and_hazards.md R240) -/

/-- Every item of the spec's state tuple takes its reset value; the parameters, the host's moves and the events stay. -/
def resetItems (s : State) : State :=
  { State.resetWith s.cfg with host := s.host, outq := s.outq, seen := s.seen }

/-- The `rst` input, asserted after the host has taken `taken` of the waiting events: the others are dropped (R240). -/
def applyReset (taken : Nat) (s : State) : State :=
  { resetItems s with seen := s.seen ++ s.outq.take taken, outq := [] }

/-! ## The host's next move (20_memory.md R58, R66) -/

/-- What the core does next. -/
inductive Turn where
  | reset (s : State)
  | fsm
  | accept (c : Command) (s : State)
  | wait
  deriving DecidableEq, Repr

/-- The turn of a state: `rst` is obeyed in every state; a busy core makes one FSM step and accepts nothing; at a command
boundary the next command word is accepted, every earlier event having been transferred; with no move of the host the
core waits. -/
def turnOf (s : State) : Turn :=
  match s.host with
  | .rst k :: moves => .reset (applyReset k { s with host := moves })
  | .cmd c :: moves => if busyWire s then .fsm else .accept c (transferAll { s with host := moves })
  | []              => if busyWire s then .fsm else .wait

/-- An illegal word raises `E_ILLCMD` and does nothing else (30_encoding.md R75, R79). -/
def runIllegal (_why : Illegal) (s : State) : Answer := .next (raise .eIllcmd s)

/-- A command word put before the host's other moves. -/
def offerCommand (c : Command) (s : State) : State := { s with host := .cmd c :: s.host }

end Sys2Proof.Machine
end

