-- ==== Sys2Proof/Machine/BitPacker.lean ====
section
/-! DEFINITION. The bit packer unit: `pushbit` (43_bit_packer.md R164), ENCS, ENCB, ENCE (R161 to R163). -/

namespace Sys2Proof.Machine

/-- The waiting byte leaves and a fresh one is begun (R163, R164). -/
def flushByte (s : State) : State := { emit (.out s.acc) s with acc := padByte s.cfg, nacc := 0 }

/-- The next stream bit put into `ACC` (R164, 20_memory.md R55). -/
def placeBit (v : Bool) (s : State) : State := { s with acc := setBit s.acc (bitPosition s.cfg.bitOrder s.nacc.toNat) v }

/-- `pushbit(v)` (R164). -/
def pushBit (s : State) (v : Bool) : State :=
  let t := placeBit v s
  if s.nacc = 7#3 then flushByte t else { t with nacc := s.nacc + 1 }

/-- The bits of a code appended, the code's first bit first (R162). -/
def pushBits (s : State) (bits : List Bool) : State := bits.foldl pushBit s

/-- ENCS (R161): `E_SEQ` without a code table, `E_NOCODE` without a code of the sentinel, else a session opens. -/
def execEncs (s : State) : Answer :=
  withAdmission .idle s fun s =>
    if s.codeValid = false then .next (raise .eSeq s)
    else if (codeAt s s.cfg.eotSym).valid = false then .next (raise .eNocode s)
    else .next { s with acc := padByte s.cfg, nacc := 0, coll := false, ph := .enc }

/-- ENCB (R162): `E_NOCODE` without a code; a byte equal to the sentinel sets `COLL`; the code's bits are pushed. -/
def execEncb (a : Byte) (s : State) : Answer :=
  withAdmission .enc s fun s =>
    if (codeAt s a).valid = false then .next (raise .eNocode s)
    else .next (pushBits { s with coll := s.coll || decide (a = s.cfg.eotSym) } (codeBits (codeAt s a)))

/-- ENCE (R163): push the sentinel's code, flush a byte begun, close the session. -/
def execEnce (s : State) : Answer :=
  withAdmission .enc s fun s =>
    let t := pushBits s (codeBits (codeAt s s.cfg.eotSym))
    .next { (if t.nacc = 0#3 then t else flushByte t) with ph := .idle }

end Sys2Proof.Machine
end

