-- ==== Sys2Proof/Machine/BitUnpacker.lean ====
section
/-! DEFINITION. The bit unpacker unit: the walk of one bit, DECS, DECB, DECE (44_bit_unpacker.md R181 to R184). -/

namespace Sys2Proof.Machine

/-- The walk has arrived at `CUR`: at a leaf the symbol leaves, unless it is the sentinel, which ends the decoding
without being written (R186); then the walk is back at the root (R183). -/
def arrive (s : State) : State :=
  if isLeaf s.cur then
    let t := if s.cur = leafOf s.cfg.eotSym then { s with decDone := true } else emit (.out (symOf s.cur)) s
    { t with cur := s.root }
  else s

/-- One bit of a packed byte: a step down the tree, or discarded after the sentinel (R183). -/
def walkBit (bit : Bool) (s : State) : Answer :=
  if s.decDone then .next s
  else withNode s.cur s fun n => .next (arrive { s with cur := childOf n bit })

/-- Bits walked one after the other. -/
def walkBits : List Bool → State → Answer
  | [],     s => .next s
  | b :: q, s => andThen (walkBit b s) (walkBits q)

/-- DECS (R181, R182): `E_SEQ` without a tree, `E_DEGEN` for a one-leaf tree whose leaf is not the sentinel, else a
session opens; a leaf root is then the sentinel and decoding is done at once. -/
def execDecs (s : State) : Answer :=
  withAdmission .idle s fun s =>
    if s.treeValid = false then .next (raise .eSeq s)
    else if isLeaf s.root ∧ s.root ≠ leafOf s.cfg.eotSym then .next (raise .eDegen s)
    else .next { s with decDone := isLeaf s.root, cur := s.root, ph := .dec }

/-- DECB (R183): the eight bits of one packed byte. -/
def execDecb (a : Byte) (s : State) : Answer :=
  withAdmission .dec s fun s => walkBits (streamBits s.cfg.bitOrder a) s

/-- DECE (R184): without the sentinel `E_MIDPATH` inside a code or `E_TRUNC` between codes; else the session closes. -/
def execDece (s : State) : Answer :=
  withAdmission .dec s fun s =>
    if s.decDone then .next { s with ph := .idle }
    else if s.cur ≠ s.root then .next (raise .eMidpath s)
    else .next (raise .eTrunc s)

end Sys2Proof.Machine
end

