-- ==== Sys2Proof/Machine/CodeDeriver.lean ====
section
/-! DEFINITION. The code table deriver unit: DERIVE as a whole (42_code_deriver.md R141), the two states of its traversal
FSM (R142, R144), RDL and RDC (R152, R153). -/

namespace Sys2Proof.Machine

/-! ## What the two levels share -/

/-- The start of DERIVE (R141, R145). -/
def deriveStart (s : State) : State :=
  { clearCodes s with codeValid := false, cn := s.root, cdep := 0, sp := 0, path := 0, ph := .cdVisit }

/-- At a leaf the path is its code (R142). -/
def recordCode (s : State) : State := setCode (symOf s.cn) { valid := true, len := s.cdep, bits := s.path } s

/-- At an internal node the right child is pushed and the walk goes left (R142). `PATH` has no bit 255 (R148). -/
def descendLeft (s : State) : Answer :=
  withNode s.cn s fun n =>
    if s.cdep = 255#8 then .fault .pathAbsent
    else andThen (pushStack { node := n.r, dep := s.cdep } s) fun s =>
      .next { s with cn := n.l, cdep := s.cdep + 1 }

/-- `(PATH mod 2^k) + 2^k`: choices 0 to `k`-1 are kept, choice `k` becomes 1 (R144). -/
def branchRight (p : PathBits) (k : Nat) : PathBits := BitVec.ofNat 255 (p.toNat % 2 ^ k + 2 ^ k)

/-- Resume at the most recent pending right child (R144). `PATH` has no bit 255 (R148). -/
def resumeRight (s : State) : Answer :=
  let e := stackAt s (s.sp - 1).toNat
  if e.dep = 255#8 then .fault .pathAbsent
  else .next { s with
    sp := s.sp - 1, cn := e.node, path := branchRight s.path e.dep.toNat, cdep := e.dep + 1, ph := .cdVisit }

/-- The end of the traversal (R144). -/
def finishCodes (s : State) : State := { s with codeValid := true, ph := .idle }

/-! ## DERIVE, the command -/

/-- The loop of R141, one visit a pass. `n` bounds the visits (R255). -/
def visitLoop : Nat → State → Answer
  | 0,     _ => .fault .loopBound
  | n + 1, s =>
    if isLeaf s.cn then
      if s.sp = 0#8 then .next (finishCodes (recordCode s))
      else andThen (resumeRight (recordCode s)) (visitLoop n)
    else andThen (descendLeft s) (visitLoop n)

/-- DERIVE (R141): `E_SEQ` without a tree, else the whole code table. -/
def execDerive (s : State) : Answer :=
  withAdmission .idle s fun s =>
    if s.treeValid then visitLoop 511 (deriveStart s) else .next (raise .eSeq s)

/-! ## The traversal FSM -/

/-- `CD_VISIT` (R142). -/
def stateCdVisit (s : State) : Answer :=
  if isLeaf s.cn then .next { recordCode s with ph := .cdPop } else descendLeft s

/-- `CD_POP` (R144). -/
def stateCdPop (s : State) : Answer :=
  if s.sp = 0#8 then .next (finishCodes s) else resumeRight s

/-! ## RDL and RDC -/

/-- RDL (R152): respond with a code's validity and length. -/
def execRdl (a : Byte) (s : State) : Answer :=
  withAdmission .always s fun s => .next (emit (.rsp (lengthWord (codeAt s a))) s)

/-- RDC (R153): respond with 64 bits of a code. -/
def execRdc (a : Byte) (q : BitVec 2) (s : State) : Answer :=
  withAdmission .always s fun s => .next (emit (.rsp (codeChunk (codeAt s a).bits q)) s)

end Sys2Proof.Machine
end

