-- ==== Sys2Proof/Machine/FrequencyTable.lean ====
section
/-! DEFINITION. The frequency table unit: FCLR, FSMP, FSCL, WRW, RDW (40_frequency_table.md). -/

namespace Sys2Proof.Machine

/-- The weight FCLR gives symbol `i`: the floor, and one more for the sentinel (R91). -/
def initialWeight (c : Config) (i : Nat) : Weight :=
  if i = c.eotSym.toNat then floorWeight + 1 else floorWeight

/-- The product of FSCL, exact: a natural number (R93, R97). -/
def scaledProduct (c : Config) (v : Weight) : Nat := v.toNat * c.scale.toNat

/-- The product does not fit 32 bits (R93). -/
def scaleOverflows (c : Config) (v : Weight) : Bool := decide (maxWeight.toNat < scaledProduct c v)

/-- What FSCL writes for a weight: saturated, and a zero clamped to 1 (R93). -/
def scaledWeight (c : Config) (v : Weight) : Weight :=
  if scaleOverflows c v then maxWeight
  else if scaledProduct c v = 0 then 1#32
  else BitVec.ofNat 32 (scaledProduct c v)

/-- FCLR (R91): all weights to the floor, the sentinel's slot incremented once. -/
def execFclr (s : State) : Answer :=
  withAdmission .idle s fun s => .next (setWeights (initialWeight s.cfg) s)

/-- FSMP (R92): count one byte; at the maximum `E_WOVF`, and the weight stays. -/
def execFsmp (a : Byte) (s : State) : Answer :=
  withAdmission .idle s fun s =>
    if weightAt s a.toNat = maxWeight then .next (raise .eWovf s)
    else .next (setWeight a (weightAt s a.toNat + 1) s)

/-- FSCL (R93): scale and clamp all 256 weights, then `E_WOVF` if any product did not fit. -/
def execFscl (s : State) : Answer :=
  withAdmission .idle s fun s =>
    let t := setWeights (fun i => scaledWeight s.cfg (weightAt s i)) s
    if (List.range 256).any fun i => scaleOverflows s.cfg (weightAt s i) then .next (raise .eWovf t) else .next t

/-- WRW (R94): write one weight. -/
def execWrw (a : Byte) (d : Weight) (s : State) : Answer :=
  withAdmission .idle s fun s => .next (setWeight a d s)

/-- RDW (R95): respond with one weight. -/
def execRdw (a : Byte) (s : State) : Answer :=
  withAdmission .always s fun s => .next (emit (.rsp ((weightAt s a.toNat).setWidth 64)) s)

end Sys2Proof.Machine
end

