-- ==== Sys2Proof/Machine/System.lean ====
section
/-! DEFINITION. The system commands NOP, RST, CLRE, RDS (45_system.md). -/

namespace Sys2Proof.Machine

/-- NOP (R201): no action, in every boundary state. -/
def execNop (s : State) : Answer := withAdmission .always s fun s => .next s

/-- RST (R202): every item of state takes its reset value (10_state.md R38). -/
def execRst (s : State) : Answer := withAdmission .always s fun s => .next (resetItems s)

/-- CLRE (R203): leave `FAULT`; in `IDLE`, `ENC`, `DEC` no action. -/
def execClre (s : State) : Answer := withAdmission .always s fun s => .next (leaveFault s)

/-- RDS (R204): respond with `STATUS`. -/
def execRds (s : State) : Answer := withAdmission .always s fun s => .next (emit (.rsp (statusWord s)) s)

end Sys2Proof.Machine
end

