-- ==== Sys2Proof/Machine/TreeBuilder.lean ====
section
/-! DEFINITION. The tree builder unit: BUILD as a whole (41_tree_builder.md R113), the five states of its merge FSM (R114
to R118), and RDN (R133). -/

namespace Sys2Proof.Machine

/-! ## What the two levels share -/

/-- The start of BUILD (R113, R119). -/
def buildStart (s : State) : State :=
  { s with treeValid := false, codeValid := false, pq := [], nextNode := 256#9, nleaf := 0, li := 0, ph := .tbLoad }

/-- The leaf of symbol `LI` enters the queue if its weight is not zero (R114; 90_conflicts.md C1). -/
def countLeaf (s : State) : Answer :=
  if weightAt s s.li.toNat = 0 then .next s
  else andThen (insertQueue s.li s) fun s => .next { s with nleaf := s.nleaf + 1 }

/-- One symbol loaded: its entry of `NODE` is a snapshot of its weight (R114). `W` has 256 entries. -/
def loadSymbol (s : State) : Answer :=
  if s.li.toNat < 256 then
    andThen (setNode s.li { w := (weightAt s s.li.toNat).setWidth 40, l := 0, r := 0 } s) fun s =>
      andThen (countLeaf s) fun s => .next { s with li := s.li + 1 }
  else .fault .weightAbsent

/-- `A <- PQ.extract_min()` (R115). -/
def extractA (s : State) : Answer := withMin s fun m s => .next { s with a := m }

/-- `B <- PQ.extract_min()` (R117). -/
def extractB (s : State) : Answer := withMin s fun m s => .next { s with b := m }

/-- The last tree is the result (R116). -/
def finishTree (s : State) : State := { s with root := s.a, treeValid := true, ph := .idle }

/-- The new internal node: the first-extracted tree is its right child, the second its left (R118, R121). -/
def mergeTrees (s : State) : Answer :=
  withNode s.a s fun na =>
    withNode s.b s fun nb =>
      andThen (setNode s.nextNode { w := na.w + nb.w, l := s.b, r := s.a } s) fun s =>
        andThen (insertQueue s.nextNode s) fun s => .next { s with nextNode := s.nextNode + 1 }

/-! ## BUILD, the command -/

/-- The loop of R113: extract, finish on an empty queue, else extract again and merge. `n` bounds the passes (R255). -/
def mergeLoop : Nat → State → Answer
  | 0,     _ => .fault .loopBound
  | n + 1, s =>
    if s.pq = [] then .next (raise .eEmpty s)
    else andThen (extractA s) fun s =>
      if s.pq = [] then .next (finishTree s)
      else andThen (extractB s) fun s => andThen (mergeTrees s) (mergeLoop n)

/-- BUILD (R113): load the 256 symbols, then merge. -/
def execBuild (s : State) : Answer :=
  withAdmission .idle s fun s => andThen (repeatOp loadSymbol 256 (buildStart s)) (mergeLoop 256)

/-! ## The merge FSM -/

/-- `TB_LOAD` (R114). -/
def stateTbLoad (s : State) : Answer :=
  andThen (loadSymbol s) fun s => .next (if s.li = 256#9 then { s with ph := .tbXa } else s)

/-- `TB_XA` (R115). -/
def stateTbXa (s : State) : Answer :=
  if s.pq = [] then .next (raise .eEmpty s) else andThen (extractA s) fun s => .next { s with ph := .tbChk }

/-- `TB_CHK` (R116). -/
def stateTbChk (s : State) : Answer :=
  if s.pq = [] then .next (finishTree s) else .next { s with ph := .tbXb }

/-- `TB_XB` (R117). -/
def stateTbXb (s : State) : Answer := andThen (extractB s) fun s => .next { s with ph := .tbMerge }

/-- `TB_MERGE` (R118). -/
def stateTbMerge (s : State) : Answer := andThen (mergeTrees s) fun s => .next { s with ph := .tbXa }

/-! ## RDN -/

/-- RDN (R133): respond with one node; `E_RANGE` for index 511, and then no response. -/
def execRdn (idx : NodeIndex) (s : State) : Answer :=
  withAdmission .always s fun s =>
    if idx = 511#9 then .next (raise .eRange s)
    else withNode idx s fun n => .next (emit (.rsp (nodeWord idx n)) s)

end Sys2Proof.Machine
end

