-- ==== Sys2Proof/Machine/Dispatch.lean ====
section
/-! DEFINITION. One arm per command (30_encoding.md R73): each is one call of that command's meaning. -/

namespace Sys2Proof.Machine

def exec (i : Instr) (s : State) : Host.Outcome State Fault Refusal :=
  match i with
  | .nop => Sys2Proof.Machine.execNop s
  | .rst => Sys2Proof.Machine.execRst s
  | .clre => Sys2Proof.Machine.execClre s
  | .rds => Sys2Proof.Machine.execRds s
  | .fclr => Sys2Proof.Machine.execFclr s
  | .fsmp a => Sys2Proof.Machine.execFsmp a s
  | .fscl => Sys2Proof.Machine.execFscl s
  | .wrw a d => Sys2Proof.Machine.execWrw a d s
  | .rdw a => Sys2Proof.Machine.execRdw a s
  | .build => Sys2Proof.Machine.execBuild s
  | .rdn idx => Sys2Proof.Machine.execRdn idx s
  | .derive => Sys2Proof.Machine.execDerive s
  | .rdl a => Sys2Proof.Machine.execRdl a s
  | .rdc a q => Sys2Proof.Machine.execRdc a q s
  | .encs => Sys2Proof.Machine.execEncs s
  | .encb a => Sys2Proof.Machine.execEncb a s
  | .ence => Sys2Proof.Machine.execEnce s
  | .decs => Sys2Proof.Machine.execDecs s
  | .decb a => Sys2Proof.Machine.execDecb a s
  | .dece => Sys2Proof.Machine.execDece s

end Sys2Proof.Machine
end

