-- ==== Sys2Proof/Machine/Fsm.lean ====
section
/-! DEFINITION. The finite-state machine inside BUILD and DERIVE (00_scope.md R8; 41_tree_builder.md R119;
42_code_deriver.md R145): what one step does in each state of `PH`. -/

namespace Sys2Proof.Machine

/-- One FSM step. At a command boundary the FSM has none: the state stays. -/
def fsmStep (s : State) : Answer :=
  match s.ph with
  | .idle    => .next s
  | .enc     => .next s
  | .dec     => .next s
  | .fault   => .next s
  | .tbLoad  => stateTbLoad s
  | .tbXa    => stateTbXa s
  | .tbChk   => stateTbChk s
  | .tbXb    => stateTbXb s
  | .tbMerge => stateTbMerge s
  | .cdVisit => stateCdVisit s
  | .cdPop   => stateCdPop s

end Sys2Proof.Machine
end

