-- ==== Sys2Proof/Machine/Step.lean ====
section
/-! DEFINITION. One step of the machine (30_encoding.md R79; 00_scope.md R7), and the placing of a command word where the
next step takes it. -/

namespace Sys2Proof.Machine

/-- One step: obey `rst`, or make one FSM step in a busy state, or run the command word accepted, or wait. -/
def step (s : State) : Host.Outcome State Fault Refusal :=
  match turnOf s with
  | .reset t    => .next t
  | .fsm        => fsmStep s
  | .wait       => .next s
  | .accept c t =>
    match decode c with
    | .ok i    => exec i t
    | .error e => runIllegal e t

/-- `s` with a table word offered as the host's next move. -/
def State.withFetchWord (s : State) (nbits w : Nat) : State := offerCommand (tableWord nbits w) s

end Sys2Proof.Machine
end

