-- ==== Sys2Proof/Safety.lean ====
section
/-! DEFINITION. What a safe run of HUFFCORE is, in the terms the statements use: runs of commands, the tree and code
vocabulary of 00_scope.md R17, the invariants of 10_state.md R37, and the sequence functions the spec describes outputs
with (43_bit_packer.md R167, 44_bit_unpacker.md R191). -/

namespace Sys2Proof.Safety

open Sys2Proof.Machine

/-! ## Runs -/

/-- Commands run one after the other (20_memory.md R62). -/
def execAll : List Instr → State → Answer
  | [],     s => .next s
  | i :: q, s => andThen (exec i s) (execAll q)

/-- The observation of a run: the events taken, then the events waiting (20_memory.md R60). -/
def observed (s : State) : List Event := s.seen ++ s.outq

/-- A command boundary: `PH < 4` (00_scope.md R19). -/
abbrev Boundary (s : State) : Prop := s.ph = .idle ∨ s.ph = .enc ∨ s.ph = .dec ∨ s.ph = .fault

/-! ## Trees -/

/-- Follow branch choices from node `i`; a choice at a leaf, or at an index that is no entry, leads nowhere (R17). -/
def walk (s : State) : NodeIndex → List Bool → Option NodeIndex
  | i, []     => some i
  | i, b :: q => if isLeaf i = true ∨ i = 511#9 then none else walk s (childOf (nodeAt s i.toNat) b) q

/-- Node `i` is in the current tree (20_memory.md R52). -/
abbrev InTree (s : State) (i : Nat) : Prop :=
  (i < 256 ∧ (nodeAt s i).w ≠ 0) ∨ (256 ≤ i ∧ i < s.nextNode.toNat)

/-- The internal nodes of the current tree of which `i` is a child. -/
def parents (s : State) (i : Nat) : List Nat :=
  (List.range' 256 (s.nextNode.toNat - 256)).filter fun p =>
    decide ((nodeAt s p).l.toNat = i) || decide ((nodeAt s p).r.toNat = i)

/-- How many of the 256 leaf entries have a weight. -/
def leafCount (s : State) : Nat := ((List.range 256).filter fun i => decide ((nodeAt s i).w ≠ 0)).length

/-- How many of the 256 weights are not zero. -/
def weightCount (s : State) : Nat := ((List.range 256).filter fun i => decide (weightAt s i ≠ 0)).length

/-- The sum of the 256 weights. -/
def weightSum (s : State) : Nat := ((List.range 256).map fun i => (weightAt s i).toNat).sum

/-- An internal node of the tree: two distinct children in the tree, of lower index, whose weights add up to its own
(41_tree_builder.md R127, R128). -/
structure InternalOk (s : State) (i : Nat) : Prop where
  left     : InTree s (nodeAt s i).l.toNat
  right    : InTree s (nodeAt s i).r.toNat
  distinct : (nodeAt s i).l ≠ (nodeAt s i).r
  leftLt   : (nodeAt s i).l.toNat < i
  rightLt  : (nodeAt s i).r.toNat < i
  weight   : (nodeAt s i).w.toNat =
    (nodeAt s (nodeAt s i).l.toNat).w.toNat + (nodeAt s (nodeAt s i).r.toNat).w.toNat

/-- The tree in `NODE` (10_state.md R37 (f), R128): its leaves are the symbols of non-zero weight, its internal nodes
are 256 to `NEXT`-1, and every node but `ROOT` is the child of exactly one node. -/
structure TreeShape (s : State) : Prop where
  count    : s.nleaf.toNat = leafCount s
  some_    : 1 ≤ s.nleaf.toNat
  most     : s.nleaf.toNat ≤ 256
  next     : s.nextNode.toNat = 255 + s.nleaf.toNat
  root     : InTree s s.root.toNat
  last     : 2 ≤ s.nleaf.toNat → s.root.toNat + 1 = s.nextNode.toNat
  internal : ∀ i < 511, 256 ≤ i ∧ i < s.nextNode.toNat → InternalOk s i
  parent   : ∀ i < 511, InTree s i → (parents s i).length = if i = s.root.toNat then 0 else 1

/-- The code entry of a symbol agrees with the tree (10_state.md R37 (h), 42_code_deriver.md R147): it is valid iff the
symbol has a leaf, and then its bits lead from `ROOT` to that leaf; the bits from `len` on are zero; an entry that is not
valid is all zero. -/
structure CodeEntryOk (s : State) (x : Byte) : Prop where
  valid   : (codeAt s x).valid = true ↔ (nodeAt s x.toNat).w ≠ 0
  leads   : (codeAt s x).valid = true → walk s s.root (codeBits (codeAt s x)) = some (leafOf x)
  zero    : (codeAt s x).bits.toNat < 2 ^ (codeAt s x).len.toNat
  invalid : (codeAt s x).valid = false → codeAt s x = emptyCode

/-- The trees that wait in the queue when node `k` is made: in the tree, older than `k`, and no child yet
(41_tree_builder.md R113, R123). -/
def waitingTrees (s : State) (k : Nat) : List Nat :=
  (List.range k).filter fun j => decide (InTree s j) && (parents s j).all fun p => decide (k ≤ p)

/-- Tree `i` precedes tree `j` (R111). -/
abbrev Lighter (s : State) (i j : Nat) : Prop :=
  (nodeAt s i).w < (nodeAt s j).w ∨ ((nodeAt s i).w = (nodeAt s j).w ∧ i < j)

/-- Node `k` merges the two trees that come first in the order of R111: the first is its right child, the second its
left (R118, R121). -/
structure MergesLeastTwo (s : State) (k : Nat) : Prop where
  first   : (nodeAt s k).r.toNat ∈ waitingTrees s k
  least   : ∀ j ∈ waitingTrees s k, j ≠ (nodeAt s k).r.toNat → Lighter s (nodeAt s k).r.toNat j
  second  : (nodeAt s k).l.toNat ∈ waitingTrees s k
  next    : ∀ j ∈ waitingTrees s k, j ≠ (nodeAt s k).r.toNat → j ≠ (nodeAt s k).l.toNat →
    Lighter s (nodeAt s k).l.toNat j

/-- `CODE` is the table of the tree in `NODE`. -/
abbrev CodeTable (s : State) : Prop := ∀ x : Byte, CodeEntryOk s x

/-! ## The invariants (10_state.md R37) -/

/-- Every memory is in its canonical form, and `PQ` lists each member once, by rising index. -/
structure Canonical (s : State) : Prop where
  w    : Memory.wf 256 0 s.w
  node : Memory.wf 511 emptyNode s.node
  code : Memory.wf 256 emptyCode s.code
  stk  : Memory.wf 255 emptyStack s.stk
  pq   : s.pq.Pairwise (· < ·)

/-- The positions of `ACC` not yet filled hold `PAD_BIT` (R37 (d)). -/
abbrev PadOk (s : State) : Prop :=
  ∀ m < 8, s.nacc.toNat ≤ m → s.acc.getLsbD (bitPosition s.cfg.bitOrder m) = s.cfg.padBit

/-- R37 (a) to (e). -/
structure RegistersOk (s : State) : Prop where
  boundary : Boundary s
  err      : s.err ≠ none ↔ s.ph = .fault
  queue    : s.pq = []
  waiting  : s.ph = .idle ∨ s.ph = .dec → s.nacc = 0 ∧ s.acc = padByte s.cfg
  filling  : s.ph = .enc → PadOk s
  tables   : s.codeValid = true → s.treeValid = true

/-- What an open session relies on: the tables it was opened with (30_encoding.md R78), and in a decode session before
the sentinel R37 (g). -/
structure SessionOk (s : State) : Prop where
  codes    : s.ph = .enc → s.codeValid = true
  sentinel : s.ph = .enc → (codeAt s s.cfg.eotSym).valid = true
  tree     : s.ph = .dec → s.treeValid = true
  inside   : s.ph = .dec → s.decDone = false → isLeaf s.cur = false
  reached  : s.ph = .dec → s.decDone = false → ∃ path, walk s s.root path = some s.cur

/-- All of R37, with the canonical form of the memories. -/
structure Inv (s : State) : Prop where
  canonical : Canonical s
  registers : RegistersOk s
  tree      : s.treeValid = true → TreeShape s
  codes     : s.codeValid = true → CodeTable s
  session   : SessionOk s

/-! ## The packed stream as a function (43_bit_packer.md R167) -/

/-- A byte from its eight stream bits (20_memory.md R55). -/
def packByte (o : BitOrder) (bit : Nat → Bool) : Byte :=
  BitVec.ofNat 8 ((List.range 8).map fun m => if bit m then 2 ^ bitPosition o m else 0).sum

/-- The first `n` bytes of a stream of bits followed by padding. -/
def packBytes (c : Config) (bits : List Bool) (n : Nat) : List Byte :=
  (List.range n).map fun k => packByte c.bitOrder fun m => bits.getD (8 * k + m) c.padBit

/-- The stream bits that wait in `ACC`. -/
def waitingBits (s : State) : List Bool :=
  (List.range s.nacc.toNat).map fun m => s.acc.getLsbD (bitPosition s.cfg.bitOrder m)

/-- `bitsOf(S)`: the codes of the data bytes, then the sentinel's (R167). -/
def bitsOf (s : State) (data : List Byte) : List Bool :=
  data.flatMap (fun x => codeBits (codeAt s x)) ++ codeBits (codeAt s s.cfg.eotSym)

/-- The packed bytes of an encode session (R166, R167). -/
def packedStream (s : State) (data : List Byte) : List Byte :=
  packBytes s.cfg (bitsOf s data) (((bitsOf s data).length + 7) / 8)

/-! ## The decoded sequence as a function (44_bit_unpacker.md R191) -/

/-- What a walk over bits has written, whether it has met the sentinel, and where it stands. -/
structure Decoded where
  out  : List Byte
  done : Bool
  cur  : NodeIndex
  deriving DecidableEq, Repr

/-- `dec` of R191, from a walk position: on a leaf its symbol is written and the walk is back at the root; the sentinel
ends the walk unwritten, and the bits after it are discarded. -/
def decodeBits (s : State) : NodeIndex → List Bool → Decoded
  | cur, []     => { out := [], done := false, cur := cur }
  | cur, b :: q =>
    let c := childOf (nodeAt s cur.toNat) b
    if isLeaf c then
      if c = leafOf s.cfg.eotSym then { out := [], done := true, cur := s.root }
      else let d := decodeBits s s.root q
        { d with out := symOf c :: d.out }
    else decodeBits s c q

/-- The bits of packed bytes in stream order (R185). -/
def bytesBits (s : State) (packed : List Byte) : List Bool := packed.flatMap (streamBits s.cfg.bitOrder)

/-! ## Counts and tables of the spec -/

/-- The FSM steps of BUILD for `n` leaves (41_tree_builder.md R124). -/
def buildSteps (n : Nat) : Nat := if n = 0 then 257 else 256 + 4 * (n - 1) + 2

/-- The FSM steps of DERIVE for `n` leaves (42_code_deriver.md R150). -/
def deriveSteps (n : Nat) : Nat := 3 * n - 1

/-- The faults a command can raise besides `E_ILLCMD` (60_exceptions.md R217). -/
def mayRaise : Instr → List FaultName
  | .nop     => []
  | .rst     => []
  | .clre    => []
  | .rds     => []
  | .fclr    => [.eSeq]
  | .fsmp _  => [.eSeq, .eWovf]
  | .fscl    => [.eSeq, .eWovf]
  | .wrw _ _ => [.eSeq]
  | .rdw _   => []
  | .build   => [.eSeq, .eEmpty]
  | .rdn _   => [.eRange]
  | .derive  => [.eSeq]
  | .rdl _   => []
  | .rdc _ _ => []
  | .encs    => [.eSeq, .eNocode]
  | .encb _  => [.eSeq, .eNocode]
  | .ence    => [.eSeq]
  | .decs    => [.eSeq, .eDegen]
  | .decb _  => [.eSeq]
  | .dece    => [.eSeq, .eTrunc, .eMidpath]

/-- The operands of an instruction as a line of assembly lists them (30_encoding.md R80). -/
def operandsOf : Instr → List Nat
  | .nop     => []
  | .rst     => []
  | .clre    => []
  | .rds     => []
  | .fclr    => []
  | .fsmp a  => [a.toNat]
  | .fscl    => []
  | .wrw a d => [a.toNat, d.toNat]
  | .rdw a   => [a.toNat]
  | .build   => []
  | .rdn x   => [x.toNat]
  | .derive  => []
  | .rdl a   => [a.toNat]
  | .rdc a q => [a.toNat, q.toNat]
  | .encs    => []
  | .encb a  => [a.toNat]
  | .ence    => []
  | .decs    => []
  | .decb a  => [a.toNat]
  | .dece    => []

/-- A command's word and class (30_encoding.md R73, R77). -/
abbrev Encoded (i : Instr) (word : Command) (c : CommandClass) : Prop := decode word = .ok i ∧ commandClass i = c

/-- Outside the states that admit it a command raises `E_SEQ` and does nothing else; in `FAULT` it is dropped (R78). -/
abbrev FaultsIn (phases : List Phase) (i : Instr) : Prop :=
  (∀ s : State, s.ph ∈ phases → exec i s = .next { s with err := some .eSeq, ph := .fault }) ∧
  (∀ s : State, s.ph = .fault → exec i s = .next s)

end Sys2Proof.Safety
end

