-- ==== Sys2Proof/Certificates/Slice0/Obligations.lean ====
section
/-! DEFINITION. The statements for the provers, in the order of the spec's files. Each docstring names the rules it
formalises. -/

open Sys2Proof Sys2Proof.Machine Sys2Proof.Safety

/-! ## Encoding (30_encoding.md) -/

/-- Words of every family and format, written out from R71 and R73, decode to what they stand for; words with a
must-be-zero bit set or an undefined opcode are illegal (R75). -/
def Obligations.SpecWordsDecode : Prop :=
  decode 0x000000000000#48 = .ok .nop ∧ decode 0x030000000000#48 = .ok .rds ∧
  decode 0x136100000003#48 = .ok (.wrw 0x61#8 3#32) ∧ decode 0x111000000000#48 = .ok (.fsmp 0x10#8) ∧
  decode 0x200000000000#48 = .ok .build ∧ decode 0x210000000101#48 = .ok (.rdn 257#9) ∧
  decode 0x326100000003#48 = .ok (.rdc 0x61#8 3#2) ∧ decode 0x416200000000#48 = .ok (.encb 0x62#8) ∧
  decode 0x515800000000#48 = .ok (.decb 0x58#8) ∧ decode 0x520000000000#48 = .ok .dece ∧
  decode 0xFF0000000000#48 = .error .undefinedOpcode ∧ decode 0x000000000001#48 = .error .mustBeZeroBitSet ∧
  decode 0x210000000200#48 = .error .mustBeZeroBitSet ∧ decode 0x320000000004#48 = .error .mustBeZeroBitSet ∧
  decode 0x030100000000#48 = .error .mustBeZeroBitSet

/-- Decoding the word of an instruction gives the instruction, for every instruction and every operand (R71 to R74). -/
def Obligations.DecodeOfEncode : Prop := ∀ i : Instr, decode (encode i) = .ok i

/-- Encoding what a word decodes to gives the word: no bit of a legal word is ignored (R74, R75). -/
def Obligations.EncodeOfDecode : Prop := ∀ (c : Command) (i : Instr), decode c = .ok i → encode i = c

/-- Decoding is total, and agrees with the mask-and-match table of R73: a word decodes iff it selects a row, no word
selects two rows, and what it decodes to is of the row it selects (R74, R75). -/
def Obligations.DecodeAgreesWithTable : Prop :=
  ∀ c : Command, (wordLegal c = true ↔ ∃ i, decode c = .ok i) ∧
    (opcodeRows.filter fun r => r.selects c).length ≤ 1 ∧
    ∀ i, decode c = .ok i → ∃ r ∈ opcodeRows, r.selects c = true ∧ r.op = i.opcode

/-- A line of assembly has a word iff its mnemonic is one of the twenty and its operands fit, and the word decodes to the
instruction with that row's opcode and those operands (R80). -/
def Obligations.LinesAssemble : Prop :=
  ∀ l : Line, (l.wellFormed = true ↔ ∃ c, assemble l = some c) ∧
    ∀ c, assemble l = some c → ∃ i, decode c = .ok i ∧ operandsOf i = l.operands ∧
      ∃ r ∈ opcodeRows, r.mnemonic = l.mnemonic ∧ r.op = i.opcode

/-! ## One step (00_scope.md R7, 30_encoding.md R79, 70_reset_and_hazards.md R240) -/

/-- At a command boundary, when the host's next move is a word that decodes to `i`, the step is `exec i` in the state
with the word taken and every waiting event transferred to the host. That the host's moves and the observation are
fields of the state is the model's choice (log entries 1 and 4). -/
def Obligations.StepRunsDecoded : Prop :=
  ∀ (s : State) (c : Command) (moves : List HostMove) (i : Instr),
    s.host = .cmd c :: moves → Boundary s → decode c = .ok i →
      step s = exec i { s with host := moves, seen := s.seen ++ s.outq, outq := [] }

/-- An illegal word raises `E_ILLCMD` and does nothing else; in `FAULT` it does nothing at all (R75, R79). -/
def Obligations.StepRefusesIllegal : Prop :=
  ∀ (s : State) (c : Command) (moves : List HostMove) (e : Illegal),
    s.host = .cmd c :: moves → Boundary s → decode c = .error e →
      (s.ph ≠ .fault → step s = .next { s with
        host := moves, seen := s.seen ++ s.outq, outq := [], err := some .eIllcmd, ph := .fault }) ∧
      (s.ph = .fault → step s = .next { s with host := moves, seen := s.seen ++ s.outq, outq := [] })

/-- The `rst` input gives the reset state from every state, a busy one too; the events the host has not taken are
dropped (R240, R38). How many events the host has taken by then comes with the host's move: the model's choice (log entry
3). -/
def Obligations.StepObeysReset : Prop :=
  ∀ (s : State) (taken : Nat) (moves : List HostMove), s.host = .rst taken :: moves →
    step s = .next { State.resetWith s.cfg with host := moves, seen := s.seen ++ s.outq.take taken }

/-- A busy core accepts no command: without `rst` its step is a step of the FSM, which takes no move of the host and
emits nothing (00_scope.md R7, 10_state.md R22). That a step in a busy state is one FSM step is the model's choice (log
entry 4). -/
def Obligations.BusyCoreAcceptsNothing : Prop :=
  ∀ s : State, ¬ Boundary s → (∀ taken moves, s.host ≠ .rst taken :: moves) →
    step s = fsmStep s ∧
    ∀ t, fsmStep s = .next t → t.host = s.host ∧ t.outq = s.outq ∧ t.seen = s.seen

/-- What reset leaves, for every value of the parameters (10_state.md R38): every item of the spec's tuple. The fields for
events are the model's own (log entry 1), and `State.reset` is the reset with the parameter values of R11 (log entry 2). -/
def Obligations.ResetLeaves : Prop :=
  ∀ c : Config,
    (State.resetWith c).ph = .idle ∧ (State.resetWith c).err = none ∧
    (State.resetWith c).treeValid = false ∧ (State.resetWith c).codeValid = false ∧
    (State.resetWith c).decDone = false ∧ (State.resetWith c).coll = false ∧
    (State.resetWith c).root = 0 ∧ (State.resetWith c).nleaf = 0 ∧ (State.resetWith c).li = 0 ∧
    (State.resetWith c).a = 0 ∧ (State.resetWith c).b = 0 ∧ (State.resetWith c).cn = 0 ∧ (State.resetWith c).cur = 0 ∧
    (State.resetWith c).nextNode = 256#9 ∧
    (State.resetWith c).cdep = 0 ∧ (State.resetWith c).sp = 0 ∧ (State.resetWith c).nacc = 0 ∧
    (State.resetWith c).path = 0 ∧ (∀ m < 8, (State.resetWith c).acc.getLsbD m = c.padBit) ∧
    (∀ i, weightAt (State.resetWith c) i = 0) ∧ (∀ i, nodeAt (State.resetWith c) i = { w := 0, l := 0, r := 0 }) ∧
    (State.resetWith c).pq = [] ∧
    (∀ x, codeAt (State.resetWith c) x = { valid := false, len := 0, bits := 0 }) ∧
    (∀ k, stackAt (State.resetWith c) k = { node := 0, dep := 0 }) ∧
    (State.resetWith c).outq = [] ∧ (State.resetWith c).seen = [] ∧ State.reset = State.resetWith Config.huffcore

/-! ## Admission and faults (30_encoding.md R78, 60_exceptions.md) -/

/-- In `FAULT` a command that is not of class `always` is dropped, and no command but CLRE and RST changes anything but
the output (R222). -/
def Obligations.FaultStateHolds : Prop :=
  ∀ (i : Instr) (s : State), s.ph = .fault →
    (commandClass i ≠ .always → exec i s = .next s) ∧
    (i ≠ .clre → i ≠ .rst → ∃ t, exec i s = .next t ∧ { t with outq := s.outq } = s)

/-- `raise F` outside `FAULT` records the fault and enters `FAULT`, and in `FAULT` records nothing (R218). -/
def Obligations.RaiseRecordsFirstFault : Prop :=
  ∀ (f : FaultName) (s : State),
    (s.ph ≠ .fault → raise f s = { s with err := some f, ph := .fault }) ∧ (s.ph = .fault → raise f s = s)

/-- A fault leaves the state exactly as it was before the command, apart from `ERR` and `PH`, but for FSCL's `E_WOVF` and
BUILD's `E_EMPTY` (R220). -/
def Obligations.FaultsArePrecise : Prop :=
  ∀ (i : Instr) (s t : State), s.ph ≠ .fault → exec i s = .next t → t.ph = .fault →
    { t with err := s.err, ph := s.ph } = s ∨
    (i = .fscl ∧ t.err = some .eWovf) ∨ (i = .build ∧ t.err = some .eEmpty)

/-- A command that runs into `FAULT` records one of the faults R217 lists for it. -/
def Obligations.CommandsRaiseTheirFaults : Prop :=
  ∀ (i : Instr) (s t : State), s.ph ≠ .fault → exec i s = .next t → t.ph = .fault →
    ∃ f ∈ mayRaise i, t.err = some f

/-! ## Whole-machine rules (10_state.md R36, 20_memory.md R60, R64) -/

/-- The access matrix (R36), all fourteen columns, for writes: each is unchanged by every command whose row does not list it
as written. The commands that write a column are given by their `op`. `PH` and `ERR`, which any command that raises a
fault writes as well, change in no other way than by such a raise, of a fault R217 lists for the command; R36 treats `ERR`
with `PH`, and no command but RST, CLRE and a raise writes it (10_state.md R22, R27). -/
def Obligations.AccessMatrix : Prop :=
  ∀ (i : Instr) (s t : State), exec i s = .next t →
    (i.opcode ∉ [0x01#8, 0x10#8, 0x11#8, 0x12#8, 0x13#8] → t.w = s.w) ∧
    (i.opcode ∉ [0x01#8, 0x20#8] → t.node = s.node ∧ t.pq = s.pq ∧ t.root = s.root ∧ t.nleaf = s.nleaf ∧
      t.nextNode = s.nextNode ∧ t.li = s.li ∧ t.a = s.a ∧ t.b = s.b ∧ t.treeValid = s.treeValid) ∧
    (i.opcode ∉ [0x01#8, 0x30#8] → t.code = s.code ∧ t.stk = s.stk ∧ t.path = s.path ∧ t.cn = s.cn ∧
      t.cdep = s.cdep ∧ t.sp = s.sp) ∧
    (i.opcode ∉ [0x01#8, 0x20#8, 0x30#8] → t.codeValid = s.codeValid) ∧
    (i.opcode ∉ [0x01#8, 0x02#8, 0x40#8, 0x41#8, 0x42#8] → t.acc = s.acc ∧ t.nacc = s.nacc) ∧
    (i.opcode ∉ [0x01#8, 0x50#8, 0x51#8] → t.cur = s.cur ∧ t.decDone = s.decDone) ∧
    (i.opcode ∉ [0x01#8, 0x40#8, 0x41#8] → t.coll = s.coll) ∧
    (i.opcode ∉ [0x01#8, 0x02#8, 0x20#8, 0x30#8, 0x40#8, 0x42#8, 0x50#8, 0x52#8] →
      t.ph = s.ph ∨ (s.ph ≠ .fault ∧ t.ph = .fault ∧ ∃ f ∈ mayRaise i, t.err = some f)) ∧
    (i.opcode ∉ [0x01#8, 0x02#8] →
      t.err = s.err ∨ (s.ph ≠ .fault ∧ t.ph = .fault ∧ ∃ f ∈ mayRaise i, t.err = some f))

/-- A command only appends events, on one channel, a response alone (R60); a step without `rst` appends to the
observation, and `rst` takes back nothing the host has taken. The observation as two fields is the model's choice (log
entries 1 and 3). -/
def Obligations.OutputOnlyGrows : Prop :=
  (∀ (i : Instr) (s t : State), exec i s = .next t →
    t.seen = s.seen ∧ t.host = s.host ∧
    ∃ es, t.outq = s.outq ++ es ∧ ((∀ e ∈ es, ∃ b, e = .out b) ∨ ∃ v, es = [.rsp v])) ∧
  (∀ s t : State, step s = .next t → (∀ taken moves, s.host ≠ .rst taken :: moves) →
    ∃ es, observed t = observed s ++ es) ∧
  (∀ (s t : State) (taken : Nat) (moves : List HostMove), step s = .next t → s.host = .rst taken :: moves →
    s.seen <+: t.seen ∧ t.seen <+: observed s ∧ t.outq = [])

/-! ## System commands (45_system.md) -/

/-- NOP changes nothing, in every boundary state (R201). -/
def Obligations.NopDoesNothing : Prop :=
  Encoded .nop 0x000000000000#48 .always ∧ ∀ s : State, Boundary s → exec .nop s = .next s

/-- RST gives every item its reset value, in every boundary state; events already emitted stay emitted (R202, R38). -/
def Obligations.RstRestoresReset : Prop :=
  Encoded .rst 0x010000000000#48 .always ∧
  ∀ s : State, Boundary s →
    exec .rst s = .next { State.resetWith s.cfg with host := s.host, outq := s.outq, seen := s.seen }

/-- CLRE in `FAULT` clears `ERR`, `ACC` and `NACC` and returns to `IDLE`, keeping everything else; elsewhere it does
nothing (R203, R221). -/
def Obligations.ClreLeavesFault : Prop :=
  Encoded .clre 0x020000000000#48 .always ∧
  (∀ s : State, s.ph = .fault → exec .clre s = .next { s with
    err := none, acc := if s.cfg.padBit then 0xFF#8 else 0x00#8, nacc := 0, ph := .idle }) ∧
  (∀ s : State, s.ph = .idle ∨ s.ph = .enc ∨ s.ph = .dec → exec .clre s = .next s)

/-- RDS answers the status word of R34 in every boundary state and changes nothing else (R204). -/
def Obligations.RdsAnswersStatus : Prop :=
  Encoded .rds 0x030000000000#48 .always ∧
  ∀ s : State, Boundary s → ∃ v : Response,
    exec .rds s = .next { s with outq := s.outq ++ [.rsp v] } ∧
    v.getLsbD 0 = s.treeValid ∧ v.getLsbD 1 = s.codeValid ∧
    v.extractLsb' 2 2 = (if s.ph = .idle then 0#2 else if s.ph = .enc then 1#2 else if s.ph = .dec then 2#2 else 3#2) ∧
    v.getLsbD 4 = s.decDone ∧ v.getLsbD 5 = s.coll ∧ v.extractLsb' 6 2 = 0#2 ∧ v.extractLsb' 8 3 = s.nacc ∧
    v.getLsbD 11 = false ∧
    v.extractLsb' 12 4 = (match s.err with
      | none => 0#4 | some .eIllcmd => 1#4 | some .eSeq => 2#4 | some .eEmpty => 3#4 | some .eWovf => 4#4
      | some .eNocode => 5#4 | some .eTrunc => 6#4 | some .eMidpath => 7#4 | some .eDegen => 8#4
      | some .eRange => 9#4) ∧
    v.extractLsb' 16 9 = s.root ∧ v.extractLsb' 25 7 = 0#7 ∧ v.extractLsb' 32 9 = s.nleaf ∧ v.extractLsb' 41 23 = 0#23

/-! ## Frequency table (40_frequency_table.md) -/

/-- FCLR gives every weight the floor and the sentinel one more, and writes nothing else (R91). -/
def Obligations.FclrSetsFloor : Prop :=
  Encoded .fclr 0x100000000000#48 .idle ∧ FaultsIn [.enc, .dec] .fclr ∧
  ∀ s : State, s.ph = .idle → ∃ t, exec .fclr s = .next t ∧
    (∀ y : Byte, weightAt t y.toNat = if y = s.cfg.eotSym then 2#32 else 1#32) ∧ { t with w := s.w } = s

/-- FSMP counts its byte, without wrapping: at 2^32 - 1 it raises `E_WOVF` and the weight stays (R92, R97). -/
def Obligations.FsmpCounts : Prop :=
  ∀ x : Byte, Encoded (.fsmp x) (0x11#8 ++ x ++ 0#32) .idle ∧ FaultsIn [.enc, .dec] (.fsmp x) ∧
  ∀ s : State, s.ph = .idle →
    ((weightAt s x.toNat).toNat < 2 ^ 32 - 1 → ∃ t, exec (.fsmp x) s = .next t ∧
      (∀ y : Byte, (weightAt t y.toNat).toNat = (weightAt s y.toNat).toNat + if y = x then 1 else 0) ∧
      { t with w := s.w } = s) ∧
    ((weightAt s x.toNat).toNat = 2 ^ 32 - 1 → exec (.fsmp x) s = .next { s with err := some .eWovf, ph := .fault })

/-- FSCL multiplies every weight by `SCALE` exactly, saturates what does not fit and clamps a zero to 1; all 256 are
written before `E_WOVF` is raised (R93, R97). -/
def Obligations.FsclScales : Prop :=
  Encoded .fscl 0x120000000000#48 .idle ∧ FaultsIn [.enc, .dec] .fscl ∧
  ∀ s : State, s.ph = .idle → ∃ t, exec .fscl s = .next t ∧
    (∀ y : Byte, (weightAt t y.toNat).toNat =
      if 2 ^ 32 - 1 < (weightAt s y.toNat).toNat * s.cfg.scale.toNat then 2 ^ 32 - 1
      else if (weightAt s y.toNat).toNat * s.cfg.scale.toNat = 0 then 1
      else (weightAt s y.toNat).toNat * s.cfg.scale.toNat) ∧
    { t with w := s.w, err := s.err, ph := s.ph } = s ∧
    ((∃ y : Byte, 2 ^ 32 - 1 < (weightAt s y.toNat).toNat * s.cfg.scale.toNat) →
      t.err = some .eWovf ∧ t.ph = .fault) ∧
    ((∀ y : Byte, (weightAt s y.toNat).toNat * s.cfg.scale.toNat ≤ 2 ^ 32 - 1) → t.err = s.err ∧ t.ph = .idle)

/-- WRW writes one weight and nothing else (R94). -/
def Obligations.WrwWritesWeight : Prop :=
  ∀ (x : Byte) (d : Weight), Encoded (.wrw x d) (0x13#8 ++ x ++ d) .idle ∧ FaultsIn [.enc, .dec] (.wrw x d) ∧
  ∀ s : State, s.ph = .idle → ∃ t, exec (.wrw x d) s = .next t ∧
    (∀ y : Byte, weightAt t y.toNat = if y = x then d else weightAt s y.toNat) ∧ { t with w := s.w } = s

/-- RDW answers one weight in every boundary state and changes nothing else (R95). -/
def Obligations.RdwAnswersWeight : Prop :=
  ∀ x : Byte, Encoded (.rdw x) (0x14#8 ++ x ++ 0#32) .always ∧
  ∀ s : State, Boundary s → ∃ v : Response,
    exec (.rdw x) s = .next { s with outq := s.outq ++ [.rsp v] } ∧
    v.extractLsb' 0 32 = weightAt s x.toNat ∧ v.extractLsb' 32 32 = 0#32

/-- The closed form of `FTBL` over a sample, when no `E_WOVF` was raised (R96): floor, count and the sentinel's extra
count, times the scale factor, a zero clamped to 1. -/
def Obligations.FtblClosedForm : Prop :=
  ∀ (sample : List Byte) (s : State), s.ph = .idle →
    ∃ t, execAll (Pseudo.ftbl sample).expand s = .next t ∧
      (t.ph = .idle → ∀ y : Byte, (weightAt t y.toNat).toNat =
        if (1 + sample.count y + if y = s.cfg.eotSym then 1 else 0) * s.cfg.scale.toNat = 0 then 1
        else (1 + sample.count y + if y = s.cfg.eotSym then 1 else 0) * s.cfg.scale.toNat)

/-! ## Tree builder (41_tree_builder.md) -/

/-- The queue gives the least member by weight and then index, and loses that member alone (R111, R112). -/
def Obligations.QueueGivesLeast : Prop :=
  ∀ s : State, s.pq ≠ [] → 511#9 ∉ s.pq →
    ∃ m ∈ s.pq, (∀ j ∈ s.pq, j ≠ m → Lighter s m.toNat j.toNat) ∧
      ∀ f : NodeIndex → State → Answer, withMin s f = f m { s with pq := s.pq.filter fun j => decide (j ≠ m) }

/-- BUILD of a table of zeros raises `E_EMPTY` and leaves the state R126 describes. -/
def Obligations.BuildOfEmptyTable : Prop :=
  ∀ s : State, s.ph = .idle → (∀ y : Byte, weightAt s y.toNat = 0) →
    ∃ t, exec .build s = .next t ∧ t.ph = .fault ∧ t.err = some .eEmpty ∧
      t.treeValid = false ∧ t.codeValid = false ∧ t.nleaf = 0 ∧ t.nextNode = 256#9 ∧ t.li = 256#9 ∧ t.pq = [] ∧
      (∀ y : Byte, nodeAt t y.toNat = { w := 0, l := 0, r := 0 }) ∧
      (∀ i, 256 ≤ i → nodeAt t i = nodeAt s i) ∧
      { t with ph := s.ph, err := s.err, treeValid := s.treeValid, codeValid := s.codeValid, nleaf := s.nleaf,
               nextNode := s.nextNode, li := s.li, pq := s.pq, node := s.node } = s

/-- BUILD of a table with a non-zero weight answers in `IDLE` with a valid tree, whatever the state held before: the leaf
entries are a snapshot of `W`, and the tree has the shape of R128 and the weights of R127. -/
def Obligations.BuildMakesTree : Prop :=
  Encoded .build 0x200000000000#48 .idle ∧ FaultsIn [.enc, .dec] .build ∧
  ∀ s : State, s.ph = .idle → (∃ y : Byte, weightAt s y.toNat ≠ 0) →
    ∃ t, exec .build s = .next t ∧ t.ph = .idle ∧ t.treeValid = true ∧ t.codeValid = false ∧ t.pq = [] ∧
      t.li = 256#9 ∧ t.nleaf.toNat = weightCount s ∧
      (∀ y : Byte, nodeAt t y.toNat = { w := (weightAt s y.toNat).setWidth 40, l := 0, r := 0 }) ∧
      TreeShape t ∧
      (∀ i, t.nextNode.toNat ≤ i → nodeAt t i = nodeAt s i) ∧
      { t with ph := s.ph, treeValid := s.treeValid, codeValid := s.codeValid, root := s.root, nleaf := s.nleaf,
               nextNode := s.nextNode, li := s.li, a := s.a, b := s.b, pq := s.pq, node := s.node } = s

/-- Every internal node BUILD makes merges the two trees that came first in the order by weight and then index, the first
as its right child and the second as its left (R113, R118, R120, R121). -/
def Obligations.BuildMergesLeastTwo : Prop :=
  ∀ s t : State, s.ph = .idle → exec .build s = .next t → t.treeValid = true →
    ∀ k, 256 ≤ k → k < t.nextNode.toNat → MergesLeastTwo t k

/-- Every internal node's weight is the exact sum of its children's, and the root's is the exact sum of the 256 weights
BUILD started with (R127, R131). -/
def Obligations.BuildConservesWeight : Prop :=
  ∀ s t : State, s.ph = .idle → exec .build s = .next t → t.treeValid = true →
    (∀ k, 256 ≤ k → k < t.nextNode.toNat → (nodeAt t k).w.toNat =
      (nodeAt t (nodeAt t k).l.toNat).w.toNat + (nodeAt t (nodeAt t k).r.toNat).w.toNat) ∧
    (nodeAt t t.root.toNat).w.toNat = weightSum s

/-- BUILD is a function of `W` alone, whatever ran before (R130): equal weights give equal trees. The premise that a tree was
built is the model's reading: on an empty table `ROOT` is unchanged (R126), so not a function of `W`. -/
def Obligations.BuildDependsOnWeightsAlone : Prop :=
  ∀ s s' t t' : State, s.ph = .idle → s'.ph = .idle → (∀ y : Byte, weightAt s y.toNat = weightAt s' y.toNat) →
    exec .build s = .next t → exec .build s' = .next t' → t.treeValid = true →
      t'.treeValid = true ∧ t.root = t'.root ∧ t.nextNode = t'.nextNode ∧ t.nleaf = t'.nleaf ∧
      ∀ i < t.nextNode.toNat, nodeAt t i = nodeAt t' i

/-- If exactly one weight is not zero, BUILD makes the one-node tree of its symbol and no internal node (R125). -/
def Obligations.BuildOfSingleWeight : Prop :=
  ∀ (x : Byte) (s : State), s.ph = .idle → weightAt s x.toNat ≠ 0 → (∀ y : Byte, y ≠ x → weightAt s y.toNat = 0) →
    ∃ t, exec .build s = .next t ∧ t.ph = .idle ∧ t.treeValid = true ∧ t.root = leafOf x ∧ t.nextNode = 256#9 ∧
      t.nleaf = 1 ∧ ∀ i, 256 ≤ i → nodeAt t i = nodeAt s i

/-- The merge FSM refines BUILD (R124): from the accepted command it is busy for the steps R124 counts and then stands in
the state of the command as a whole. -/
def Obligations.FsmRefinesBuild : Prop :=
  ∀ s : State, s.ph = .idle →
    (∀ k < buildSteps (weightCount s), ∃ t, repeatOp fsmStep k (buildStart s) = .next t ∧ ¬ Boundary t) ∧
    repeatOp fsmStep (buildSteps (weightCount s)) (buildStart s) = exec .build s

/-- The transition tables of the FSM (R119, 42_code_deriver.md R145): what each busy state goes to, and the `ERR` of the
one fault. -/
def Obligations.FsmTransitions : Prop :=
  ∀ s t : State, fsmStep s = .next t →
    (s.ph = .tbLoad → t.ph = (if s.li = 255#9 then .tbXa else .tbLoad) ∧ t.li = s.li + 1) ∧
    (s.ph = .tbXa → s.pq = [] → t.ph = .fault ∧ t.err = some .eEmpty) ∧
    (s.ph = .tbXa → s.pq ≠ [] → t.ph = .tbChk ∧ t.a ∈ s.pq) ∧
    (s.ph = .tbChk → s.pq = [] → t.ph = .idle ∧ t.root = s.a ∧ t.treeValid = true) ∧
    (s.ph = .tbChk → s.pq ≠ [] → t.ph = .tbXb) ∧
    (s.ph = .tbXb → t.ph = .tbMerge ∧ t.b ∈ s.pq) ∧
    (s.ph = .tbMerge → t.ph = .tbXa ∧ t.nextNode = s.nextNode + 1 ∧ s.nextNode ∈ t.pq ∧
      (nodeAt t s.nextNode.toNat).l = s.b ∧ (nodeAt t s.nextNode.toNat).r = s.a) ∧
    (s.ph = .cdVisit → isLeaf s.cn = true → t.ph = .cdPop ∧
      codeAt t (symOf s.cn) = { valid := true, len := s.cdep, bits := s.path }) ∧
    (s.ph = .cdVisit → isLeaf s.cn = false → t.ph = .cdVisit ∧ t.cn = (nodeAt s s.cn.toNat).l ∧ t.sp = s.sp + 1 ∧
      stackAt t s.sp.toNat = { node := (nodeAt s s.cn.toNat).r, dep := s.cdep }) ∧
    (s.ph = .cdPop → s.sp = 0#8 → t.ph = .idle ∧ t.codeValid = true) ∧
    (s.ph = .cdPop → s.sp ≠ 0#8 → t.ph = .cdVisit ∧ t.sp = s.sp - 1 ∧ t.cn = (stackAt s (s.sp - 1).toNat).node)

/-- RDN answers a node in every boundary state and changes nothing else; index 511 raises `E_RANGE` and in `FAULT` does
nothing (R133). -/
def Obligations.RdnAnswersNode : Prop :=
  ∀ x : NodeIndex, Encoded (.rdn x) (0x21#8 ++ 0#31 ++ x) .always ∧
  ∀ s : State, Boundary s →
    (x ≠ 511#9 → ∃ v : Response, exec (.rdn x) s = .next { s with outq := s.outq ++ [.rsp v] } ∧
      v.extractLsb' 0 40 = (nodeAt s x.toNat).w ∧ v.extractLsb' 40 9 = (nodeAt s x.toNat).l ∧
      v.extractLsb' 49 9 = (nodeAt s x.toNat).r ∧ v.getLsbD 58 = decide (x.toNat < 256) ∧ v.extractLsb' 59 5 = 0#5) ∧
    (x = 511#9 → s.ph ≠ .fault → exec (.rdn x) s = .next { s with err := some .eRange, ph := .fault }) ∧
    (x = 511#9 → s.ph = .fault → exec (.rdn x) s = .next s)

/-! ## Code deriver (42_code_deriver.md) -/

/-- DERIVE on a valid tree answers in `IDLE` with the code table of that tree (R141, R147), and writes only `CODE`,
`CODE_VALID` and the scratch of the traversal (10_state.md R36); without a valid tree it raises `E_SEQ` and does nothing
else. -/
def Obligations.DeriveMakesCodeTable : Prop :=
  Encoded .derive 0x300000000000#48 .idle ∧ FaultsIn [.enc, .dec] .derive ∧
  (∀ s : State, s.ph = .idle → s.treeValid = false →
    exec .derive s = .next { s with err := some .eSeq, ph := .fault }) ∧
  ∀ s : State, s.ph = .idle → s.treeValid = true → TreeShape s →
    ∃ t, exec .derive s = .next t ∧ t.codeValid = true ∧ t.sp = 0 ∧ CodeTable t ∧
      { t with code := s.code, codeValid := s.codeValid, cn := s.cn, cdep := s.cdep, sp := s.sp, path := s.path,
               stk := s.stk } = s

/-- The traversal FSM refines DERIVE (R150): busy for `3n - 1` steps and then in the state of the command as a whole. -/
def Obligations.FsmRefinesDerive : Prop :=
  ∀ s : State, s.ph = .idle → s.treeValid = true → TreeShape s →
    (∀ k < deriveSteps s.nleaf.toNat, ∃ t, repeatOp fsmStep k (deriveStart s) = .next t ∧ ¬ Boundary t) ∧
    repeatOp fsmStep (deriveSteps s.nleaf.toNat) (deriveStart s) = exec .derive s

/-- In a tree of the shape of R128 a path from the root is at most `NLEAF - 1` long (R129, R148), and no two paths arrive
at one node (R147). -/
def Obligations.TreePathsBoundedAndUnique : Prop :=
  ∀ (s : State) (p q : List Bool) (i : NodeIndex), TreeShape s → walk s s.root p = some i →
    p.length ≤ s.nleaf.toNat - 1 ∧ (walk s s.root q = some i → p = q)

/-- No code of a code table is a prefix of another symbol's code (R151). -/
def Obligations.CodesPrefixFree : Prop :=
  ∀ (s : State) (x y : Byte), CodeTable s → (codeAt s x).valid = true → (codeAt s y).valid = true → x ≠ y →
    ¬ codeBits (codeAt s x) <+: codeBits (codeAt s y)

/-- RDL answers a code's validity and length in every boundary state and changes nothing else (R152). -/
def Obligations.RdlAnswersLength : Prop :=
  ∀ x : Byte, Encoded (.rdl x) (0x31#8 ++ x ++ 0#32) .always ∧
  ∀ s : State, Boundary s → ∃ v : Response,
    exec (.rdl x) s = .next { s with outq := s.outq ++ [.rsp v] } ∧
    v.extractLsb' 0 8 = (codeAt s x).len ∧ v.getLsbD 8 = (codeAt s x).valid ∧ v.extractLsb' 9 55 = 0#55

/-- RDC answers 64 bits of a code in every boundary state and changes nothing else: bit `k` is code bit `64q + k`, and
bit 255 of a code does not exist (R153, 20_memory.md R57). -/
def Obligations.RdcAnswersChunk : Prop :=
  ∀ (x : Byte) (q : BitVec 2), Encoded (.rdc x q) (0x32#8 ++ x ++ 0#30 ++ q) .always ∧
  ∀ s : State, Boundary s → ∃ v : Response,
    exec (.rdc x q) s = .next { s with outq := s.outq ++ [.rsp v] } ∧
    ∀ k < 64, v.getLsbD k = if 64 * q.toNat + k < 255 then (codeAt s x).bits.getLsbD (64 * q.toNat + k) else false

/-! ## Bit packer (43_bit_packer.md) -/

/-- ENCS opens an encode session when there is a code table with a code of the sentinel; it raises `E_SEQ` without a code
table and `E_NOCODE` when the sentinel has no code (R161). -/
def Obligations.EncsOpensSession : Prop :=
  Encoded .encs 0x400000000000#48 .idle ∧ FaultsIn [.enc, .dec] .encs ∧
  (∀ s : State, s.ph = .idle → s.codeValid = false →
    exec .encs s = .next { s with err := some .eSeq, ph := .fault }) ∧
  ∀ s : State, s.ph = .idle → s.codeValid = true →
    ((codeAt s s.cfg.eotSym).valid = true → exec .encs s = .next { s with
      acc := if s.cfg.padBit then 0xFF#8 else 0x00#8, nacc := 0, coll := false, ph := .enc }) ∧
    ((codeAt s s.cfg.eotSym).valid = false → exec .encs s = .next { s with err := some .eNocode, ph := .fault })

/-- `pushbit` puts the bit at the next position of `ACC` and lets the byte go when it is full (R164). -/
def Obligations.PushBitFillsByte : Prop :=
  ∀ (s : State) (v : Bool),
    (s.nacc.toNat < 7 → ∃ x : Byte, pushBit s v = { s with acc := x, nacc := s.nacc + 1 } ∧
      ∀ m < 8, x.getLsbD m = if m = (if s.cfg.bitOrder = .msbFirst then 7 - s.nacc.toNat else s.nacc.toNat) then v
        else s.acc.getLsbD m) ∧
    (s.nacc.toNat = 7 → ∃ x : Byte, pushBit s v = { s with
        acc := if s.cfg.padBit then 0xFF#8 else 0x00#8, nacc := 0, outq := s.outq ++ [.out x] } ∧
      ∀ m < 8, x.getLsbD m = if m = (if s.cfg.bitOrder = .msbFirst then 0 else 7) then v else s.acc.getLsbD m)

/-- ENCB appends the code of its byte to the waiting bits: full bytes leave, the rest waits, and a byte equal to the
sentinel sets `COLL`; without a code it raises `E_NOCODE` before any bit (R162, R164, R169). -/
def Obligations.EncbPacksCode : Prop :=
  ∀ x : Byte, Encoded (.encb x) (0x41#8 ++ x ++ 0#32) .enc ∧ FaultsIn [.idle, .dec] (.encb x) ∧
  ∀ s : State, s.ph = .enc → PadOk s →
    ((codeAt s x).valid = true → ∃ t, exec (.encb x) s = .next t ∧
      t.outq = s.outq ++ (packBytes s.cfg (waitingBits s ++ codeBits (codeAt s x))
        ((s.nacc.toNat + (codeAt s x).len.toNat) / 8)).map .out ∧
      t.nacc.toNat = (s.nacc.toNat + (codeAt s x).len.toNat) % 8 ∧
      waitingBits t = (waitingBits s ++ codeBits (codeAt s x)).drop (8 * ((s.nacc.toNat + (codeAt s x).len.toNat) / 8)) ∧
      PadOk t ∧ t.coll = (s.coll || decide (x = s.cfg.eotSym)) ∧
      { t with outq := s.outq, nacc := s.nacc, acc := s.acc, coll := s.coll } = s) ∧
    ((codeAt s x).valid = false → exec (.encb x) s = .next { s with err := some .eNocode, ph := .fault })

/-- ENCE appends the sentinel's code, lets every byte begun go with its unused positions at `PAD_BIT`, and closes the
session (R163). -/
def Obligations.EnceClosesSession : Prop :=
  Encoded .ence 0x420000000000#48 .enc ∧ FaultsIn [.idle, .dec] .ence ∧
  ∀ s : State, s.ph = .enc → PadOk s →
    exec .ence s = .next { s with
      ph := .idle, acc := if s.cfg.padBit then 0xFF#8 else 0x00#8, nacc := 0,
      outq := s.outq ++ (packBytes s.cfg (waitingBits s ++ codeBits (codeAt s s.cfg.eotSym))
        ((s.nacc.toNat + (codeAt s s.cfg.eotSym).len.toNat + 7) / 8)).map .out }

/-- The packed stream of an encode session is the codes of the data and of the sentinel, padded and cut into bytes
(R166, R167). -/
def Obligations.EncodeSessionPacks : Prop :=
  ∀ (data : List Byte) (s : State), s.ph = .idle → s.codeValid = true → (codeAt s s.cfg.eotSym).valid = true →
    (∀ x ∈ data, (codeAt s x).valid = true) →
    execAll (Pseudo.encode data).expand s = .next { s with
      acc := if s.cfg.padBit then 0xFF#8 else 0x00#8, nacc := 0, coll := decide (s.cfg.eotSym ∈ data),
      outq := s.outq ++ (packedStream s data).map .out }

/-! ## Bit unpacker (44_bit_unpacker.md) -/

/-- DECS opens a decode session on a valid tree, done at once on the one-leaf tree of the sentinel; it raises `E_SEQ`
without a valid tree and `E_DEGEN` on the one-leaf tree of another symbol (R181, R182). -/
def Obligations.DecsOpensSession : Prop :=
  Encoded .decs 0x500000000000#48 .idle ∧ FaultsIn [.enc, .dec] .decs ∧
  (∀ s : State, s.ph = .idle → s.treeValid = false →
    exec .decs s = .next { s with err := some .eSeq, ph := .fault }) ∧
  ∀ s : State, s.ph = .idle → s.treeValid = true →
    (256 ≤ s.root.toNat → exec .decs s = .next { s with decDone := false, cur := s.root, ph := .dec }) ∧
    (s.root.toNat = s.cfg.eotSym.toNat → exec .decs s = .next { s with decDone := true, cur := s.root, ph := .dec }) ∧
    (s.root.toNat < 256 → s.root.toNat ≠ s.cfg.eotSym.toNat →
      exec .decs s = .next { s with err := some .eDegen, ph := .fault })

/-- DECB walks the eight bits of its byte from `CUR`, writing a byte at each leaf but the sentinel; after the sentinel
every bit is discarded (R183, R185, R186). -/
def Obligations.DecbWalksByte : Prop :=
  ∀ x : Byte, Encoded (.decb x) (0x51#8 ++ x ++ 0#32) .dec ∧ FaultsIn [.idle, .enc] (.decb x) ∧
  ∀ s : State, s.ph = .dec →
    (s.decDone = true → exec (.decb x) s = .next s) ∧
    (s.decDone = false → TreeShape s → InTree s s.cur.toNat → 256 ≤ s.cur.toNat →
      exec (.decb x) s = .next { s with
        cur := (decodeBits s s.cur (streamBits s.cfg.bitOrder x)).cur,
        decDone := (decodeBits s s.cur (streamBits s.cfg.bitOrder x)).done,
        outq := s.outq ++ (decodeBits s s.cur (streamBits s.cfg.bitOrder x)).out.map .out })

/-- DECE closes the session after the sentinel; without it, it raises `E_MIDPATH` inside a code and `E_TRUNC` between
codes (R184, R189). -/
def Obligations.DeceClosesSession : Prop :=
  Encoded .dece 0x520000000000#48 .dec ∧ FaultsIn [.idle, .enc] .dece ∧
  ∀ s : State, s.ph = .dec →
    (s.decDone = true → exec .dece s = .next { s with ph := .idle }) ∧
    (s.decDone = false → s.cur ≠ s.root → exec .dece s = .next { s with err := some .eMidpath, ph := .fault }) ∧
    (s.decDone = false → s.cur = s.root → exec .dece s = .next { s with err := some .eTrunc, ph := .fault })

/-- A decode session over packed bytes writes `dec` of them and ends in `IDLE` after the sentinel and in `FAULT` with
`E_MIDPATH` or `E_TRUNC` otherwise; where the bytes are cut does not matter (R191). -/
def Obligations.DecodeSessionWalks : Prop :=
  ∀ (packed : List Byte) (s : State), s.ph = .idle → s.treeValid = true → TreeShape s → 256 ≤ s.root.toNat →
    ((decodeBits s s.root (bytesBits s packed)).done = true →
      execAll (Pseudo.decode packed).expand s = .next { s with
        decDone := true, cur := s.root,
        outq := s.outq ++ (decodeBits s s.root (bytesBits s packed)).out.map .out }) ∧
    ((decodeBits s s.root (bytesBits s packed)).done = false →
      execAll (Pseudo.decode packed).expand s = .next { s with
        decDone := false, cur := (decodeBits s s.root (bytesBits s packed)).cur,
        err := some (if (decodeBits s s.root (bytesBits s packed)).cur = s.root then .eTrunc else .eMidpath),
        ph := .fault,
        outq := s.outq ++ (decodeBits s s.root (bytesBits s packed)).out.map .out })

/-- The output and the final state of a decode session over a packed stream do not depend on the padding bits nor on
bytes after the last: any packed bytes whose bits begin with the session's bits give the data up to the first sentinel
byte (R188, R169). -/
def Obligations.PaddingDoesNotMatter : Prop :=
  ∀ (data packed : List Byte) (s : State), s.ph = .idle → s.treeValid = true → TreeShape s → CodeTable s →
    (codeAt s s.cfg.eotSym).valid = true → (∀ x ∈ data, (codeAt s x).valid = true) →
    bitsOf s data <+: bytesBits s packed →
    execAll (Pseudo.decode packed).expand s = .next { s with
      decDone := true, cur := s.root,
      outq := s.outq ++ (data.takeWhile fun x => decide (x ≠ s.cfg.eotSym)).map .out }

/-- The round trip (R187): what BUILD, DERIVE and an encode session pack, BUILD and a decode session on any core with
the same weights and parameters unpack, up to the first sentinel byte, and no fault is raised on either side. -/
def Obligations.RoundTrip : Prop :=
  ∀ (data : List Byte) (s u : State), s.ph = .idle → u.ph = .idle → u.cfg = s.cfg →
    (∀ y : Byte, weightAt u y.toNat = weightAt s y.toNat) →
    weightAt s s.cfg.eotSym.toNat ≠ 0 → (∀ x ∈ data, weightAt s x.toNat ≠ 0) →
    ∃ (packed : List Byte) (t v : State),
      execAll ([.build, .derive] ++ (Pseudo.encode data).expand) s = .next t ∧ t.ph = .idle ∧ t.err = s.err ∧
      t.outq = s.outq ++ packed.map .out ∧
      execAll ([.build] ++ (Pseudo.decode packed).expand) u = .next v ∧ v.ph = .idle ∧ v.err = u.err ∧
      v.outq = u.outq ++ (data.takeWhile fun x => decide (x ≠ s.cfg.eotSym)).map .out

/-! ## Invariants (10_state.md R37) -/

/-- The invariants hold after reset, for every value of the parameters. -/
def Obligations.InvAtReset : Prop := ∀ c : Config, Inv (State.resetWith c)

/-- Every step, from a busy state too, keeps the memories in their canonical form: the model's representation of
20_memory.md R51 and 10_state.md R31 (log entries 6 and 16). -/
def Obligations.CanonicalKept : Prop := ∀ s t : State, Canonical s → step s = .next t → Canonical t

/-- Every step keeps the parameters (00_scope.md R12); that they are a field of the state is the model's choice (log entry
2). -/
def Obligations.ParametersFixed : Prop := ∀ s t : State, step s = .next t → t.cfg = s.cfg

/-- Every step from a state with the invariants keeps R37 (a) to (e). -/
def Obligations.RegistersKept : Prop := ∀ s t : State, Inv s → step s = .next t → RegistersOk t

/-- Every step from a state with the invariants keeps R37 (f) and (h): the tree while `TREE_VALID`, the code table while
`CODE_VALID`. -/
def Obligations.TablesKept : Prop :=
  ∀ s t : State, Inv s → step s = .next t → (t.treeValid = true → TreeShape t) ∧ (t.codeValid = true → CodeTable t)

/-- Every step from a state with the invariants keeps what an open session relies on, R37 (g) among it. -/
def Obligations.SessionKept : Prop := ∀ s t : State, Inv s → step s = .next t → SessionOk t

/-- No step from a state with the invariants stops in a fault or a refusal of the model (log entries 7 to 10): every
command terminates and every index it uses exists (70_reset_and_hazards.md R255, 42_code_deriver.md R148, 44_bit_unpacker.md R192). -/
def Obligations.NoStepStops : Prop := ∀ s : State, Inv s → ∃ t, step s = .next t
end

