-- ==== Sys2Proof/Laws/Memory.lean ====
section
/-! SUPPORT. The laws of the indexed memories: what a read gives after a write, and that every operation keeps the
canonical form. -/

namespace Sys2Proof.Machine

variable {α : Type} {d v : α} {m : Memory α} {i j n : Nat}

@[simp] theorem Memory.read_nil (d : α) (i : Nat) : Memory.read d [] i = d := rfl

theorem Memory.read_cons (d : α) (k : Nat) (u : α) (m : Memory α) (i : Nat) :
    Memory.read d ((k, u) :: m) i = if k = i then u else Memory.read d m i := rfl

/-- An index that is not listed reads as the reset entry. -/
theorem Memory.read_absent (h : ∀ c ∈ m, c.1 ≠ i) : Memory.read d m i = d := by
  induction m with
  | nil => rfl
  | cons c m ih =>
    obtain ⟨k, u⟩ := c
    have hk : k ≠ i := h (k, u) (by simp)
    rw [Memory.read_cons, if_neg hk]
    exact ih fun c hc => h c (by simp [hc])

/-- A listed entry is what the memory reads, where indices do not repeat. -/
theorem Memory.read_listed (hp : m.Pairwise fun x y => x.1 < y.1) (h : (i, v) ∈ m) : Memory.read d m i = v := by
  induction m with
  | nil => simp at h
  | cons c m ih =>
    obtain ⟨k, u⟩ := c
    rw [List.pairwise_cons] at hp
    rcases List.mem_cons.1 h with h | h
    · cases h
      simp [Memory.read_cons]
    · have := hp.1 _ h
      rw [Memory.read_cons, if_neg (by simp at this; omega)]
      exact ih hp.2 h

theorem Memory.read_erase (d : α) (m : Memory α) (i j : Nat) :
    Memory.read d (m.erase i) j = if i = j then d else Memory.read d m j := by
  induction m with
  | nil => simp [Memory.erase]
  | cons c m ih =>
    obtain ⟨k, u⟩ := c
    by_cases hk : k = i
    · have : Memory.erase ((k, u) :: m) i = Memory.erase m i := by simp [Memory.erase, hk]
      rw [this, ih, Memory.read_cons]
      by_cases hij : i = j <;> simp_all
    · have : Memory.erase ((k, u) :: m) i = (k, u) :: Memory.erase m i := by simp [Memory.erase, hk]
      rw [this, Memory.read_cons, Memory.read_cons, ih]
      split <;> split <;> simp_all

theorem Memory.mem_erase {c : Nat × α} : c ∈ m.erase i ↔ c ∈ m ∧ c.1 ≠ i := by simp [Memory.erase]

theorem Memory.read_insert (d : α) (h : ∀ c ∈ m, c.1 ≠ i) :
    Memory.read d (Memory.insert i v m) j = if i = j then v else Memory.read d m j := by
  induction m with
  | nil => rfl
  | cons c m ih =>
    obtain ⟨k, u⟩ := c
    have hk : k ≠ i := h (k, u) (by simp)
    unfold Memory.insert
    split
    · rfl
    · rw [Memory.read_cons, Memory.read_cons, ih fun c hc => h c (by simp [hc])]
      split <;> split <;> simp_all

/-- A read after a write (20_memory.md R51): the entry written, and every other entry as before. -/
theorem Memory.read_write [DecidableEq α] (d : α) (m : Memory α) (i j : Nat) (v : α) :
    Memory.read d (Memory.write d m i v) j = if i = j then v else Memory.read d m j := by
  unfold Memory.write
  split
  · rw [Memory.read_erase]
    split <;> simp_all
  · rw [Memory.read_insert d (by simp [Memory.mem_erase]), Memory.read_erase]
    split <;> simp_all

@[simp] theorem Memory.read_write_same [DecidableEq α] : Memory.read d (Memory.write d m i v) i = v := by
  simp [Memory.read_write]

theorem Memory.read_write_other [DecidableEq α] (h : i ≠ j) :
    Memory.read d (Memory.write d m i v) j = Memory.read d m j := by
  simp [Memory.read_write, h]

theorem Memory.mem_fill [DecidableEq α] {f : Nat → α} {c : Nat × α} :
    c ∈ Memory.fill d n f ↔ c.1 < n ∧ c.2 = f c.1 ∧ c.2 ≠ d := by
  obtain ⟨k, u⟩ := c
  simp only [Memory.fill, List.mem_filter, List.mem_map, List.mem_range, decide_eq_true_eq]
  constructor
  · rintro ⟨⟨k', hk, he⟩, hd⟩
    cases he
    exact ⟨hk, rfl, hd⟩
  · rintro ⟨hk, he, hd⟩
    exact ⟨⟨k, hk, by simp_all⟩, hd⟩

theorem Memory.fill_rising [DecidableEq α] (d : α) (n : Nat) (f : Nat → α) :
    (Memory.fill d n f).Pairwise fun x y => x.1 < y.1 := by
  unfold Memory.fill
  refine List.Pairwise.filter _ ?_
  rw [List.pairwise_map]
  exact List.pairwise_lt_range

/-- What a memory written whole reads as. -/
theorem Memory.read_fill [DecidableEq α] (d : α) (n : Nat) (f : Nat → α) (i : Nat) :
    Memory.read d (Memory.fill d n f) i = if i < n then f i else d := by
  by_cases h : i < n ∧ f i ≠ d
  · rw [Memory.read_listed (v := f i) (Memory.fill_rising d n f) (Memory.mem_fill.2 ⟨h.1, rfl, h.2⟩), if_pos h.1]
  · rw [Memory.read_absent]
    · split <;> simp_all
    · intro c hc hi
      obtain ⟨h1, h2, h3⟩ := Memory.mem_fill.1 hc
      subst hi
      exact h ⟨h1, h2 ▸ h3⟩

/-! ## The canonical form -/

variable {size : Nat}

theorem Memory.wf_nil (size : Nat) (d : α) : Memory.wf size d [] := by simp [Memory.wf]

theorem Memory.wf_fill [DecidableEq α] (d : α) (n : Nat) (f : Nat → α) : Memory.wf n d (Memory.fill d n f) :=
  ⟨Memory.fill_rising d n f, fun _ hc => ⟨(Memory.mem_fill.1 hc).1, (Memory.mem_fill.1 hc).2.2⟩⟩

theorem Memory.wf_erase (h : Memory.wf size d m) (i : Nat) : Memory.wf size d (m.erase i) :=
  ⟨h.1.filter _, fun c hc => h.2 c (Memory.mem_erase.1 hc).1⟩

theorem Memory.mem_insert {c : Nat × α} : c ∈ Memory.insert i v m ↔ c = (i, v) ∨ c ∈ m := by
  induction m with
  | nil => simp [Memory.insert]
  | cons e m ih =>
    obtain ⟨k, u⟩ := e
    unfold Memory.insert
    split
    · simp
    · simp [ih]
      tauto

theorem Memory.insert_rising (hp : m.Pairwise fun x y => x.1 < y.1) (h : ∀ c ∈ m, c.1 ≠ i) :
    (Memory.insert i v m).Pairwise fun x y => x.1 < y.1 := by
  induction m with
  | nil => simp [Memory.insert]
  | cons e m ih =>
    obtain ⟨k, u⟩ := e
    have hk : k ≠ i := h (k, u) (by simp)
    rw [List.pairwise_cons] at hp
    unfold Memory.insert
    split
    · rename_i hlt
      refine List.pairwise_cons.2 ⟨fun c hc => ?_, List.pairwise_cons.2 hp⟩
      rcases List.mem_cons.1 hc with hc | hc
      · simpa [hc] using hlt
      · have := hp.1 c hc
        simp at this ⊢
        omega
    · refine List.pairwise_cons.2 ⟨fun c hc => ?_, ih hp.2 fun c hc => h c (by simp [hc])⟩
      rcases Memory.mem_insert.1 hc with hc | hc
      · simp [hc]
        omega
      · exact hp.1 c hc

/-- A write keeps the canonical form. -/
theorem Memory.wf_write [DecidableEq α] (h : Memory.wf size d m) (hi : i < size) (v : α) : Memory.wf size d (Memory.write d m i v) := by
  unfold Memory.write
  split
  · exact Memory.wf_erase h i
  · rename_i hv
    have he := Memory.wf_erase h i
    refine ⟨Memory.insert_rising he.1 fun c hc => (Memory.mem_erase.1 hc).2, fun c hc => ?_⟩
    rcases Memory.mem_insert.1 hc with hc | hc
    · simp [hc, hi, hv]
    · exact he.2 c hc

/-- A listed entry of a canonical memory, by what the memory reads. -/
theorem Memory.mem_iff_read (h : Memory.wf size d m) : (i, v) ∈ m ↔ Memory.read d m i = v ∧ v ≠ d := by
  constructor
  · exact fun hm => ⟨Memory.read_listed h.1 hm, (h.2 _ hm).2⟩
  · rintro ⟨hr, hv⟩
    by_contra hn
    refine hv (hr.symm.trans (Memory.read_absent fun c hc hi => hn ?_))
    obtain ⟨k, u⟩ := c
    simp at hi
    subst hi
    rw [Memory.read_listed h.1 hc] at hr
    exact hr ▸ hc

/-- Canonical memories that read alike are equal. -/
theorem Memory.ext_of_read {m' : Memory α} (h : Memory.wf size d m) (h' : Memory.wf size d m')
    (hr : ∀ i, Memory.read d m i = Memory.read d m' i) : m = m' := by
  have hmem : ∀ c, c ∈ m ↔ c ∈ m' := fun ⟨i, v⟩ => by
    rw [Memory.mem_iff_read h, Memory.mem_iff_read h', hr]
  have nd : ∀ {l : Memory α}, l.Pairwise (fun x y => x.1 < y.1) → l.Nodup := fun hl =>
    hl.imp fun {x y} hxy he => by simp [he] at hxy
  exact ((List.perm_ext_iff_of_nodup (nd h.1) (nd h'.1)).2 hmem).eq_of_pairwise
    (fun a b _ _ hab hba => by omega) h.1 h'.1

end Sys2Proof.Machine
end

