-- ==== Sys2Proof/Laws/State.lean ====
section
/-! SUPPORT. What each named update of the state does to each field. A lemma here is a conjunction with one equation a
field; `simp` uses each equation by itself. -/

namespace Sys2Proof.Machine

/-- `W[x] <- v` writes `W` alone. -/
@[simp] theorem setWeight_fields (x : Byte) (v : Weight) (s : State) :
    (setWeight x v s).ph = s.ph ∧
    (setWeight x v s).err = s.err ∧
    (setWeight x v s).treeValid = s.treeValid ∧
    (setWeight x v s).codeValid = s.codeValid ∧
    (setWeight x v s).decDone = s.decDone ∧
    (setWeight x v s).coll = s.coll ∧
    (setWeight x v s).root = s.root ∧
    (setWeight x v s).nleaf = s.nleaf ∧
    (setWeight x v s).nextNode = s.nextNode ∧
    (setWeight x v s).li = s.li ∧
    (setWeight x v s).a = s.a ∧
    (setWeight x v s).b = s.b ∧
    (setWeight x v s).cn = s.cn ∧
    (setWeight x v s).cdep = s.cdep ∧
    (setWeight x v s).sp = s.sp ∧
    (setWeight x v s).path = s.path ∧
    (setWeight x v s).cur = s.cur ∧
    (setWeight x v s).acc = s.acc ∧
    (setWeight x v s).nacc = s.nacc ∧
    (setWeight x v s).w = Memory.write 0 s.w x.toNat v ∧
    (setWeight x v s).node = s.node ∧
    (setWeight x v s).pq = s.pq ∧
    (setWeight x v s).code = s.code ∧
    (setWeight x v s).stk = s.stk ∧
    (setWeight x v s).cfg = s.cfg ∧
    (setWeight x v s).host = s.host ∧
    (setWeight x v s).outq = s.outq ∧
    (setWeight x v s).seen = s.seen :=
  ⟨rfl, rfl, rfl, rfl, rfl, rfl, rfl, rfl, rfl, rfl, rfl, rfl, rfl, rfl, rfl, rfl, rfl, rfl, rfl, rfl, rfl, rfl,
  rfl, rfl, rfl, rfl, rfl, rfl⟩

/-- Writing all of `W` writes `W` alone. -/
@[simp] theorem setWeights_fields (f : Nat → Weight) (s : State) :
    (setWeights f s).ph = s.ph ∧
    (setWeights f s).err = s.err ∧
    (setWeights f s).treeValid = s.treeValid ∧
    (setWeights f s).codeValid = s.codeValid ∧
    (setWeights f s).decDone = s.decDone ∧
    (setWeights f s).coll = s.coll ∧
    (setWeights f s).root = s.root ∧
    (setWeights f s).nleaf = s.nleaf ∧
    (setWeights f s).nextNode = s.nextNode ∧
    (setWeights f s).li = s.li ∧
    (setWeights f s).a = s.a ∧
    (setWeights f s).b = s.b ∧
    (setWeights f s).cn = s.cn ∧
    (setWeights f s).cdep = s.cdep ∧
    (setWeights f s).sp = s.sp ∧
    (setWeights f s).path = s.path ∧
    (setWeights f s).cur = s.cur ∧
    (setWeights f s).acc = s.acc ∧
    (setWeights f s).nacc = s.nacc ∧
    (setWeights f s).w = Memory.fill 0 256 f ∧
    (setWeights f s).node = s.node ∧
    (setWeights f s).pq = s.pq ∧
    (setWeights f s).code = s.code ∧
    (setWeights f s).stk = s.stk ∧
    (setWeights f s).cfg = s.cfg ∧
    (setWeights f s).host = s.host ∧
    (setWeights f s).outq = s.outq ∧
    (setWeights f s).seen = s.seen :=
  ⟨rfl, rfl, rfl, rfl, rfl, rfl, rfl, rfl, rfl, rfl, rfl, rfl, rfl, rfl, rfl, rfl, rfl, rfl, rfl, rfl, rfl, rfl,
  rfl, rfl, rfl, rfl, rfl, rfl⟩

/-- `CODE[x] <- e` writes `CODE` alone. -/
@[simp] theorem setCode_fields (x : Byte) (e : CodeEntry) (s : State) :
    (setCode x e s).ph = s.ph ∧
    (setCode x e s).err = s.err ∧
    (setCode x e s).treeValid = s.treeValid ∧
    (setCode x e s).codeValid = s.codeValid ∧
    (setCode x e s).decDone = s.decDone ∧
    (setCode x e s).coll = s.coll ∧
    (setCode x e s).root = s.root ∧
    (setCode x e s).nleaf = s.nleaf ∧
    (setCode x e s).nextNode = s.nextNode ∧
    (setCode x e s).li = s.li ∧
    (setCode x e s).a = s.a ∧
    (setCode x e s).b = s.b ∧
    (setCode x e s).cn = s.cn ∧
    (setCode x e s).cdep = s.cdep ∧
    (setCode x e s).sp = s.sp ∧
    (setCode x e s).path = s.path ∧
    (setCode x e s).cur = s.cur ∧
    (setCode x e s).acc = s.acc ∧
    (setCode x e s).nacc = s.nacc ∧
    (setCode x e s).w = s.w ∧
    (setCode x e s).node = s.node ∧
    (setCode x e s).pq = s.pq ∧
    (setCode x e s).code = Memory.write emptyCode s.code x.toNat e ∧
    (setCode x e s).stk = s.stk ∧
    (setCode x e s).cfg = s.cfg ∧
    (setCode x e s).host = s.host ∧
    (setCode x e s).outq = s.outq ∧
    (setCode x e s).seen = s.seen :=
  ⟨rfl, rfl, rfl, rfl, rfl, rfl, rfl, rfl, rfl, rfl, rfl, rfl, rfl, rfl, rfl, rfl, rfl, rfl, rfl, rfl, rfl, rfl,
  rfl, rfl, rfl, rfl, rfl, rfl⟩

/-- Clearing `CODE` writes `CODE` alone. -/
@[simp] theorem clearCodes_fields (s : State) :
    (clearCodes s).ph = s.ph ∧
    (clearCodes s).err = s.err ∧
    (clearCodes s).treeValid = s.treeValid ∧
    (clearCodes s).codeValid = s.codeValid ∧
    (clearCodes s).decDone = s.decDone ∧
    (clearCodes s).coll = s.coll ∧
    (clearCodes s).root = s.root ∧
    (clearCodes s).nleaf = s.nleaf ∧
    (clearCodes s).nextNode = s.nextNode ∧
    (clearCodes s).li = s.li ∧
    (clearCodes s).a = s.a ∧
    (clearCodes s).b = s.b ∧
    (clearCodes s).cn = s.cn ∧
    (clearCodes s).cdep = s.cdep ∧
    (clearCodes s).sp = s.sp ∧
    (clearCodes s).path = s.path ∧
    (clearCodes s).cur = s.cur ∧
    (clearCodes s).acc = s.acc ∧
    (clearCodes s).nacc = s.nacc ∧
    (clearCodes s).w = s.w ∧
    (clearCodes s).node = s.node ∧
    (clearCodes s).pq = s.pq ∧
    (clearCodes s).code = [] ∧
    (clearCodes s).stk = s.stk ∧
    (clearCodes s).cfg = s.cfg ∧
    (clearCodes s).host = s.host ∧
    (clearCodes s).outq = s.outq ∧
    (clearCodes s).seen = s.seen :=
  ⟨rfl, rfl, rfl, rfl, rfl, rfl, rfl, rfl, rfl, rfl, rfl, rfl, rfl, rfl, rfl, rfl, rfl, rfl, rfl, rfl, rfl, rfl,
  rfl, rfl, rfl, rfl, rfl, rfl⟩

/-- Recording a code writes `CODE` alone (42_code_deriver.md R142). -/
@[simp] theorem recordCode_fields (s : State) :
    (recordCode s).ph = s.ph ∧
    (recordCode s).err = s.err ∧
    (recordCode s).treeValid = s.treeValid ∧
    (recordCode s).codeValid = s.codeValid ∧
    (recordCode s).decDone = s.decDone ∧
    (recordCode s).coll = s.coll ∧
    (recordCode s).root = s.root ∧
    (recordCode s).nleaf = s.nleaf ∧
    (recordCode s).nextNode = s.nextNode ∧
    (recordCode s).li = s.li ∧
    (recordCode s).a = s.a ∧
    (recordCode s).b = s.b ∧
    (recordCode s).cn = s.cn ∧
    (recordCode s).cdep = s.cdep ∧
    (recordCode s).sp = s.sp ∧
    (recordCode s).path = s.path ∧
    (recordCode s).cur = s.cur ∧
    (recordCode s).acc = s.acc ∧
    (recordCode s).nacc = s.nacc ∧
    (recordCode s).w = s.w ∧
    (recordCode s).node = s.node ∧
    (recordCode s).pq = s.pq ∧
    (recordCode s).code = Memory.write emptyCode s.code (symOf s.cn).toNat ⟨true, s.cdep, s.path⟩ ∧
    (recordCode s).stk = s.stk ∧
    (recordCode s).cfg = s.cfg ∧
    (recordCode s).host = s.host ∧
    (recordCode s).outq = s.outq ∧
    (recordCode s).seen = s.seen :=
  ⟨rfl, rfl, rfl, rfl, rfl, rfl, rfl, rfl, rfl, rfl, rfl, rfl, rfl, rfl, rfl, rfl, rfl, rfl, rfl, rfl, rfl, rfl,
  rfl, rfl, rfl, rfl, rfl, rfl⟩

/-- An event is appended; nothing else changes (00_scope.md R16). -/
@[simp] theorem emit_fields (e : Event) (s : State) :
    (emit e s).ph = s.ph ∧
    (emit e s).err = s.err ∧
    (emit e s).treeValid = s.treeValid ∧
    (emit e s).codeValid = s.codeValid ∧
    (emit e s).decDone = s.decDone ∧
    (emit e s).coll = s.coll ∧
    (emit e s).root = s.root ∧
    (emit e s).nleaf = s.nleaf ∧
    (emit e s).nextNode = s.nextNode ∧
    (emit e s).li = s.li ∧
    (emit e s).a = s.a ∧
    (emit e s).b = s.b ∧
    (emit e s).cn = s.cn ∧
    (emit e s).cdep = s.cdep ∧
    (emit e s).sp = s.sp ∧
    (emit e s).path = s.path ∧
    (emit e s).cur = s.cur ∧
    (emit e s).acc = s.acc ∧
    (emit e s).nacc = s.nacc ∧
    (emit e s).w = s.w ∧
    (emit e s).node = s.node ∧
    (emit e s).pq = s.pq ∧
    (emit e s).code = s.code ∧
    (emit e s).stk = s.stk ∧
    (emit e s).cfg = s.cfg ∧
    (emit e s).host = s.host ∧
    (emit e s).outq = s.outq ++ [e] ∧
    (emit e s).seen = s.seen :=
  ⟨rfl, rfl, rfl, rfl, rfl, rfl, rfl, rfl, rfl, rfl, rfl, rfl, rfl, rfl, rfl, rfl, rfl, rfl, rfl, rfl, rfl, rfl,
  rfl, rfl, rfl, rfl, rfl, rfl⟩

/-- Transferring the waiting events moves them to the host (20_memory.md R60). -/
@[simp] theorem transferAll_fields (s : State) :
    (transferAll s).ph = s.ph ∧
    (transferAll s).err = s.err ∧
    (transferAll s).treeValid = s.treeValid ∧
    (transferAll s).codeValid = s.codeValid ∧
    (transferAll s).decDone = s.decDone ∧
    (transferAll s).coll = s.coll ∧
    (transferAll s).root = s.root ∧
    (transferAll s).nleaf = s.nleaf ∧
    (transferAll s).nextNode = s.nextNode ∧
    (transferAll s).li = s.li ∧
    (transferAll s).a = s.a ∧
    (transferAll s).b = s.b ∧
    (transferAll s).cn = s.cn ∧
    (transferAll s).cdep = s.cdep ∧
    (transferAll s).sp = s.sp ∧
    (transferAll s).path = s.path ∧
    (transferAll s).cur = s.cur ∧
    (transferAll s).acc = s.acc ∧
    (transferAll s).nacc = s.nacc ∧
    (transferAll s).w = s.w ∧
    (transferAll s).node = s.node ∧
    (transferAll s).pq = s.pq ∧
    (transferAll s).code = s.code ∧
    (transferAll s).stk = s.stk ∧
    (transferAll s).cfg = s.cfg ∧
    (transferAll s).host = s.host ∧
    (transferAll s).outq = [] ∧
    (transferAll s).seen = s.seen ++ s.outq :=
  ⟨rfl, rfl, rfl, rfl, rfl, rfl, rfl, rfl, rfl, rfl, rfl, rfl, rfl, rfl, rfl, rfl, rfl, rfl, rfl, rfl, rfl, rfl,
  rfl, rfl, rfl, rfl, rfl, rfl⟩

/-- `raise` writes `ERR` and `PH` alone (60_exceptions.md R218). -/
@[simp] theorem raise_fields (f : FaultName) (s : State) :
    (raise f s).treeValid = s.treeValid ∧
    (raise f s).codeValid = s.codeValid ∧
    (raise f s).decDone = s.decDone ∧
    (raise f s).coll = s.coll ∧
    (raise f s).root = s.root ∧
    (raise f s).nleaf = s.nleaf ∧
    (raise f s).nextNode = s.nextNode ∧
    (raise f s).li = s.li ∧
    (raise f s).a = s.a ∧
    (raise f s).b = s.b ∧
    (raise f s).cn = s.cn ∧
    (raise f s).cdep = s.cdep ∧
    (raise f s).sp = s.sp ∧
    (raise f s).path = s.path ∧
    (raise f s).cur = s.cur ∧
    (raise f s).acc = s.acc ∧
    (raise f s).nacc = s.nacc ∧
    (raise f s).w = s.w ∧
    (raise f s).node = s.node ∧
    (raise f s).pq = s.pq ∧
    (raise f s).code = s.code ∧
    (raise f s).stk = s.stk ∧
    (raise f s).cfg = s.cfg ∧
    (raise f s).host = s.host ∧
    (raise f s).outq = s.outq ∧
    (raise f s).seen = s.seen :=
  by
    unfold raise
    split <;> simp

/-- Leaving `FAULT` writes `ERR`, `ACC`, `NACC` and `PH` alone (R221). -/
@[simp] theorem leaveFault_fields (s : State) :
    (leaveFault s).treeValid = s.treeValid ∧
    (leaveFault s).codeValid = s.codeValid ∧
    (leaveFault s).decDone = s.decDone ∧
    (leaveFault s).coll = s.coll ∧
    (leaveFault s).root = s.root ∧
    (leaveFault s).nleaf = s.nleaf ∧
    (leaveFault s).nextNode = s.nextNode ∧
    (leaveFault s).li = s.li ∧
    (leaveFault s).a = s.a ∧
    (leaveFault s).b = s.b ∧
    (leaveFault s).cn = s.cn ∧
    (leaveFault s).cdep = s.cdep ∧
    (leaveFault s).sp = s.sp ∧
    (leaveFault s).path = s.path ∧
    (leaveFault s).cur = s.cur ∧
    (leaveFault s).w = s.w ∧
    (leaveFault s).node = s.node ∧
    (leaveFault s).pq = s.pq ∧
    (leaveFault s).code = s.code ∧
    (leaveFault s).stk = s.stk ∧
    (leaveFault s).cfg = s.cfg ∧
    (leaveFault s).host = s.host ∧
    (leaveFault s).outq = s.outq ∧
    (leaveFault s).seen = s.seen :=
  by
    unfold leaveFault
    split <;> simp

/-- Every item at its reset value (10_state.md R38); the model's own fields stay. -/
@[simp] theorem resetItems_fields (s : State) :
    (resetItems s).ph = .idle ∧
    (resetItems s).err = none ∧
    (resetItems s).treeValid = false ∧
    (resetItems s).codeValid = false ∧
    (resetItems s).decDone = false ∧
    (resetItems s).coll = false ∧
    (resetItems s).root = 0 ∧
    (resetItems s).nleaf = 0 ∧
    (resetItems s).nextNode = 256#9 ∧
    (resetItems s).li = 0 ∧
    (resetItems s).a = 0 ∧
    (resetItems s).b = 0 ∧
    (resetItems s).cn = 0 ∧
    (resetItems s).cdep = 0 ∧
    (resetItems s).sp = 0 ∧
    (resetItems s).path = 0 ∧
    (resetItems s).cur = 0 ∧
    (resetItems s).acc = padByte s.cfg ∧
    (resetItems s).nacc = 0 ∧
    (resetItems s).w = [] ∧
    (resetItems s).node = [] ∧
    (resetItems s).pq = [] ∧
    (resetItems s).code = [] ∧
    (resetItems s).stk = [] ∧
    (resetItems s).cfg = s.cfg ∧
    (resetItems s).host = s.host ∧
    (resetItems s).outq = s.outq ∧
    (resetItems s).seen = s.seen :=
  ⟨rfl, rfl, rfl, rfl, rfl, rfl, rfl, rfl, rfl, rfl, rfl, rfl, rfl, rfl, rfl, rfl, rfl, rfl, rfl, rfl, rfl, rfl,
  rfl, rfl, rfl, rfl, rfl, rfl⟩

/-- The `rst` input: every item at its reset value, events not yet taken dropped (70_reset_and_hazards.md R240). -/
@[simp] theorem applyReset_fields (k : Nat) (s : State) :
    (applyReset k s).ph = .idle ∧
    (applyReset k s).err = none ∧
    (applyReset k s).treeValid = false ∧
    (applyReset k s).codeValid = false ∧
    (applyReset k s).decDone = false ∧
    (applyReset k s).coll = false ∧
    (applyReset k s).root = 0 ∧
    (applyReset k s).nleaf = 0 ∧
    (applyReset k s).nextNode = 256#9 ∧
    (applyReset k s).li = 0 ∧
    (applyReset k s).a = 0 ∧
    (applyReset k s).b = 0 ∧
    (applyReset k s).cn = 0 ∧
    (applyReset k s).cdep = 0 ∧
    (applyReset k s).sp = 0 ∧
    (applyReset k s).path = 0 ∧
    (applyReset k s).cur = 0 ∧
    (applyReset k s).acc = padByte s.cfg ∧
    (applyReset k s).nacc = 0 ∧
    (applyReset k s).w = [] ∧
    (applyReset k s).node = [] ∧
    (applyReset k s).pq = [] ∧
    (applyReset k s).code = [] ∧
    (applyReset k s).stk = [] ∧
    (applyReset k s).cfg = s.cfg ∧
    (applyReset k s).host = s.host ∧
    (applyReset k s).outq = [] ∧
    (applyReset k s).seen = s.seen ++ s.outq.take k :=
  ⟨rfl, rfl, rfl, rfl, rfl, rfl, rfl, rfl, rfl, rfl, rfl, rfl, rfl, rfl, rfl, rfl, rfl, rfl, rfl, rfl, rfl, rfl,
  rfl, rfl, rfl, rfl, rfl, rfl⟩

/-- The start of BUILD (41_tree_builder.md R113). -/
@[simp] theorem buildStart_fields (s : State) :
    (buildStart s).ph = .tbLoad ∧
    (buildStart s).err = s.err ∧
    (buildStart s).treeValid = false ∧
    (buildStart s).codeValid = false ∧
    (buildStart s).decDone = s.decDone ∧
    (buildStart s).coll = s.coll ∧
    (buildStart s).root = s.root ∧
    (buildStart s).nleaf = 0 ∧
    (buildStart s).nextNode = 256#9 ∧
    (buildStart s).li = 0 ∧
    (buildStart s).a = s.a ∧
    (buildStart s).b = s.b ∧
    (buildStart s).cn = s.cn ∧
    (buildStart s).cdep = s.cdep ∧
    (buildStart s).sp = s.sp ∧
    (buildStart s).path = s.path ∧
    (buildStart s).cur = s.cur ∧
    (buildStart s).acc = s.acc ∧
    (buildStart s).nacc = s.nacc ∧
    (buildStart s).w = s.w ∧
    (buildStart s).node = s.node ∧
    (buildStart s).pq = [] ∧
    (buildStart s).code = s.code ∧
    (buildStart s).stk = s.stk ∧
    (buildStart s).cfg = s.cfg ∧
    (buildStart s).host = s.host ∧
    (buildStart s).outq = s.outq ∧
    (buildStart s).seen = s.seen :=
  ⟨rfl, rfl, rfl, rfl, rfl, rfl, rfl, rfl, rfl, rfl, rfl, rfl, rfl, rfl, rfl, rfl, rfl, rfl, rfl, rfl, rfl, rfl,
  rfl, rfl, rfl, rfl, rfl, rfl⟩

/-- The end of BUILD (R116). -/
@[simp] theorem finishTree_fields (s : State) :
    (finishTree s).ph = .idle ∧
    (finishTree s).err = s.err ∧
    (finishTree s).treeValid = true ∧
    (finishTree s).codeValid = s.codeValid ∧
    (finishTree s).decDone = s.decDone ∧
    (finishTree s).coll = s.coll ∧
    (finishTree s).root = s.a ∧
    (finishTree s).nleaf = s.nleaf ∧
    (finishTree s).nextNode = s.nextNode ∧
    (finishTree s).li = s.li ∧
    (finishTree s).a = s.a ∧
    (finishTree s).b = s.b ∧
    (finishTree s).cn = s.cn ∧
    (finishTree s).cdep = s.cdep ∧
    (finishTree s).sp = s.sp ∧
    (finishTree s).path = s.path ∧
    (finishTree s).cur = s.cur ∧
    (finishTree s).acc = s.acc ∧
    (finishTree s).nacc = s.nacc ∧
    (finishTree s).w = s.w ∧
    (finishTree s).node = s.node ∧
    (finishTree s).pq = s.pq ∧
    (finishTree s).code = s.code ∧
    (finishTree s).stk = s.stk ∧
    (finishTree s).cfg = s.cfg ∧
    (finishTree s).host = s.host ∧
    (finishTree s).outq = s.outq ∧
    (finishTree s).seen = s.seen :=
  ⟨rfl, rfl, rfl, rfl, rfl, rfl, rfl, rfl, rfl, rfl, rfl, rfl, rfl, rfl, rfl, rfl, rfl, rfl, rfl, rfl, rfl, rfl,
  rfl, rfl, rfl, rfl, rfl, rfl⟩

/-- The start of DERIVE (R141). -/
@[simp] theorem deriveStart_fields (s : State) :
    (deriveStart s).ph = .cdVisit ∧
    (deriveStart s).err = s.err ∧
    (deriveStart s).treeValid = s.treeValid ∧
    (deriveStart s).codeValid = false ∧
    (deriveStart s).decDone = s.decDone ∧
    (deriveStart s).coll = s.coll ∧
    (deriveStart s).root = s.root ∧
    (deriveStart s).nleaf = s.nleaf ∧
    (deriveStart s).nextNode = s.nextNode ∧
    (deriveStart s).li = s.li ∧
    (deriveStart s).a = s.a ∧
    (deriveStart s).b = s.b ∧
    (deriveStart s).cn = s.root ∧
    (deriveStart s).cdep = 0 ∧
    (deriveStart s).sp = 0 ∧
    (deriveStart s).path = 0 ∧
    (deriveStart s).cur = s.cur ∧
    (deriveStart s).acc = s.acc ∧
    (deriveStart s).nacc = s.nacc ∧
    (deriveStart s).w = s.w ∧
    (deriveStart s).node = s.node ∧
    (deriveStart s).pq = s.pq ∧
    (deriveStart s).code = [] ∧
    (deriveStart s).stk = s.stk ∧
    (deriveStart s).cfg = s.cfg ∧
    (deriveStart s).host = s.host ∧
    (deriveStart s).outq = s.outq ∧
    (deriveStart s).seen = s.seen :=
  ⟨rfl, rfl, rfl, rfl, rfl, rfl, rfl, rfl, rfl, rfl, rfl, rfl, rfl, rfl, rfl, rfl, rfl, rfl, rfl, rfl, rfl, rfl,
  rfl, rfl, rfl, rfl, rfl, rfl⟩

/-- The end of DERIVE (R144). -/
@[simp] theorem finishCodes_fields (s : State) :
    (finishCodes s).ph = .idle ∧
    (finishCodes s).err = s.err ∧
    (finishCodes s).treeValid = s.treeValid ∧
    (finishCodes s).codeValid = true ∧
    (finishCodes s).decDone = s.decDone ∧
    (finishCodes s).coll = s.coll ∧
    (finishCodes s).root = s.root ∧
    (finishCodes s).nleaf = s.nleaf ∧
    (finishCodes s).nextNode = s.nextNode ∧
    (finishCodes s).li = s.li ∧
    (finishCodes s).a = s.a ∧
    (finishCodes s).b = s.b ∧
    (finishCodes s).cn = s.cn ∧
    (finishCodes s).cdep = s.cdep ∧
    (finishCodes s).sp = s.sp ∧
    (finishCodes s).path = s.path ∧
    (finishCodes s).cur = s.cur ∧
    (finishCodes s).acc = s.acc ∧
    (finishCodes s).nacc = s.nacc ∧
    (finishCodes s).w = s.w ∧
    (finishCodes s).node = s.node ∧
    (finishCodes s).pq = s.pq ∧
    (finishCodes s).code = s.code ∧
    (finishCodes s).stk = s.stk ∧
    (finishCodes s).cfg = s.cfg ∧
    (finishCodes s).host = s.host ∧
    (finishCodes s).outq = s.outq ∧
    (finishCodes s).seen = s.seen :=
  ⟨rfl, rfl, rfl, rfl, rfl, rfl, rfl, rfl, rfl, rfl, rfl, rfl, rfl, rfl, rfl, rfl, rfl, rfl, rfl, rfl, rfl, rfl,
  rfl, rfl, rfl, rfl, rfl, rfl⟩

/-- The waiting byte leaves (43_bit_packer.md R164). -/
@[simp] theorem flushByte_fields (s : State) :
    (flushByte s).ph = s.ph ∧
    (flushByte s).err = s.err ∧
    (flushByte s).treeValid = s.treeValid ∧
    (flushByte s).codeValid = s.codeValid ∧
    (flushByte s).decDone = s.decDone ∧
    (flushByte s).coll = s.coll ∧
    (flushByte s).root = s.root ∧
    (flushByte s).nleaf = s.nleaf ∧
    (flushByte s).nextNode = s.nextNode ∧
    (flushByte s).li = s.li ∧
    (flushByte s).a = s.a ∧
    (flushByte s).b = s.b ∧
    (flushByte s).cn = s.cn ∧
    (flushByte s).cdep = s.cdep ∧
    (flushByte s).sp = s.sp ∧
    (flushByte s).path = s.path ∧
    (flushByte s).cur = s.cur ∧
    (flushByte s).acc = padByte s.cfg ∧
    (flushByte s).nacc = 0 ∧
    (flushByte s).w = s.w ∧
    (flushByte s).node = s.node ∧
    (flushByte s).pq = s.pq ∧
    (flushByte s).code = s.code ∧
    (flushByte s).stk = s.stk ∧
    (flushByte s).cfg = s.cfg ∧
    (flushByte s).host = s.host ∧
    (flushByte s).outq = s.outq ++ [.out s.acc] ∧
    (flushByte s).seen = s.seen :=
  ⟨rfl, rfl, rfl, rfl, rfl, rfl, rfl, rfl, rfl, rfl, rfl, rfl, rfl, rfl, rfl, rfl, rfl, rfl, rfl, rfl, rfl, rfl,
  rfl, rfl, rfl, rfl, rfl, rfl⟩

/-- A bit is put into `ACC` alone (R164). -/
@[simp] theorem placeBit_fields (v : Bool) (s : State) :
    (placeBit v s).ph = s.ph ∧
    (placeBit v s).err = s.err ∧
    (placeBit v s).treeValid = s.treeValid ∧
    (placeBit v s).codeValid = s.codeValid ∧
    (placeBit v s).decDone = s.decDone ∧
    (placeBit v s).coll = s.coll ∧
    (placeBit v s).root = s.root ∧
    (placeBit v s).nleaf = s.nleaf ∧
    (placeBit v s).nextNode = s.nextNode ∧
    (placeBit v s).li = s.li ∧
    (placeBit v s).a = s.a ∧
    (placeBit v s).b = s.b ∧
    (placeBit v s).cn = s.cn ∧
    (placeBit v s).cdep = s.cdep ∧
    (placeBit v s).sp = s.sp ∧
    (placeBit v s).path = s.path ∧
    (placeBit v s).cur = s.cur ∧
    (placeBit v s).acc = setBit s.acc (bitPosition s.cfg.bitOrder s.nacc.toNat) v ∧
    (placeBit v s).nacc = s.nacc ∧
    (placeBit v s).w = s.w ∧
    (placeBit v s).node = s.node ∧
    (placeBit v s).pq = s.pq ∧
    (placeBit v s).code = s.code ∧
    (placeBit v s).stk = s.stk ∧
    (placeBit v s).cfg = s.cfg ∧
    (placeBit v s).host = s.host ∧
    (placeBit v s).outq = s.outq ∧
    (placeBit v s).seen = s.seen :=
  ⟨rfl, rfl, rfl, rfl, rfl, rfl, rfl, rfl, rfl, rfl, rfl, rfl, rfl, rfl, rfl, rfl, rfl, rfl, rfl, rfl, rfl, rfl,
  rfl, rfl, rfl, rfl, rfl, rfl⟩

/-- `pushbit` writes `ACC`, `NACC` and the output alone (R164). -/
@[simp] theorem pushBit_fields (s : State) (v : Bool) :
    (pushBit s v).ph = s.ph ∧
    (pushBit s v).err = s.err ∧
    (pushBit s v).treeValid = s.treeValid ∧
    (pushBit s v).codeValid = s.codeValid ∧
    (pushBit s v).decDone = s.decDone ∧
    (pushBit s v).coll = s.coll ∧
    (pushBit s v).root = s.root ∧
    (pushBit s v).nleaf = s.nleaf ∧
    (pushBit s v).nextNode = s.nextNode ∧
    (pushBit s v).li = s.li ∧
    (pushBit s v).a = s.a ∧
    (pushBit s v).b = s.b ∧
    (pushBit s v).cn = s.cn ∧
    (pushBit s v).cdep = s.cdep ∧
    (pushBit s v).sp = s.sp ∧
    (pushBit s v).path = s.path ∧
    (pushBit s v).cur = s.cur ∧
    (pushBit s v).w = s.w ∧
    (pushBit s v).node = s.node ∧
    (pushBit s v).pq = s.pq ∧
    (pushBit s v).code = s.code ∧
    (pushBit s v).stk = s.stk ∧
    (pushBit s v).cfg = s.cfg ∧
    (pushBit s v).host = s.host ∧
    (pushBit s v).seen = s.seen :=
  by
    unfold pushBit
    dsimp only
    split <;> simp

/-- Appending bits writes `ACC`, `NACC` and the output alone (R162, R164). -/
@[simp] theorem pushBits_fields (bits : List Bool) (s : State) :
    (pushBits s bits).ph = s.ph ∧
    (pushBits s bits).err = s.err ∧
    (pushBits s bits).treeValid = s.treeValid ∧
    (pushBits s bits).codeValid = s.codeValid ∧
    (pushBits s bits).decDone = s.decDone ∧
    (pushBits s bits).coll = s.coll ∧
    (pushBits s bits).root = s.root ∧
    (pushBits s bits).nleaf = s.nleaf ∧
    (pushBits s bits).nextNode = s.nextNode ∧
    (pushBits s bits).li = s.li ∧
    (pushBits s bits).a = s.a ∧
    (pushBits s bits).b = s.b ∧
    (pushBits s bits).cn = s.cn ∧
    (pushBits s bits).cdep = s.cdep ∧
    (pushBits s bits).sp = s.sp ∧
    (pushBits s bits).path = s.path ∧
    (pushBits s bits).cur = s.cur ∧
    (pushBits s bits).w = s.w ∧
    (pushBits s bits).node = s.node ∧
    (pushBits s bits).pq = s.pq ∧
    (pushBits s bits).code = s.code ∧
    (pushBits s bits).stk = s.stk ∧
    (pushBits s bits).cfg = s.cfg ∧
    (pushBits s bits).host = s.host ∧
    (pushBits s bits).seen = s.seen :=
  by
    induction bits generalizing s with
    | nil => simp [pushBits]
    | cons v q ih => simpa [pushBits] using ih (pushBit s v)

/-- Arriving at a node writes `CUR`, `DEC_DONE` and the output alone (44_bit_unpacker.md R183). -/
@[simp] theorem arrive_fields (s : State) :
    (arrive s).ph = s.ph ∧
    (arrive s).err = s.err ∧
    (arrive s).treeValid = s.treeValid ∧
    (arrive s).codeValid = s.codeValid ∧
    (arrive s).coll = s.coll ∧
    (arrive s).root = s.root ∧
    (arrive s).nleaf = s.nleaf ∧
    (arrive s).nextNode = s.nextNode ∧
    (arrive s).li = s.li ∧
    (arrive s).a = s.a ∧
    (arrive s).b = s.b ∧
    (arrive s).cn = s.cn ∧
    (arrive s).cdep = s.cdep ∧
    (arrive s).sp = s.sp ∧
    (arrive s).path = s.path ∧
    (arrive s).acc = s.acc ∧
    (arrive s).nacc = s.nacc ∧
    (arrive s).w = s.w ∧
    (arrive s).node = s.node ∧
    (arrive s).pq = s.pq ∧
    (arrive s).code = s.code ∧
    (arrive s).stk = s.stk ∧
    (arrive s).cfg = s.cfg ∧
    (arrive s).host = s.host ∧
    (arrive s).seen = s.seen :=
  by
    unfold arrive
    split
    · dsimp only
      split <;> simp
    · simp

end Sys2Proof.Machine
end

