-- ==== Sys2Proof/Laws/Ops.lean ====
section
/-! SUPPORT. What each shared operation can do, said once: if it answers a next state, then that state and under which
condition. Later proofs cite these lemmas instead of unfolding the operations. -/

namespace Sys2Proof.Machine

/-! ## Sequencing -/

@[simp] theorem andThen_next (s : State) (f : State → Answer) : andThen (.next s) f = f s := rfl
@[simp] theorem andThen_fault (x : Fault) (f : State → Answer) : andThen (.fault x) f = .fault x := rfl
@[simp] theorem andThen_refused (x : Refusal) (f : State → Answer) : andThen (.refused x) f = .refused x := rfl

theorem andThen_eq_next {r : Answer} {f : State → Answer} {t : State} :
    andThen r f = .next t ↔ ∃ s, r = .next s ∧ f s = .next t := by
  cases r <;> simp

theorem andThen_assoc (r : Answer) (f g : State → Answer) :
    andThen (andThen r f) g = andThen r fun s => andThen (f s) g := by
  cases r <;> rfl

@[simp] theorem repeatOp_zero (f : State → Answer) (s : State) : repeatOp f 0 s = .next s := rfl

theorem repeatOp_succ (f : State → Answer) (n : Nat) (s : State) :
    repeatOp f (n + 1) s = andThen (f s) (repeatOp f n) := rfl

/-- Repeating `m + n` times is repeating `m` times and then `n` times. -/
theorem repeatOp_add (f : State → Answer) (m n : Nat) (s : State) :
    repeatOp f (m + n) s = andThen (repeatOp f m s) (repeatOp f n) := by
  induction m generalizing s with
  | zero => simp
  | succ m ih =>
    rw [Nat.succ_add, repeatOp_succ, repeatOp_succ, andThen_assoc]
    congr 1
    funext u
    exact ih u

/-- The last of the repetitions apart. -/
theorem repeatOp_succ_last (f : State → Answer) (n : Nat) (s : State) :
    repeatOp f (n + 1) s = andThen (repeatOp f n s) f := by
  rw [repeatOp_add]
  congr 1
  funext u
  rw [repeatOp_succ]
  cases f u <;> rfl

/-! ## Admission and faults -/

theorem raise_outside (f : FaultName) {s : State} (h : s.ph ≠ .fault) :
    raise f s = { s with err := some f, ph := .fault } := if_neg h

theorem raise_inside (f : FaultName) {s : State} (h : s.ph = .fault) : raise f s = s := if_pos h

/-- After `raise` the core is in `FAULT`. -/
@[simp] theorem raise_ph (f : FaultName) (s : State) : (raise f s).ph = .fault := by
  unfold raise
  split
  · assumption
  · rfl

theorem leaveFault_inside {s : State} (h : s.ph = .fault) :
    leaveFault s = { s with err := none, acc := padByte s.cfg, nacc := 0, ph := .idle } := if_pos h

theorem leaveFault_outside {s : State} (h : s.ph ≠ .fault) : leaveFault s = s := if_neg h

/-- Every boundary state admits an `always` command. -/
theorem admission_always {p : Phase} (h : p = .idle ∨ p = .enc ∨ p = .dec ∨ p = .fault) : admission .always p = .ok := by
  rcases h with rfl | rfl | rfl | rfl <;> rfl

theorem withAdmission_ok {c : CommandClass} {s : State} {body : State → Answer} (h : admission c s.ph = .ok) :
    withAdmission c s body = body s := by
  unfold withAdmission
  rw [h]

/-- A command that answers a next state was admitted and ran, or was misplaced, or was dropped. -/
theorem withAdmission_eq_next {c : CommandClass} {s t : State} {body : State → Answer} :
    withAdmission c s body = .next t ↔
      (admission c s.ph = .ok ∧ body s = .next t) ∨ (admission c s.ph = .seqFault ∧ t = raise .eSeq s) ∨
      (admission c s.ph = .drop ∧ t = s) := by
  unfold withAdmission
  split <;> rename_i h <;> simp [h, eq_comm]

/-! ## Memories -/

theorem weightAt_setWeight (x : Byte) (v : Weight) (s : State) (i : Nat) :
    weightAt (setWeight x v s) i = if x.toNat = i then v else weightAt s i := Memory.read_write _ _ _ _ _

theorem weightAt_setWeights (f : Nat → Weight) (s : State) (i : Nat) :
    weightAt (setWeights f s) i = if i < 256 then f i else 0 := Memory.read_fill _ _ _ _

theorem codeAt_setCode (x y : Byte) (e : CodeEntry) (s : State) :
    codeAt (setCode x e s) y = if x = y then e else codeAt s y := by
  simp only [codeAt, setCode_fields, Memory.read_write, BitVec.toNat_inj]

theorem withNode_eq_next {i : NodeIndex} {s t : State} {f : Node → Answer} :
    withNode i s f = .next t ↔ i ≠ 511#9 ∧ f (nodeAt s i.toNat) = .next t := by
  unfold withNode
  split <;> simp_all

theorem setNode_eq_next {i : NodeIndex} {n : Node} {s t : State} :
    setNode i n s = .next t ↔
      i ≠ 511#9 ∧ t = { s with node := Memory.write emptyNode s.node i.toNat n } := by
  unfold setNode
  split <;> simp_all [eq_comm]

/-- What `NODE` reads as after a write. -/
theorem nodeAt_setNode {i : NodeIndex} {n : Node} {s t : State} (h : setNode i n s = .next t) (j : Nat) :
    nodeAt t j = if i.toNat = j then n else nodeAt s j := by
  obtain ⟨-, rfl⟩ := setNode_eq_next.1 h
  exact Memory.read_write _ _ _ _ _

theorem pushStack_eq_next {e : StackEntry} {s t : State} :
    pushStack e s = .next t ↔
      s.sp ≠ 255#8 ∧ t = { s with stk := Memory.write emptyStack s.stk s.sp.toNat e, sp := s.sp + 1 } := by
  unfold pushStack
  split <;> simp_all [eq_comm]

/-- A node index that is not 511 indexes an entry of `NODE`. -/
theorem index_lt {i : NodeIndex} (h : i ≠ 511#9) : i.toNat < 511 := by
  have : i.toNat ≠ 511 := fun hi => h (BitVec.eq_of_toNat_eq (by simpa using hi))
  omega

theorem isLeaf_iff {i : NodeIndex} : isLeaf i = true ↔ i.toNat < 256 := by simp [isLeaf]

/-! ## The queue -/

theorem mem_insertMember {i j : NodeIndex} {q : List NodeIndex} : j ∈ insertMember i q ↔ j = i ∨ j ∈ q := by
  induction q with
  | nil => simp [insertMember]
  | cons k q ih =>
    unfold insertMember
    split
    · simp
    · simp only [List.mem_cons, ih]
      tauto

theorem length_insertMember (i : NodeIndex) (q : List NodeIndex) : (insertMember i q).length = q.length + 1 := by
  induction q with
  | nil => rfl
  | cons k q ih =>
    unfold insertMember
    split <;> simp [ih]

/-- Inserting a new member keeps the members rising. -/
theorem insertMember_rising {i : NodeIndex} {q : List NodeIndex} (h : q.Pairwise (· < ·)) (hi : i ∉ q) :
    (insertMember i q).Pairwise (· < ·) := by
  induction q with
  | nil => simp [insertMember]
  | cons k q ih =>
    rw [List.pairwise_cons] at h
    simp only [List.mem_cons, not_or] at hi
    unfold insertMember
    split
    · rename_i hlt
      refine List.pairwise_cons.2 ⟨fun j hj => ?_, List.pairwise_cons.2 h⟩
      rcases List.mem_cons.1 hj with rfl | hj
      · exact hlt
      · exact BitVec.lt_trans hlt (h.1 j hj)
    · rename_i hle
      refine List.pairwise_cons.2 ⟨fun j hj => ?_, ih h.2 hi.2⟩
      rcases mem_insertMember.1 hj with rfl | hj
      · have : j.toNat ≠ k.toNat := fun he => hi.1 (BitVec.eq_of_toNat_eq he)
        rw [BitVec.lt_def] at hle ⊢
        omega
      · exact h.1 j hj

theorem insertQueue_eq_next {i : NodeIndex} {s t : State} :
    insertQueue i s = .next t ↔
      i ≠ 511#9 ∧ i ∉ s.pq ∧ s.pq.length < 256 ∧ t = { s with pq := insertMember i s.pq } := by
  unfold insertQueue
  split
  · simp_all
  · split
    · rename_i h
      simp only [reduceCtorEq, false_iff]
      rintro ⟨-, h1, h2, -⟩
      rcases h with h | h
      · exact h1 h
      · omega
    · rename_i h1 h
      simp only [not_or, Nat.not_le] at h
      simp [h1, h.1, h.2, eq_comm]

/-- The order of R111, spelled out. -/
theorem precedes_iff {s : State} {i j : NodeIndex} :
    precedes s i j = true ↔ (nodeAt s i.toNat).w < (nodeAt s j.toNat).w ∨
      ((nodeAt s i.toNat).w = (nodeAt s j.toNat).w ∧ i < j) := by
  simp [precedes]

theorem precedes_trans {s : State} {i j k : NodeIndex} (h1 : precedes s i j = true) (h2 : precedes s j k = true) :
    precedes s i k = true := by
  rw [precedes_iff] at *
  simp only [BitVec.lt_def, ← BitVec.toNat_inj] at *
  omega

theorem precedes_total {s : State} {i j : NodeIndex} (h : i ≠ j) (hn : ¬ precedes s i j = true) :
    precedes s j i = true := by
  have : i.toNat ≠ j.toNat := fun he => h (BitVec.eq_of_toNat_eq he)
  rw [precedes_iff] at *
  simp only [BitVec.lt_def, ← BitVec.toNat_inj] at *
  omega

theorem minMember_eq_none {s : State} {q : List NodeIndex} : minMember s q = none ↔ q = [] := by
  cases q with
  | nil => simp [minMember]
  | cons i q =>
    simp only [minMember, reduceCtorEq, iff_false]
    split
    · simp
    · split <;> simp

/-- The minimum is a member, and precedes every other member. -/
theorem minMember_spec {s : State} {q : List NodeIndex} {m : NodeIndex} (h : minMember s q = some m) :
    m ∈ q ∧ ∀ j ∈ q, j ≠ m → precedes s m j = true := by
  induction q generalizing m with
  | nil => simp [minMember] at h
  | cons i q ih =>
    simp only [minMember] at h
    split at h
    · rename_i hn
      rw [minMember_eq_none] at hn
      simp_all
    · rename_i k hk
      obtain ⟨hm, hl⟩ := ih hk
      split at h
      · rename_i hp
        cases h
        refine ⟨List.mem_cons_of_mem _ hm, fun j hj hne => ?_⟩
        rcases List.mem_cons.1 hj with rfl | hj
        · exact hp
        · exact hl j hj hne
      · rename_i hp
        cases h
        refine ⟨by simp, fun j hj hne => ?_⟩
        have hik : precedes s i k = true ∨ i = k := by
          by_cases he : k = i
          · exact .inr he.symm
          · exact .inl (precedes_total he hp)
        rcases List.mem_cons.1 hj with rfl | hj
        · exact absurd rfl hne
        · by_cases hjk : j = k
          · subst hjk
            exact hik.resolve_right (Ne.symm hne)
          · rcases hik with hik | rfl
            · exact precedes_trans hik (hl j hj hjk)
            · exact hl j hj hjk

/-- What `extract_min` goes on with: the least member, taken out of the queue. -/
theorem withMin_eq_next {s t : State} {f : NodeIndex → State → Answer} :
    withMin s f = .next t ↔ 511#9 ∉ s.pq ∧ ∃ m, minMember s s.pq = some m ∧
      f m { s with pq := s.pq.filter fun j => decide (j ≠ m) } = .next t := by
  unfold withMin
  split
  · simp_all
  · split <;> simp_all

/-! ## Tree builder -/

theorem countLeaf_eq_next {s t : State} :
    countLeaf s = .next t ↔ (weightAt s s.li.toNat = 0 ∧ t = s) ∨
      (weightAt s s.li.toNat ≠ 0 ∧ s.li ≠ 511#9 ∧ s.li ∉ s.pq ∧ s.pq.length < 256 ∧
        t = { s with pq := insertMember s.li s.pq, nleaf := s.nleaf + 1 }) := by
  unfold countLeaf
  split
  · simp_all [eq_comm]
  · rename_i h
    rw [andThen_eq_next]
    constructor
    · rintro ⟨u, hu, ht⟩
      obtain ⟨h1, h2, h3, rfl⟩ := insertQueue_eq_next.1 hu
      cases ht
      exact .inr ⟨h, h1, h2, h3, rfl⟩
    · rintro (⟨h0, -⟩ | ⟨-, h1, h2, h3, rfl⟩)
      · exact absurd h0 h
      · exact ⟨_, insertQueue_eq_next.2 ⟨h1, h2, h3, rfl⟩, rfl⟩

/-- One symbol loaded: the snapshot of its weight, its leaf in the queue if the weight is not zero, `LI` advanced. -/
theorem loadSymbol_eq_next {s t : State} (h : loadSymbol s = .next t) :
    s.li.toNat < 256 ∧
      ((weightAt s s.li.toNat = 0 ∧ t = { s with
          node := Memory.write emptyNode s.node s.li.toNat ⟨(weightAt s s.li.toNat).setWidth 40, 0, 0⟩, li := s.li + 1 }) ∨
       (weightAt s s.li.toNat ≠ 0 ∧ s.li ∉ s.pq ∧ s.pq.length < 256 ∧ t = { s with
          node := Memory.write emptyNode s.node s.li.toNat ⟨(weightAt s s.li.toNat).setWidth 40, 0, 0⟩,
          pq := insertMember s.li s.pq, nleaf := s.nleaf + 1, li := s.li + 1 })) := by
  unfold loadSymbol at h
  split at h
  · rename_i hli
    refine ⟨hli, ?_⟩
    obtain ⟨u, hu, h⟩ := andThen_eq_next.1 h
    obtain ⟨-, rfl⟩ := setNode_eq_next.1 hu
    obtain ⟨v, hv, h⟩ := andThen_eq_next.1 h
    cases h
    rcases countLeaf_eq_next.1 hv with ⟨h0, rfl⟩ | ⟨h0, -, h2, h3, rfl⟩
    · exact .inl ⟨h0, rfl⟩
    · exact .inr ⟨h0, h2, h3, rfl⟩
  · cases h

/-- One merge: the new node under its two parts' index, in the queue, `NEXT` advanced. -/
theorem mergeTrees_eq_next {s t : State} (h : mergeTrees s = .next t) :
    s.a ≠ 511#9 ∧ s.b ≠ 511#9 ∧ s.nextNode ≠ 511#9 ∧ s.nextNode ∉ s.pq ∧ s.pq.length < 256 ∧
      t = { s with
        node := Memory.write emptyNode s.node s.nextNode.toNat
          ⟨(nodeAt s s.a.toNat).w + (nodeAt s s.b.toNat).w, s.b, s.a⟩,
        pq := insertMember s.nextNode s.pq, nextNode := s.nextNode + 1 } := by
  obtain ⟨ha, h⟩ := withNode_eq_next.1 h
  obtain ⟨hb, h⟩ := withNode_eq_next.1 h
  obtain ⟨u, hu, h⟩ := andThen_eq_next.1 h
  obtain ⟨hn, rfl⟩ := setNode_eq_next.1 hu
  obtain ⟨v, hv, h⟩ := andThen_eq_next.1 h
  obtain ⟨-, h2, h3, rfl⟩ := insertQueue_eq_next.1 hv
  cases h
  exact ⟨ha, hb, hn, h2, h3, rfl⟩

theorem extractA_eq_next {s t : State} :
    extractA s = .next t ↔ 511#9 ∉ s.pq ∧ ∃ m, minMember s s.pq = some m ∧
      t = { s with pq := s.pq.filter fun j => decide (j ≠ m), a := m } := by
  unfold extractA
  rw [withMin_eq_next]
  simp only [Host.Outcome.next.injEq, eq_comm (b := t)]

theorem extractB_eq_next {s t : State} :
    extractB s = .next t ↔ 511#9 ∉ s.pq ∧ ∃ m, minMember s s.pq = some m ∧
      t = { s with pq := s.pq.filter fun j => decide (j ≠ m), b := m } := by
  unfold extractB
  rw [withMin_eq_next]
  simp only [Host.Outcome.next.injEq, eq_comm (b := t)]

/-! ## Code deriver -/

/-- A descent: the right child pushed with the depth, the walk at the left child one deeper. -/
theorem descendLeft_eq_next {s t : State} :
    descendLeft s = .next t ↔ s.cn ≠ 511#9 ∧ s.cdep ≠ 255#8 ∧ s.sp ≠ 255#8 ∧
      t = { s with
        stk := Memory.write emptyStack s.stk s.sp.toNat ⟨(nodeAt s s.cn.toNat).r, s.cdep⟩, sp := s.sp + 1,
        cn := (nodeAt s s.cn.toNat).l, cdep := s.cdep + 1 } := by
  unfold descendLeft
  rw [withNode_eq_next]
  split
  · simp_all
  · rw [andThen_eq_next]
    constructor
    · rintro ⟨h1, u, hu, ht⟩
      obtain ⟨h2, rfl⟩ := pushStack_eq_next.1 hu
      cases ht
      exact ⟨h1, by assumption, h2, rfl⟩
    · rintro ⟨h1, -, h2, rfl⟩
      exact ⟨h1, _, pushStack_eq_next.2 ⟨h2, rfl⟩, rfl⟩

/-- A resumption: the top entry popped, its branch bit set. -/
theorem resumeRight_eq_next {s t : State} :
    resumeRight s = .next t ↔ (stackAt s (s.sp - 1).toNat).dep ≠ 255#8 ∧
      t = { s with
        sp := s.sp - 1, cn := (stackAt s (s.sp - 1).toNat).node,
        path := branchRight s.path (stackAt s (s.sp - 1).toNat).dep.toNat,
        cdep := (stackAt s (s.sp - 1).toNat).dep + 1, ph := .cdVisit } := by
  unfold resumeRight
  dsimp only
  split <;> simp_all [eq_comm]

/-! ## Bit packer and bit unpacker -/

theorem pushBit_full {s : State} (h : s.nacc = 7#3) (v : Bool) : pushBit s v = flushByte (placeBit v s) := if_pos h

theorem pushBit_filling {s : State} (h : s.nacc ≠ 7#3) (v : Bool) :
    pushBit s v = { placeBit v s with nacc := s.nacc + 1 } := if_neg h

@[simp] theorem pushBits_nil (s : State) : pushBits s [] = s := rfl
@[simp] theorem pushBits_cons (s : State) (v : Bool) (q : List Bool) :
    pushBits s (v :: q) = pushBits (pushBit s v) q := rfl

theorem pushBits_append (s : State) (p q : List Bool) : pushBits s (p ++ q) = pushBits (pushBits s p) q := by
  simp [pushBits]

theorem arrive_inside {s : State} (h : isLeaf s.cur = false) : arrive s = s := by simp [arrive, h]

theorem arrive_sentinel {s : State} (h : isLeaf s.cur = true) (he : s.cur = leafOf s.cfg.eotSym) :
    arrive s = { s with decDone := true, cur := s.root } := by
  unfold arrive
  rw [if_pos h]
  simp only [if_pos he]

theorem arrive_symbol {s : State} (h : isLeaf s.cur = true) (he : s.cur ≠ leafOf s.cfg.eotSym) :
    arrive s = { s with outq := s.outq ++ [.out (symOf s.cur)], cur := s.root } := by
  unfold arrive
  rw [if_pos h]
  simp only [if_neg he]
  rfl

/-- One bit: discarded after the sentinel, else one step down the tree. -/
theorem walkBit_eq_next {b : Bool} {s t : State} :
    walkBit b s = .next t ↔ (s.decDone = true ∧ t = s) ∨
      (s.decDone = false ∧ s.cur ≠ 511#9 ∧ t = arrive { s with cur := childOf (nodeAt s s.cur.toNat) b }) := by
  unfold walkBit
  cases hd : s.decDone
  · rw [if_neg (by simp), withNode_eq_next]
    simp only [Host.Outcome.next.injEq, eq_comm (b := t), reduceCtorEq, false_and, false_or, true_and]
  · rw [if_pos rfl]
    simp only [Host.Outcome.next.injEq, eq_comm (b := t), true_and, reduceCtorEq, false_and, or_false]

theorem walkBits_append (p q : List Bool) (s : State) :
    walkBits (p ++ q) s = andThen (walkBits p s) (walkBits q) := by
  induction p generalizing s with
  | nil => rfl
  | cons b p ih =>
    simp only [List.cons_append, walkBits, andThen_assoc]
    congr 1
    funext u
    exact ih u

/-! ## One step -/

/-- Whether the core is busy is whether `PH` is no boundary state. -/
theorem busyWire_eq_false {s : State} :
    busyWire s = false ↔ s.ph = .idle ∨ s.ph = .enc ∨ s.ph = .dec ∨ s.ph = .fault := by
  unfold busyWire
  cases s.ph <;> simp [phaseCode]

/-- What a step can be: `rst` obeyed, an FSM step of a busy core, a wait, a command run, an illegal word refused. -/
theorem step_cases (s : State) :
    (∃ k moves, s.host = .rst k :: moves ∧ step s = .next (applyReset k { s with host := moves })) ∨
    (busyWire s = true ∧ step s = fsmStep s) ∨
    (busyWire s = false ∧ s.host = [] ∧ step s = .next s) ∨
    (∃ c moves i, busyWire s = false ∧ s.host = .cmd c :: moves ∧ decode c = .ok i ∧
      step s = exec i (transferAll { s with host := moves })) ∨
    (∃ c moves e, busyWire s = false ∧ s.host = .cmd c :: moves ∧ decode c = .error e ∧
      step s = .next (raise .eIllcmd (transferAll { s with host := moves }))) := by
  unfold step turnOf
  rcases hh : s.host with _ | ⟨m, moves⟩
  · cases hb : busyWire s <;> simp
  · cases m with
    | rst k => exact .inl ⟨k, moves, rfl, rfl⟩
    | cmd c =>
      cases hb : busyWire s
      · cases hd : decode c with
        | ok i => exact .inr (.inr (.inr (.inl ⟨c, moves, i, rfl, rfl, hd, by simp [hd]⟩)))
        | error e => exact .inr (.inr (.inr (.inr ⟨c, moves, e, rfl, rfl, hd, by simp [hd, runIllegal]⟩)))
      · exact .inr (.inl ⟨rfl, by simp⟩)

end Sys2Proof.Machine
end

