-- ==== Sys2Proof/Laws/PerInstr.lean ====
section
/-! SUPPORT. Statements about every instruction as syntax, one lemma a constructor: the opcode of an instruction's word
stands in bits 47:40 (30_encoding.md R70, R73). -/

namespace Sys2Proof

/-- The fields of a command word are what it was put together from (R70). -/
theorem opField_commandWord (op : BitVec 8) (x : Byte) (d : BitVec 32) : opField (commandWord op x d) = op := by
  simp only [opField, commandWord]
  rw [BitVec.append_assoc]
  exact BitVec.extractLsb'_append_eq_left

theorem dField_commandWord (op : BitVec 8) (x : Byte) (d : BitVec 32) : dField (commandWord op x d) = d := by
  simp only [dField, commandWord]
  exact BitVec.extractLsb'_append_eq_right

theorem aField_commandWord (op : BitVec 8) (x : Byte) (d : BitVec 32) : aField (commandWord op x d) = x := by
  apply BitVec.eq_of_getLsbD_eq
  intro i hi
  simp only [aField, commandWord, BitVec.getLsbD_extractLsb', BitVec.getLsbD_append]
  simp [hi]

end Sys2Proof

namespace Sys2Proof.Laws.OpcodeField

/-- Bits 47:40 of the instruction's word hold its opcode. -/
def Statement (i : Instr) : Prop := opField (encode i) = i.opcode

theorem nop : Statement .nop := opField_commandWord _ _ _
theorem rst : Statement .rst := opField_commandWord _ _ _
theorem clre : Statement .clre := opField_commandWord _ _ _
theorem rds : Statement .rds := opField_commandWord _ _ _
theorem fclr : Statement .fclr := opField_commandWord _ _ _
theorem fsmp (x : Byte) : Statement (.fsmp x) := opField_commandWord _ _ _
theorem fscl : Statement .fscl := opField_commandWord _ _ _
theorem wrw (x : Byte) (d : Weight) : Statement (.wrw x d) := opField_commandWord _ _ _
theorem rdw (x : Byte) : Statement (.rdw x) := opField_commandWord _ _ _
theorem build : Statement .build := opField_commandWord _ _ _
theorem rdn (x : NodeIndex) : Statement (.rdn x) := opField_commandWord _ _ _
theorem derive : Statement .derive := opField_commandWord _ _ _
theorem rdl (x : Byte) : Statement (.rdl x) := opField_commandWord _ _ _
theorem rdc (x : Byte) (q : BitVec 2) : Statement (.rdc x q) := opField_commandWord _ _ _
theorem encs : Statement .encs := opField_commandWord _ _ _
theorem encb (x : Byte) : Statement (.encb x) := opField_commandWord _ _ _
theorem ence : Statement .ence := opField_commandWord _ _ _
theorem decs : Statement .decs := opField_commandWord _ _ _
theorem decb (x : Byte) : Statement (.decb x) := opField_commandWord _ _ _
theorem dece : Statement .dece := opField_commandWord _ _ _

end Sys2Proof.Laws.OpcodeField
end

