-- ==== Sys2Proof/Tests/Slice0.lean ====
section
/-! SUPPORT. Small tests with expected results from the spec (95_test_vectors.md and the examples of the command rules),
and for every statement with hypotheses a witness that meets them. -/

namespace Sys2Proof.Tests

set_option Elab.async false

open Sys2Proof.Machine Sys2Proof.Safety

/-- The next state of an answer, if it is one. -/
def answered : Answer → Option State
  | .next s => some s
  | _       => none

theorem next_of_answered {r : Answer} {t : State} (h : answered r = some t) : r = .next t := by
  cases r <;> simp_all [answered]

theorem exists_next {r : Answer} {p : State → Prop} [DecidablePred p]
    (h : ((answered r).any fun t => decide (p t)) = true) : ∃ t, r = .next t ∧ p t := by
  cases r <;> simp_all [answered]

/-! ## Decoding: a word of every command, written out from 30_encoding.md R71 and R73 -/

theorem test_decode_system :
    decode 0x000000000000#48 = .ok .nop ∧ decode 0x010000000000#48 = .ok .rst ∧
    decode 0x020000000000#48 = .ok .clre ∧ decode 0x030000000000#48 = .ok .rds := by decide

theorem test_decode_frequency_table :
    decode 0x100000000000#48 = .ok .fclr ∧ decode 0x116100000000#48 = .ok (.fsmp 0x61#8) ∧
    decode 0x120000000000#48 = .ok .fscl ∧ decode 0x1361FFFFFFFF#48 = .ok (.wrw 0x61#8 0xFFFFFFFF#32) ∧
    decode 0x146200000000#48 = .ok (.rdw 0x62#8) := by decide

theorem test_decode_tree_builder :
    decode 0x200000000000#48 = .ok .build ∧ decode 0x2100000001FF#48 = .ok (.rdn 511#9) := by decide

theorem test_decode_code_deriver :
    decode 0x300000000000#48 = .ok .derive ∧ decode 0x310400000000#48 = .ok (.rdl 0x04#8) ∧
    decode 0x326100000002#48 = .ok (.rdc 0x61#8 2#2) := by decide

theorem test_decode_bit_packer :
    decode 0x400000000000#48 = .ok .encs ∧ decode 0x416100000000#48 = .ok (.encb 0x61#8) ∧
    decode 0x420000000000#48 = .ok .ence := by decide

theorem test_decode_bit_unpacker :
    decode 0x500000000000#48 = .ok .decs ∧ decode 0x51C000000000#48 = .ok (.decb 0xC0#8) ∧
    decode 0x520000000000#48 = .ok .dece := by decide

/-- The illegal words of V-SYS-4. -/
theorem test_decode_illegal :
    decode 0xFF0000000000#48 = .error .undefinedOpcode ∧ decode 0x000000000001#48 = .error .mustBeZeroBitSet ∧
    decode 0x416100000001#48 = .error .mustBeZeroBitSet ∧ decode 0x210000000200#48 = .error .mustBeZeroBitSet ∧
    decode 0x320000000004#48 = .error .mustBeZeroBitSet ∧ decode 0x0300000000FF#48 = .error .mustBeZeroBitSet ∧
    decode 0x030100000000#48 = .error .mustBeZeroBitSet := by decide

/-! ## The well-formedness checks refuse an ill-formed term each -/

theorem test_word_checks :
    wordLegal 0x136100000003#48 = true ∧ wordLegal 0xFF0000000000#48 = false ∧
    wordLegal 0x000000000001#48 = false ∧ wordLegal 0x210100000000#48 = false ∧
    wordLegal 0x320000000004#48 = false := by decide

theorem test_line_checks :
    Line.wellFormed ⟨"WRW", [0x61, 3]⟩ = true ∧ Line.wellFormed ⟨"WRX", [0x61, 3]⟩ = false ∧
    Line.wellFormed ⟨"NOP", [0]⟩ = false ∧ Line.wellFormed ⟨"FSMP", []⟩ = false ∧
    Line.wellFormed ⟨"FSMP", [256]⟩ = false ∧ Line.wellFormed ⟨"WRW", [256, 0]⟩ = false ∧
    Line.wellFormed ⟨"WRW", [0, 4294967296]⟩ = false ∧ Line.wellFormed ⟨"RDN", [512]⟩ = false ∧
    Line.wellFormed ⟨"RDC", [256, 0]⟩ = false ∧ Line.wellFormed ⟨"RDC", [0, 4]⟩ = false := by decide

/-- Two lines of P1 and one of V-TB-9 with their words. -/
theorem test_assemble :
    assemble ⟨"WRW", [0x61, 3]⟩ = some 0x136100000003#48 ∧ assemble ⟨"ENCB", [0x62]⟩ = some 0x416200000000#48 ∧
    assemble ⟨"RDN", [511]⟩ = some 0x2100000001FF#48 := by decide

/-- Text in the notation of R80 and R81, and lines it does not have. -/
theorem test_assemble_text :
    assembleProgram ["WRW 0x61, 3 ; a weight".toList, "".toList, "ENCB 'b'".toList, "PREP".toList] =
      some [0x136100000003#48, 0x416200000000#48, 0x200000000000#48, 0x300000000000#48] ∧
    assembleText "RDN 0b101".toList = some [0x210000000005#48] ∧
    assembleText "DECODE [0x58, 12]".toList =
      some [0x500000000000#48, 0x515800000000#48, 0x510C00000000#48, 0x520000000000#48] ∧
    assembleText "ENCODE \"b\"".toList = some [0x400000000000#48, 0x416200000000#48, 0x420000000000#48] ∧
    assembleText "NOP 0".toList = none ∧ assembleText "WRW 1 2".toList = none ∧
    assembleText "ENCODE \"b".toList = none ∧ assembleText "FSMP 0x".toList = none := by decide +kernel

theorem test_expand_encode :
    (Pseudo.encode [0x61#8, 0x62#8]).expand = [.encs, .encb 0x61#8, .encb 0x62#8, .ence] := by decide

theorem test_encode_words :
    encode (.wrw 0x61#8 3#32) = 0x136100000003#48 ∧ encode (.rdn 257#9) = 0x210000000101#48 ∧
    encode (.rdc 0x61#8 1#2) = 0x326100000001#48 := by decide

/-! ## The states of P1, as 95_test_vectors.md lists them -/

/-- The table `sparse3` after reset, with RDS as the host's next command. -/
def sparse3 : State :=
  { State.reset with w := [(4, 1), (0x61, 3), (0x62, 1)], host := [.cmd 0x030000000000#48] }

/-- `sparse3` after BUILD (V-TB-1). -/
def sparse3Tree : State :=
  { sparse3 with
    treeValid := true, root := 257#9, nleaf := 3, nextNode := 258#9, li := 256#9, a := 257#9, b := 0x61#9
    node := [(4, ⟨1, 0, 0⟩), (0x61, ⟨3, 0, 0⟩), (0x62, ⟨1, 0, 0⟩), (256, ⟨2, 0x62#9, 4#9⟩), (257, ⟨5, 0x61#9, 256#9⟩)] }

/-- `sparse3` after BUILD and DERIVE (P1, end state). -/
def sparse3Codes : State :=
  { sparse3Tree with
    codeValid := true, cn := 4#9, cdep := 2#8, path := 3#255, stk := [(0, ⟨4#9, 1#8⟩)]
    code := [(4, ⟨true, 2#8, 3#255⟩), (0x61, ⟨true, 1#8, 0#255⟩), (0x62, ⟨true, 2#8, 1#255⟩)] }

/-- An encode session on it with one bit waiting (V-BP-1, after `ENCB 0x61`). -/
def sparse3Enc : State := { sparse3Codes with ph := .enc, nacc := 1#3 }

/-- A decode session on it. -/
def sparse3Dec : State := { sparse3Tree with ph := .dec, cur := 257#9 }

/-- The one-leaf table of V-TB-5. -/
def single (x : Byte) : State :=
  { State.reset with
    w := [(x.toNat, 7)], node := [(x.toNat, ⟨7, 0, 0⟩)], treeValid := true, root := leafOf x, nleaf := 1, li := 256#9
    a := leafOf x }

/-- A state in `FAULT`. -/
def faulted : State := { State.reset with ph := .fault, err := some .eTrunc }

/-! ## The commands, one step each -/

/-- R201. -/
theorem test_nop : answered (exec .nop faulted) = some faulted := by decide

/-- V-SYS-2: RST in `FAULT`. -/
theorem test_rst : answered (exec .rst faulted) = some State.reset := by decide

/-- R203. -/
theorem test_clre : answered (exec .clre { faulted with nacc := 3#3 }) = some State.reset := by decide

/-- The `STATUS` word of R204's example. -/
theorem test_rds : (answered (exec .rds sparse3Codes)).map (·.outq) = some [.rsp 0x0000000301010003#64] := by
  decide +kernel

/-- V-BP-1: `STATUS` inside an encode session. -/
theorem test_rds_session : (answered (exec .rds sparse3Enc)).map (·.outq) = some [.rsp 0x0000000301010107#64] := by
  decide +kernel

/-- V-FT-2: after FCLR alone. -/
theorem test_fclr :
    (answered (exec .fclr State.reset)).map (fun t => (weightAt t 4, weightAt t 0, weightAt t 255)) = some (2, 1, 1) := by
  decide +kernel

theorem test_fsmp : (answered (exec (.fsmp 0x61#8) sparse3)).map (weightAt · 0x61) = some 4 := by decide +kernel

/-- V-FT-4: the count cannot grow. -/
theorem test_fsmp_ceiling :
    (answered (exec (.fsmp 0x10#8) { State.reset with w := [(0x10, 0xFFFFFFFF)] })).map
      (fun t => (t.ph, t.err, weightAt t 0x10)) = some (.fault, some .eWovf, 0xFFFFFFFF) := by
  decide +kernel

/-- V-FT-5: scaling, saturation and the clamp. -/
theorem test_fscl :
    (answered (exec .fscl { State.reset with w := [(0x10, 4294967), (0x11, 4294968)] })).map
      (fun t => (t.err, weightAt t 0x10, weightAt t 0x11, weightAt t 0x12)) =
    some (some .eWovf, 0xFFFFFED8, 0xFFFFFFFF, 1) := by
  decide +kernel

/-- R94's example; a weight of zero is not listed. -/
theorem test_wrw : (answered (exec (.wrw 0x61#8 0#32) sparse3)).map (·.w) = some [(4, 1), (0x62, 1)] := by
  decide +kernel

theorem test_rdw : (answered (exec (.rdw 0x61#8) sparse3)).map (·.outq) = some [.rsp 3#64] := by decide +kernel

/-- V-TB-1. -/
theorem test_build : answered (exec .build sparse3) = some sparse3Tree := by decide +kernel

/-- V-TB-7: the empty table. -/
theorem test_build_empty :
    (answered (exec .build State.reset)).map (fun t => (t.ph, t.err, t.li, t.nextNode)) =
      some (.fault, some .eEmpty, 256#9, 256#9) := by
  decide +kernel

/-- V-TB-1: `RDN 257`. -/
theorem test_rdn : (answered (exec (.rdn 257#9) sparse3Tree)).map (·.outq) = some [.rsp 0x0200610000000005#64] := by
  decide +kernel

/-- V-TB-9. -/
theorem test_rdn_range :
    (answered (exec (.rdn 511#9) State.reset)).map (fun t => (t.ph, t.err, t.outq)) = some (.fault, some .eRange, []) := by
  decide

/-- P1, command 5. -/
theorem test_derive : answered (exec .derive sparse3Tree) = some sparse3Codes := by decide +kernel

/-- V-CD-8. -/
theorem test_derive_without_tree : (answered (exec .derive State.reset)).map (·.err) = some (some .eSeq) := by decide

/-- V-CD-1. -/
theorem test_rdl : (answered (exec (.rdl 0x62#8) sparse3Codes)).map (·.outq) = some [.rsp 0x102#64] := by
  decide +kernel

/-- V-CD-1. -/
theorem test_rdc : (answered (exec (.rdc 0x04#8 0#2) sparse3Codes)).map (·.outq) = some [.rsp 3#64] := by
  decide +kernel

/-- R161's example. -/
theorem test_encs : (answered (exec .encs sparse3Codes)).map (fun t => (t.ph, t.acc, t.nacc)) = some (.enc, 0, 0) := by
  decide +kernel

/-- V-BP-1: after the second byte. -/
theorem test_encb :
    (answered (exec (.encb 0x62#8) sparse3Enc)).map (fun t => (t.acc, t.nacc, t.outq)) = some (0x40, 3, []) := by
  decide +kernel

/-- V-BP-6. -/
theorem test_encb_no_code :
    (answered (exec (.encb 0x63#8) sparse3Enc)).map (fun t => (t.ph, t.err, t.nacc)) = some (.fault, some .eNocode, 1) := by
  decide +kernel

/-- V-SYS-3: one waiting bit and the sentinel's code. -/
theorem test_ence :
    (answered (exec .ence sparse3Enc)).map (fun t => (t.ph, t.nacc, t.outq)) = some (.idle, 0, [.out 0x60]) := by
  decide +kernel

/-- R181's example. -/
theorem test_decs : answered (exec .decs sparse3Tree) = some sparse3Dec := by decide +kernel

/-- R182. -/
theorem test_decs_degenerate : (answered (exec .decs (single 0x41#8))).map (·.err) = some (some .eDegen) := by decide

/-- R183's example: `DECB 0x58`. -/
theorem test_decb :
    (answered (exec (.decb 0x58#8) sparse3Dec)).map (fun t => (t.decDone, t.cur, t.outq)) =
      some (true, 257#9, [.out 0x61, .out 0x62]) := by
  decide +kernel

/-- V-BU-9: `DECB 0x01` ends inside a code. -/
theorem test_decb_inside :
    (answered (exec (.decb 0x01#8) sparse3Dec)).map (fun t => (t.decDone, t.cur, t.outq.length)) =
      some (false, 256#9, 7) := by
  decide +kernel

/-- V-BU-8: DECE with no byte. -/
theorem test_dece : (answered (exec .dece sparse3Dec)).map (·.err) = some (some .eTrunc) := by decide

/-- V-BU-9. -/
theorem test_dece_inside :
    (answered (exec .dece { sparse3Dec with cur := 256#9 })).map (·.err) = some (some .eMidpath) := by decide

/-- V-BP-1's note: with `LSB_FIRST` the byte would be 0x1A. -/
theorem test_lsb_first :
    (answered (execAll (Pseudo.encode [0x61#8, 0x62#8]).expand
      { sparse3Codes with cfg := { Config.huffcore with bitOrder := .lsbFirst } })).map (·.outq) = some [.out 0x1A] := by
  decide +kernel

/-- The first instruction after reset, placed by `withFetchWord`. -/
theorem test_fetch :
    (answered (step (State.reset.withFetchWord 48 0x136100000003))).map (·.w) = some [(0x61, 3)] := by
  decide +kernel

/-! ## Witnesses: a state that meets the hypotheses of each statement -/

theorem wf_of_listed : Canonical sparse3Codes :=
  ⟨by decide +kernel, by decide +kernel, by decide +kernel, by decide +kernel, by decide⟩

theorem tree_sparse3 : TreeShape sparse3Tree where
  count := by decide +kernel
  some_ := by decide
  most := by decide
  next := by decide
  root := by decide
  last := by decide
  internal := fun i _ h => by
    have hn : sparse3Tree.nextNode.toNat = 258 := rfl
    have : i = 256 ∨ i = 257 := by omega
    rcases this with rfl | rfl
    · exact ⟨by decide +kernel, by decide +kernel, by decide, by decide, by decide, by decide⟩
    · exact ⟨by decide +kernel, by decide +kernel, by decide, by decide, by decide, by decide⟩
  parent := by decide +kernel

theorem tree_sparse3Codes : TreeShape sparse3Codes where
  count := tree_sparse3.count
  some_ := tree_sparse3.some_
  most := tree_sparse3.most
  next := tree_sparse3.next
  root := tree_sparse3.root
  last := tree_sparse3.last
  internal := fun i h1 h2 =>
    let h := tree_sparse3.internal i h1 h2
    ⟨h.left, h.right, h.distinct, h.leftLt, h.rightLt, h.weight⟩
  parent := tree_sparse3.parent

theorem codes_sparse3 : CodeTable sparse3Codes := fun x =>
  have valid : ∀ x : Byte, (codeAt sparse3Codes x).valid = true ↔ (nodeAt sparse3Codes x.toNat).w ≠ 0 := by
    decide +kernel
  have leads : ∀ x : Byte, (codeAt sparse3Codes x).valid = true →
      walk sparse3Codes sparse3Codes.root (codeBits (codeAt sparse3Codes x)) = some (leafOf x) := by decide +kernel
  have zero : ∀ x : Byte, (codeAt sparse3Codes x).bits.toNat < 2 ^ (codeAt sparse3Codes x).len.toNat := by
    decide +kernel
  have invalid : ∀ x : Byte, (codeAt sparse3Codes x).valid = false → codeAt sparse3Codes x = emptyCode := by
    decide +kernel
  ⟨valid x, leads x, zero x, invalid x⟩

/-- The invariants hold of P1's end state. -/
theorem inv_sparse3Codes : Inv sparse3Codes where
  canonical := wf_of_listed
  registers := {
    boundary := .inl rfl
    err := by decide
    queue := rfl
    waiting := fun _ => by decide
    filling := fun h => (by cases h)
    tables := fun _ => rfl }
  tree := fun _ => tree_sparse3Codes
  codes := fun _ => codes_sparse3
  session := {
    codes := fun h => (by cases h)
    sentinel := fun h => (by cases h)
    tree := fun h => (by cases h)
    inside := fun h => (by cases h)
    reached := fun h => (by cases h) }

/-- The invariants hold inside an encode session. -/
theorem inv_sparse3Enc : Inv sparse3Enc where
  canonical := ⟨wf_of_listed.w, wf_of_listed.node, wf_of_listed.code, wf_of_listed.stk, wf_of_listed.pq⟩
  registers := {
    boundary := .inr (.inl rfl)
    err := by decide
    queue := rfl
    waiting := fun h => (by rcases h with h | h <;> cases h)
    filling := fun _ => by decide
    tables := fun _ => rfl }
  tree := fun _ => {
    count := tree_sparse3.count, some_ := tree_sparse3.some_, most := tree_sparse3.most, next := tree_sparse3.next
    root := tree_sparse3.root, last := tree_sparse3.last, parent := tree_sparse3.parent
    internal := fun i h1 h2 =>
      let h := tree_sparse3.internal i h1 h2
      ⟨h.left, h.right, h.distinct, h.leftLt, h.rightLt, h.weight⟩ }
  codes := fun _ x =>
    have leads : ∀ x : Byte, (codeAt sparse3Enc x).valid = true →
        walk sparse3Enc sparse3Enc.root (codeBits (codeAt sparse3Enc x)) = some (leafOf x) := by decide +kernel
    ⟨(codes_sparse3 x).valid, leads x, (codes_sparse3 x).zero, (codes_sparse3 x).invalid⟩
  session := {
    codes := fun _ => rfl
    sentinel := fun _ => by decide +kernel
    tree := fun h => (by cases h)
    inside := fun h => (by cases h)
    reached := fun h => (by cases h) }

theorem tree_sparse3Dec : TreeShape sparse3Dec where
  count := tree_sparse3.count
  some_ := tree_sparse3.some_
  most := tree_sparse3.most
  next := tree_sparse3.next
  root := tree_sparse3.root
  last := tree_sparse3.last
  internal := fun i h1 h2 =>
    let h := tree_sparse3.internal i h1 h2
    ⟨h.left, h.right, h.distinct, h.leftLt, h.rightLt, h.weight⟩
  parent := tree_sparse3.parent

/-- The invariants hold inside a decode session. -/
theorem inv_sparse3Dec : Inv sparse3Dec where
  canonical := ⟨by decide +kernel, by decide +kernel, by decide +kernel, by decide +kernel, by decide⟩
  registers := {
    boundary := .inr (.inr (.inl rfl))
    err := by decide
    queue := rfl
    waiting := fun _ => by decide
    filling := fun h => (by cases h)
    tables := fun h => (by cases h) }
  tree := fun _ => tree_sparse3Dec
  codes := fun h => (by cases h)
  session := {
    codes := fun h => (by cases h)
    sentinel := fun h => (by cases h)
    tree := fun _ => rfl
    inside := fun _ _ => by decide
    reached := fun _ _ => ⟨[], rfl⟩ }

/-- The one-leaf tree has the shape. -/
theorem tree_single : TreeShape (single 4#8) where
  count := by decide +kernel
  some_ := by decide
  most := by decide
  next := by decide
  root := by decide +kernel
  last := by decide
  internal := fun i _ h => by
    have hn : (single 4#8).nextNode.toNat = 256 := rfl
    omega
  parent := by decide +kernel

theorem witness_EncodeOfDecode : decode 0x2100000001FF#48 = .ok (.rdn 511#9) := by decide

theorem witness_DecodeAgreesWithTable : decode 0x320400000003#48 = .ok (.rdc 4#8 3#2) := by decide

theorem witness_LinesAssemble :
    assemble ⟨"RDN", [511]⟩ = some 0x2100000001FF#48 ∧ assemble ⟨"WRW", [255, 4294967295]⟩ = some 0x13FFFFFFFFFF#48 := by
  decide

theorem witness_StepRunsDecoded :
    sparse3.host = [.cmd 0x030000000000#48] ∧ Boundary sparse3 ∧ decode 0x030000000000#48 = .ok .rds := by decide

theorem witness_StepRefusesIllegal :
    ({ faulted with host := [.cmd 0xFF0000000000#48] } : State).host = [.cmd 0xFF0000000000#48] ∧
    Boundary { faulted with host := [.cmd 0xFF0000000000#48] } ∧ faulted.ph = .fault ∧
    Boundary { State.reset with host := [.cmd 0xFF0000000000#48] } ∧ State.reset.ph ≠ .fault ∧
    decode 0xFF0000000000#48 = .error .undefinedOpcode := by decide

/-- In a busy state, with no event and with one event taken of two. -/
theorem witness_StepObeysReset :
    ({ buildStart sparse3 with host := [.rst 0] } : State).host = [.rst 0] ∧
    answered (step { buildStart sparse3 with host := [.rst 1], outq := [.out 1, .out 2] }) =
      some { State.reset with seen := [.out 1] } := by decide +kernel

theorem witness_BusyCoreAcceptsNothing :
    ¬ Boundary (buildStart sparse3) ∧ (∀ taken moves, (buildStart sparse3).host ≠ .rst taken :: moves) ∧
    ∃ t, fsmStep (buildStart sparse3) = .next t ∧ t.li = 1#9 :=
  ⟨by decide, fun _ _ h => (by cases h), exists_next (by decide +kernel)⟩

theorem witness_FaultStateHolds :
    faulted.ph = .fault ∧ commandClass .build ≠ .always ∧ Instr.rds ≠ .clre ∧ Instr.rds ≠ .rst := by decide

theorem witness_RaiseRecordsFirstFault : State.reset.ph ≠ .fault ∧ faulted.ph = .fault := by decide

/-- The three forms of the statement: a fault that leaves the state, FSCL's and BUILD's. -/
theorem witness_FaultsArePrecise :
    (∃ t, exec .derive State.reset = .next t ∧ t.ph = .fault) ∧
    (∃ t, exec .fscl { State.reset with w := [(0x11, 4294968)] } = .next t ∧ t.ph = .fault) ∧
    (∃ t, exec .build State.reset = .next t ∧ t.ph = .fault) :=
  ⟨exists_next (by decide +kernel), exists_next (by decide +kernel), exists_next (by decide +kernel)⟩

/-- Each fault but `E_ILLCMD` is raised by a command. -/
theorem witness_CommandsRaiseTheirFaults :
    (∃ t, exec .ence State.reset = .next t ∧ t.ph = .fault ∧ t.err = some .eSeq) ∧
    (∃ t, exec .build State.reset = .next t ∧ t.ph = .fault ∧ t.err = some .eEmpty) ∧
    (∃ t, exec (.fsmp 1#8) { State.reset with w := [(1, 0xFFFFFFFF)] } = .next t ∧ t.ph = .fault ∧ t.err = some .eWovf) ∧
    (∃ t, exec (.encb 1#8) sparse3Enc = .next t ∧ t.ph = .fault ∧ t.err = some .eNocode) ∧
    (∃ t, exec .dece sparse3Dec = .next t ∧ t.ph = .fault ∧ t.err = some .eTrunc) ∧
    (∃ t, exec .dece { sparse3Dec with cur := 256#9 } = .next t ∧ t.ph = .fault ∧ t.err = some .eMidpath) ∧
    (∃ t, exec .decs (single 5#8) = .next t ∧ t.ph = .fault ∧ t.err = some .eDegen) ∧
    (∃ t, exec (.rdn 511#9) State.reset = .next t ∧ t.ph = .fault ∧ t.err = some .eRange) :=
  ⟨exists_next (by decide +kernel), exists_next (by decide +kernel), exists_next (by decide +kernel),
    exists_next (by decide +kernel), exists_next (by decide +kernel), exists_next (by decide +kernel),
    exists_next (by decide +kernel), exists_next (by decide +kernel)⟩

/-- A command that is in none of the lists, and one in some of them that leaves the other columns; of the commands that
do not list `PH`, one that keeps it and one that raises a fault; one that lists `PH` and keeps `ERR`. -/
theorem witness_AccessMatrix :
    (∃ t, exec (.encb 0x62#8) sparse3Enc = .next t ∧ t.w = sparse3Enc.w ∧ t.acc ≠ sparse3Enc.acc) ∧
    (∃ t, exec (.rdw 0x62#8) sparse3Enc = .next t ∧ t.acc = sparse3Enc.acc) ∧
    Instr.opcode (.rdw 0x62#8) ∉
      [0x01#8, 0x02#8, 0x10#8, 0x11#8, 0x12#8, 0x13#8, 0x20#8, 0x30#8, 0x40#8, 0x41#8, 0x42#8, 0x50#8, 0x51#8, 0x52#8] ∧
    (∃ t, exec (.rdw 0x62#8) sparse3Enc = .next t ∧ t.ph = sparse3Enc.ph ∧ t.err = sparse3Enc.err) ∧
    (∃ t, exec (.encb 0x63#8) sparse3Enc = .next t ∧ t.ph = .fault ∧ t.err = some .eNocode) ∧
    Instr.opcode (.encb 0x63#8) ∉ [0x01#8, 0x02#8, 0x20#8, 0x30#8, 0x40#8, 0x42#8, 0x50#8, 0x52#8] ∧
    (∃ t, exec .ence sparse3Enc = .next t ∧ t.ph = .idle ∧ t.err = sparse3Enc.err) ∧
    Instr.opcode .ence ∉ [0x01#8, 0x02#8] :=
  ⟨exists_next (by decide +kernel), exists_next (by decide +kernel), by decide, exists_next (by decide +kernel),
    exists_next (by decide +kernel), by decide, exists_next (by decide +kernel), by decide⟩

theorem witness_OutputOnlyGrows :
    (∃ t, exec .rds sparse3 = .next t ∧ t.outq.length = 1) ∧
    (∀ taken moves, sparse3.host ≠ .rst taken :: moves) ∧ (∃ t, step sparse3 = .next t ∧ observed t ≠ observed sparse3) ∧
    (∃ t, step { sparse3 with host := [.rst 1], outq := [.out 1, .out 2] } = .next t ∧ t.seen = [.out 1]) :=
  ⟨exists_next (by decide +kernel), fun _ _ h => (by cases h), exists_next (by decide +kernel),
    exists_next (by decide +kernel)⟩

/-- Each boundary state, for the statements about commands of class `always` and for `FaultsIn`. -/
theorem witness_boundary :
    Boundary sparse3 ∧ sparse3.ph = .idle ∧ Boundary sparse3Enc ∧ sparse3Enc.ph = .enc ∧
    Boundary sparse3Dec ∧ sparse3Dec.ph = .dec ∧ Boundary faulted ∧ faulted.ph = .fault := by decide

theorem witness_NopDoesNothing : Boundary sparse3Enc := by decide

theorem witness_RstRestoresReset : Boundary sparse3Dec := by decide

theorem witness_ClreLeavesFault : faulted.ph = .fault ∧ (sparse3.ph = .idle ∨ sparse3.ph = .enc ∨ sparse3.ph = .dec) := by
  decide

theorem witness_RdsAnswersStatus : Boundary faulted := by decide

theorem witness_FaultsIn :
    sparse3Enc.ph ∈ [Phase.enc, .dec] ∧ sparse3Dec.ph ∈ [Phase.enc, .dec] ∧ sparse3Dec.ph ∈ [Phase.idle, .dec] ∧
    sparse3Enc.ph ∈ [Phase.idle, .enc] ∧ faulted.ph = .fault := by decide

theorem witness_FclrSetsFloor : sparse3.ph = .idle := by decide

/-- One below the ceiling and at it. -/
theorem witness_FsmpCounts :
    (weightAt { State.reset with w := [(1, 0xFFFFFFFE)] } (1#8).toNat).toNat < 2 ^ 32 - 1 ∧
    (weightAt { State.reset with w := [(1, 0xFFFFFFFF)] } (1#8).toNat).toNat = 2 ^ 32 - 1 ∧ State.reset.ph = .idle := by
  decide +kernel

/-- The greatest weight that fits and the least that does not. -/
theorem witness_FsclScales :
    State.reset.ph = .idle ∧
    (∀ y : Byte, (weightAt { State.reset with w := [(1, 4294967)] } y.toNat).toNat * State.reset.cfg.scale.toNat ≤
      2 ^ 32 - 1) ∧
    2 ^ 32 - 1 < (weightAt { State.reset with w := [(1, 4294968)] } (1#8).toNat).toNat * State.reset.cfg.scale.toNat := by
  decide +kernel

theorem witness_WrwWritesWeight : State.reset.ph = .idle := by decide

theorem witness_RdwAnswersWeight : Boundary sparse3Enc := by decide

/-- V-FT-1: the sample `abca`. -/
theorem witness_FtblClosedForm :
    State.reset.ph = .idle ∧
    ∃ t, execAll (Pseudo.ftbl [0x61#8, 0x62#8, 0x63#8, 0x61#8]).expand State.reset = .next t ∧
      t.ph = .idle ∧ weightAt t 0x61 = 3000 ∧ weightAt t 0x62 = 2000 ∧ weightAt t 4 = 2000 ∧ weightAt t 0 = 1000 :=
  ⟨rfl, exists_next (by decide +kernel)⟩

/-- A queue of two trees of equal weight. -/
def twoWaiting : State := { sparse3Tree with pq := [4#9, 0x62#9] }

theorem witness_QueueGivesLeast :
    twoWaiting.pq ≠ [] ∧ 511#9 ∉ twoWaiting.pq ∧ minMember twoWaiting twoWaiting.pq = some 4#9 := by decide

theorem witness_BuildOfEmptyTable :
    State.reset.ph = .idle ∧ ∀ y : Byte, weightAt State.reset y.toNat = 0 := by decide +kernel

theorem witness_BuildMakesTree : sparse3.ph = .idle ∧ ∃ y : Byte, weightAt sparse3 y.toNat ≠ 0 :=
  ⟨rfl, 4#8, by decide⟩

/-- The first and the last internal node. -/
theorem witness_BuildMergesLeastTwo :
    sparse3.ph = .idle ∧ exec .build sparse3 = .next sparse3Tree ∧ sparse3Tree.treeValid = true ∧
    (256 ≤ 256 ∧ 256 < sparse3Tree.nextNode.toNat) ∧ (256 ≤ 257 ∧ 257 < sparse3Tree.nextNode.toNat) :=
  ⟨rfl, next_of_answered test_build, rfl, by decide, by decide⟩

theorem witness_BuildConservesWeight :
    sparse3.ph = .idle ∧ exec .build sparse3 = .next sparse3Tree ∧ sparse3Tree.treeValid = true ∧
    (nodeAt sparse3Tree sparse3Tree.root.toNat).w.toNat = 5 :=
  ⟨rfl, next_of_answered test_build, rfl, by decide⟩

/-- The same weights, once after reset and once after a first BUILD. -/
theorem witness_BuildDependsOnWeightsAlone :
    sparse3.ph = .idle ∧ sparse3Tree.ph = .idle ∧
    (∀ y : Byte, weightAt sparse3 y.toNat = weightAt sparse3Tree y.toNat) ∧
    exec .build sparse3 = .next sparse3Tree ∧ (∃ t, exec .build sparse3Tree = .next t ∧ t.treeValid = true) ∧
    sparse3Tree.treeValid = true :=
  ⟨rfl, rfl, fun _ => rfl, next_of_answered test_build, exists_next (by decide +kernel), rfl⟩

theorem witness_BuildOfSingleWeight :
    (single 0x41#8).ph = .idle ∧ weightAt (single 0x41#8) (0x41#8).toNat ≠ 0 ∧
    ∀ y : Byte, y ≠ 0x41#8 → weightAt (single 0x41#8) y.toNat = 0 := by decide +kernel

/-- The numbers of steps for no leaf and for three (R124). -/
theorem witness_FsmRefinesBuild :
    State.reset.ph = .idle ∧ buildSteps (weightCount State.reset) = 257 ∧
    sparse3.ph = .idle ∧ buildSteps (weightCount sparse3) = 266 := by decide +kernel

/-- Every row of the two transition tables. -/
theorem witness_FsmTransitions :
    (∃ t, fsmStep { sparse3 with ph := .tbLoad, li := 254#9 } = .next t ∧ t.ph = .tbLoad) ∧
    (∃ t, fsmStep { sparse3 with ph := .tbLoad, li := 255#9 } = .next t ∧ t.ph = .tbXa) ∧
    (∃ t, fsmStep { sparse3 with ph := .tbXa } = .next t ∧ t.ph = .fault) ∧
    (∃ t, fsmStep { twoWaiting with ph := .tbXa } = .next t ∧ t.ph = .tbChk) ∧
    (∃ t, fsmStep { sparse3 with ph := .tbChk } = .next t ∧ t.ph = .idle) ∧
    (∃ t, fsmStep { twoWaiting with ph := .tbChk } = .next t ∧ t.ph = .tbXb) ∧
    (∃ t, fsmStep { twoWaiting with ph := .tbXb } = .next t ∧ t.ph = .tbMerge) ∧
    (∃ t, fsmStep { twoWaiting with ph := .tbMerge, nextNode := 510#9 } = .next t ∧ t.ph = .tbXa) ∧
    (∃ t, fsmStep { sparse3Tree with ph := .cdVisit, cn := 4#9 } = .next t ∧ t.ph = .cdPop) ∧
    (∃ t, fsmStep { sparse3Tree with ph := .cdVisit, cn := 256#9, sp := 254#8 } = .next t ∧ t.ph = .cdVisit) ∧
    (∃ t, fsmStep { sparse3Tree with ph := .cdPop } = .next t ∧ t.ph = .idle) ∧
    (∃ t, fsmStep { sparse3Codes with ph := .cdPop, sp := 1#8 } = .next t ∧ t.ph = .cdVisit) :=
  ⟨exists_next (by decide +kernel), exists_next (by decide +kernel), exists_next (by decide +kernel),
    exists_next (by decide +kernel), exists_next (by decide +kernel), exists_next (by decide +kernel),
    exists_next (by decide +kernel), exists_next (by decide +kernel), exists_next (by decide +kernel),
    exists_next (by decide +kernel), exists_next (by decide +kernel), exists_next (by decide +kernel)⟩

theorem witness_RdnAnswersNode :
    Boundary sparse3 ∧ 510#9 ≠ 511#9 ∧ sparse3.ph ≠ .fault ∧ Boundary faulted ∧ faulted.ph = .fault := by decide

theorem witness_DeriveMakesCodeTable :
    (State.reset.ph = .idle ∧ State.reset.treeValid = false) ∧
    (sparse3Tree.ph = .idle ∧ sparse3Tree.treeValid = true ∧ TreeShape sparse3Tree) ∧
    ((single 4#8).ph = .idle ∧ (single 4#8).treeValid = true ∧ TreeShape (single 4#8)) :=
  ⟨⟨rfl, rfl⟩, ⟨rfl, rfl, tree_sparse3⟩, ⟨rfl, rfl, tree_single⟩⟩

/-- The numbers of steps for three leaves and for one (R150). -/
theorem witness_FsmRefinesDerive :
    (sparse3Tree.ph = .idle ∧ sparse3Tree.treeValid = true ∧ TreeShape sparse3Tree ∧
      deriveSteps sparse3Tree.nleaf.toNat = 8) ∧
    ((single 4#8).ph = .idle ∧ (single 4#8).treeValid = true ∧ TreeShape (single 4#8) ∧
      deriveSteps (single 4#8).nleaf.toNat = 2) :=
  ⟨⟨rfl, rfl, tree_sparse3, rfl⟩, ⟨rfl, rfl, tree_single, rfl⟩⟩

theorem witness_TreePathsBoundedAndUnique :
    TreeShape sparse3Tree ∧ walk sparse3Tree sparse3Tree.root [true, true] = some 4#9 := ⟨tree_sparse3, by decide⟩

theorem witness_CodesPrefixFree :
    CodeTable sparse3Codes ∧ (codeAt sparse3Codes 4#8).valid = true ∧ (codeAt sparse3Codes 0x61#8).valid = true ∧
    (4#8 : Byte) ≠ 0x61#8 := ⟨codes_sparse3, by decide, by decide, by decide⟩

theorem witness_RdlAnswersLength : Boundary sparse3Dec := by decide

theorem witness_RdcAnswersChunk : Boundary sparse3Codes := by decide

theorem witness_EncsOpensSession :
    (State.reset.ph = .idle ∧ State.reset.codeValid = false) ∧
    (sparse3Codes.ph = .idle ∧ sparse3Codes.codeValid = true ∧
      (codeAt sparse3Codes sparse3Codes.cfg.eotSym).valid = true) ∧
    (codeAt { sparse3Codes with cfg := { Config.huffcore with eotSym := 5#8 } } 5#8).valid = false := by decide

theorem witness_PushBitFillsByte :
    (sparse3Codes.nacc.toNat < 7 ∧ ({ sparse3Enc with nacc := 6#3 } : State).nacc.toNat < 7) ∧
    ({ sparse3Enc with nacc := 7#3 } : State).nacc.toNat = 7 := by decide

/-- A byte with a code and one without, with no bit and with seven bits waiting. -/
theorem witness_EncbPacksCode :
    sparse3Enc.ph = .enc ∧ PadOk sparse3Enc ∧ PadOk { sparse3Enc with nacc := 0 } ∧ PadOk { sparse3Enc with nacc := 7#3 } ∧
    (codeAt sparse3Enc 0x62#8).valid = true ∧ (codeAt sparse3Enc 0x63#8).valid = false := by decide

theorem witness_EnceClosesSession :
    sparse3Enc.ph = .enc ∧ PadOk sparse3Enc ∧ PadOk { sparse3Enc with nacc := 0 } := by decide

/-- P1's data, and no data. -/
theorem witness_EncodeSessionPacks :
    sparse3Codes.ph = .idle ∧ sparse3Codes.codeValid = true ∧
    (codeAt sparse3Codes sparse3Codes.cfg.eotSym).valid = true ∧
    (∀ x ∈ [0x61#8, 0x62#8], (codeAt sparse3Codes x).valid = true) ∧
    packedStream sparse3Codes [0x61#8, 0x62#8] = [0x58#8] ∧ packedStream sparse3Codes [] = [0xC0#8] := by decide +kernel

/-- No tree; an internal root; the sentinel alone; another symbol alone. -/
theorem witness_DecsOpensSession :
    (State.reset.ph = .idle ∧ State.reset.treeValid = false) ∧
    (sparse3Tree.ph = .idle ∧ sparse3Tree.treeValid = true ∧ 256 ≤ sparse3Tree.root.toNat) ∧
    (single 4#8).root.toNat = (single 4#8).cfg.eotSym.toNat ∧
    ((single 255#8).root.toNat < 256 ∧ (single 255#8).root.toNat ≠ (single 255#8).cfg.eotSym.toNat) := by decide

theorem witness_DecbWalksByte :
    sparse3Dec.ph = .dec ∧ ({ sparse3Dec with decDone := true } : State).decDone = true ∧ sparse3Dec.decDone = false ∧
    TreeShape sparse3Dec ∧ InTree sparse3Dec sparse3Dec.cur.toNat ∧ 256 ≤ sparse3Dec.cur.toNat :=
  ⟨rfl, rfl, rfl, tree_sparse3Dec, by decide, by decide⟩

theorem witness_DeceClosesSession :
    sparse3Dec.ph = .dec ∧ ({ sparse3Dec with decDone := true } : State).decDone = true ∧ sparse3Dec.decDone = false ∧
    ({ sparse3Dec with cur := 256#9 } : State).cur ≠ sparse3Dec.root ∧ sparse3Dec.cur = sparse3Dec.root := by decide

/-- V-BU-1's byte ends the session; V-BU-9's ends inside a code. -/
theorem witness_DecodeSessionWalks :
    sparse3Tree.ph = .idle ∧ sparse3Tree.treeValid = true ∧ TreeShape sparse3Tree ∧ 256 ≤ sparse3Tree.root.toNat ∧
    (decodeBits sparse3Tree sparse3Tree.root (bytesBits sparse3Tree [0x58#8])).done = true ∧
    (decodeBits sparse3Tree sparse3Tree.root (bytesBits sparse3Tree [0x01#8])).done = false :=
  ⟨rfl, rfl, tree_sparse3, by decide, by decide +kernel, by decide +kernel⟩

/-- P1's data with its padding bits at 1 and a byte after. -/
theorem witness_PaddingDoesNotMatter :
    sparse3Codes.ph = .idle ∧ sparse3Codes.treeValid = true ∧ TreeShape sparse3Codes ∧ CodeTable sparse3Codes ∧
    (codeAt sparse3Codes sparse3Codes.cfg.eotSym).valid = true ∧
    (∀ x ∈ [0x61#8, 0x62#8], (codeAt sparse3Codes x).valid = true) ∧
    bitsOf sparse3Codes [0x61#8, 0x62#8] <+: bytesBits sparse3Codes [0x5F#8, 0xAA#8] :=
  ⟨rfl, rfl, tree_sparse3Codes, codes_sparse3, by decide, by decide, by decide +kernel⟩

theorem witness_RoundTrip :
    sparse3.ph = .idle ∧ State.reset.ph = .idle ∧ sparse3.cfg = State.reset.cfg ∧
    (∀ y : Byte, weightAt { sparse3 with host := [] } y.toNat = weightAt sparse3 y.toNat) ∧
    weightAt sparse3 sparse3.cfg.eotSym.toNat ≠ 0 ∧ ∀ x ∈ [0x61#8, 0x62#8], weightAt sparse3 x.toNat ≠ 0 :=
  ⟨rfl, rfl, rfl, fun _ => rfl, by decide, by decide⟩

theorem witness_CanonicalKept :
    Canonical sparse3Codes ∧ ∃ t, step sparse3Codes = .next t ∧ t.outq = [.rsp 0x0000000301010003#64] :=
  ⟨wf_of_listed, exists_next (by decide +kernel)⟩

theorem witness_ParametersFixed : ∃ t, step sparse3 = .next t ∧ t.cfg = Config.huffcore := exists_next (by decide +kernel)

/-- For RegistersKept, TablesKept, SessionKept and NoStepStops: in `IDLE`, in an encode and in a decode session. -/
theorem witness_Inv :
    (Inv sparse3Codes ∧ ∃ t, step sparse3Codes = .next t ∧ t.ph = .idle) ∧
    (Inv sparse3Enc ∧ ∃ t, step sparse3Enc = .next t ∧ t.ph = .enc) ∧
    (Inv sparse3Dec ∧ ∃ t, step sparse3Dec = .next t ∧ t.ph = .dec) :=
  ⟨⟨inv_sparse3Codes, exists_next (by decide +kernel)⟩, ⟨inv_sparse3Enc, exists_next (by decide +kernel)⟩,
    ⟨inv_sparse3Dec, exists_next (by decide +kernel)⟩⟩

end Sys2Proof.Tests
end

/-! SUPPORT. Proofs of the statements of 00_scope.md: what a step does with the host's next move, that the FSM and the
two long commands leave the host's side of the state alone, and that no step writes the parameters. -/

namespace Sys2Proof.Machine

/-! ## The turn of a state -/

/-- At a command boundary the word offered is accepted (20_memory.md R58). -/
theorem turnOf_command {s : State} {c : Command} {moves : List HostMove} (hhost : s.host = .cmd c :: moves)
    (hboundary : busyWire s = false) : turnOf s = .accept c (transferAll { s with host := moves }) := by
  simp [turnOf, hhost, hboundary]

/-- A busy core without `rst` makes an FSM step, whether a word is offered or not (00_scope.md R7). -/
theorem turnOf_busy {s : State} (hbusy : busyWire s = true) (hrst : ∀ taken moves, s.host ≠ .rst taken :: moves) :
    turnOf s = .fsm := by
  rcases hhost : s.host with _ | ⟨_ | taken, moves⟩
  · simp [turnOf, hhost, hbusy]
  · simp [turnOf, hhost, hbusy]
  · exact absurd hhost (hrst taken moves)

/-- The step that accepts a legal word. -/
theorem step_decoded {s : State} {c : Command} {moves : List HostMove} {i : Instr} (hhost : s.host = .cmd c :: moves)
    (hboundary : busyWire s = false) (hdecode : decode c = .ok i) :
    step s = exec i (transferAll { s with host := moves }) := by
  simp [step, turnOf_command hhost hboundary, hdecode]

/-- The step of a busy core without `rst`. -/
theorem step_busy {s : State} (hbusy : busyWire s = true) (hrst : ∀ taken moves, s.host ≠ .rst taken :: moves) :
    step s = fsmStep s := by
  simp [step, turnOf_busy hbusy hrst]

/-! ## What the FSM leaves alone -/

/-- `t` has the host's side of `s`: the parameters, the moves to come, the events waiting and the events taken. -/
structure SameHostSide (s t : State) : Prop where
  cfg  : t.cfg = s.cfg
  host : t.host = s.host
  outq : t.outq = s.outq
  seen : t.seen = s.seen

theorem SameHostSide.refl (s : State) : SameHostSide s s := ⟨rfl, rfl, rfl, rfl⟩

theorem SameHostSide.trans {s t u : State} (h : SameHostSide s t) (h' : SameHostSide t u) : SameHostSide s u :=
  ⟨h'.cfg.trans h.cfg, h'.host.trans h.host, h'.outq.trans h.outq, h'.seen.trans h.seen⟩

/-- Two operations one after the other. -/
theorem sameHostSide_andThen {r : Answer} {f : State → Answer} {s t : State} (h : andThen r f = .next t)
    (hr : ∀ u, r = .next u → SameHostSide s u) (hf : ∀ u, f u = .next t → SameHostSide u t) : SameHostSide s t := by
  obtain ⟨u, hu, ht⟩ := andThen_eq_next.1 h
  exact (hr u hu).trans (hf u ht)

theorem sameHostSide_raise (f : FaultName) (s : State) : SameHostSide s (raise f s) := by
  constructor <;> simp

theorem sameHostSide_recordCode (s : State) : SameHostSide s (recordCode s) := ⟨rfl, rfl, rfl, rfl⟩

section Operations

variable {s t : State}

theorem sameHostSide_loadSymbol (h : loadSymbol s = .next t) : SameHostSide s t := by
  obtain ⟨-, ⟨-, rfl⟩ | ⟨-, -, -, rfl⟩⟩ := loadSymbol_eq_next h
  · exact ⟨rfl, rfl, rfl, rfl⟩
  · exact ⟨rfl, rfl, rfl, rfl⟩

theorem sameHostSide_extractA (h : extractA s = .next t) : SameHostSide s t := by
  obtain ⟨-, m, -, rfl⟩ := extractA_eq_next.1 h
  exact ⟨rfl, rfl, rfl, rfl⟩

theorem sameHostSide_extractB (h : extractB s = .next t) : SameHostSide s t := by
  obtain ⟨-, m, -, rfl⟩ := extractB_eq_next.1 h
  exact ⟨rfl, rfl, rfl, rfl⟩

theorem sameHostSide_mergeTrees (h : mergeTrees s = .next t) : SameHostSide s t := by
  obtain ⟨-, -, -, -, -, rfl⟩ := mergeTrees_eq_next h
  exact ⟨rfl, rfl, rfl, rfl⟩

theorem sameHostSide_descendLeft (h : descendLeft s = .next t) : SameHostSide s t := by
  obtain ⟨-, -, -, rfl⟩ := descendLeft_eq_next.1 h
  exact ⟨rfl, rfl, rfl, rfl⟩

theorem sameHostSide_resumeRight (h : resumeRight s = .next t) : SameHostSide s t := by
  obtain ⟨-, rfl⟩ := resumeRight_eq_next.1 h
  exact ⟨rfl, rfl, rfl, rfl⟩

/-! ## The states of the FSM -/

theorem sameHostSide_stateTbLoad (h : stateTbLoad s = .next t) : SameHostSide s t := by
  refine sameHostSide_andThen h (fun u => sameHostSide_loadSymbol) fun u hu => ?_
  cases hu
  split <;> exact ⟨rfl, rfl, rfl, rfl⟩

theorem sameHostSide_stateTbXa (h : stateTbXa s = .next t) : SameHostSide s t := by
  unfold stateTbXa at h
  split at h
  · cases h
    exact sameHostSide_raise _ _
  · refine sameHostSide_andThen h (fun u => sameHostSide_extractA) fun u hu => ?_
    cases hu
    exact ⟨rfl, rfl, rfl, rfl⟩

theorem sameHostSide_stateTbChk (h : stateTbChk s = .next t) : SameHostSide s t := by
  unfold stateTbChk at h
  split at h <;> cases h <;> exact ⟨rfl, rfl, rfl, rfl⟩

theorem sameHostSide_stateTbXb (h : stateTbXb s = .next t) : SameHostSide s t := by
  refine sameHostSide_andThen h (fun u => sameHostSide_extractB) fun u hu => ?_
  cases hu
  exact ⟨rfl, rfl, rfl, rfl⟩

theorem sameHostSide_stateTbMerge (h : stateTbMerge s = .next t) : SameHostSide s t := by
  refine sameHostSide_andThen h (fun u => sameHostSide_mergeTrees) fun u hu => ?_
  cases hu
  exact ⟨rfl, rfl, rfl, rfl⟩

theorem sameHostSide_stateCdVisit (h : stateCdVisit s = .next t) : SameHostSide s t := by
  unfold stateCdVisit at h
  split at h
  · cases h
    exact ⟨rfl, rfl, rfl, rfl⟩
  · exact sameHostSide_descendLeft h

theorem sameHostSide_stateCdPop (h : stateCdPop s = .next t) : SameHostSide s t := by
  unfold stateCdPop at h
  split at h
  · cases h
    exact ⟨rfl, rfl, rfl, rfl⟩
  · exact sameHostSide_resumeRight h

/-- No FSM state takes a move of the host, emits an event or writes a parameter (10_state.md R22). -/
theorem sameHostSide_fsmStep (h : fsmStep s = .next t) : SameHostSide s t := by
  cases hph : s.ph with simp only [fsmStep, hph] at h
  | idle | enc | dec | fault =>
    cases h
    exact .refl _
  | tbLoad => exact sameHostSide_stateTbLoad h
  | tbXa => exact sameHostSide_stateTbXa h
  | tbChk => exact sameHostSide_stateTbChk h
  | tbXb => exact sameHostSide_stateTbXb h
  | tbMerge => exact sameHostSide_stateTbMerge h
  | cdVisit => exact sameHostSide_stateCdVisit h
  | cdPop => exact sameHostSide_stateCdPop h

end Operations

/-! ## BUILD and DERIVE -/

theorem sameHostSide_repeatOp {f : State → Answer} (hf : ∀ s t, f s = .next t → SameHostSide s t) {n : Nat}
    {s t : State} (h : repeatOp f n s = .next t) : SameHostSide s t := by
  induction n generalizing s with
  | zero =>
    cases h
    exact .refl _
  | succ n ih => exact sameHostSide_andThen h (hf s) fun u hu => ih hu

theorem sameHostSide_mergeLoop {n : Nat} {s t : State} (h : mergeLoop n s = .next t) : SameHostSide s t := by
  induction n generalizing s with
  | zero => cases h
  | succ n ih =>
    unfold mergeLoop at h
    split at h
    · cases h
      exact sameHostSide_raise _ _
    · refine sameHostSide_andThen h (fun u => sameHostSide_extractA) fun u hu => ?_
      split at hu
      · cases hu
        exact ⟨rfl, rfl, rfl, rfl⟩
      · exact sameHostSide_andThen hu (fun v => sameHostSide_extractB) fun v hv =>
          sameHostSide_andThen hv (fun w => sameHostSide_mergeTrees) fun w => ih

theorem sameHostSide_visitLoop {n : Nat} {s t : State} (h : visitLoop n s = .next t) : SameHostSide s t := by
  induction n generalizing s with
  | zero => cases h
  | succ n ih =>
    unfold visitLoop at h
    split at h
    · split at h
      · cases h
        exact ⟨rfl, rfl, rfl, rfl⟩
      · exact sameHostSide_andThen h (fun u hu => (sameHostSide_recordCode s).trans (sameHostSide_resumeRight hu))
          fun u => ih
    · exact sameHostSide_andThen h (fun u => sameHostSide_descendLeft) fun u => ih

/-- A command keeps the host's side where its body does: misplaced it raises a fault, dropped it does nothing. -/
theorem sameHostSide_withAdmission {c : CommandClass} {s t : State} {body : State → Answer}
    (h : withAdmission c s body = .next t) (hbody : body s = .next t → SameHostSide s t) : SameHostSide s t := by
  rcases withAdmission_eq_next.1 h with ⟨-, h⟩ | ⟨-, rfl⟩ | ⟨-, rfl⟩
  · exact hbody h
  · exact sameHostSide_raise _ _
  · exact .refl _

theorem sameHostSide_execBuild {s t : State} (h : execBuild s = .next t) : SameHostSide s t := by
  refine sameHostSide_withAdmission h fun h => ?_
  have hstart : SameHostSide s (buildStart s) := ⟨rfl, rfl, rfl, rfl⟩
  exact sameHostSide_andThen h
    (fun u hu => hstart.trans (sameHostSide_repeatOp (fun _ _ => sameHostSide_loadSymbol) hu))
    fun u => sameHostSide_mergeLoop

theorem sameHostSide_execDerive {s t : State} (h : execDerive s = .next t) : SameHostSide s t := by
  refine sameHostSide_withAdmission h fun h => ?_
  have hstart : SameHostSide s (deriveStart s) := ⟨rfl, rfl, rfl, rfl⟩
  split at h
  · exact hstart.trans (sameHostSide_visitLoop h)
  · cases h
    exact sameHostSide_raise _ _

/-! ## The parameters -/

/-- A command keeps the parameters where its body does. -/
theorem cfg_withAdmission {c : CommandClass} {s t : State} {body : State → Answer}
    (h : withAdmission c s body = .next t) (hbody : body s = .next t → t.cfg = s.cfg) : t.cfg = s.cfg := by
  rcases withAdmission_eq_next.1 h with ⟨-, h⟩ | ⟨-, rfl⟩ | ⟨-, rfl⟩
  · exact hbody h
  · simp
  · rfl

theorem cfg_walkBits {bits : List Bool} {s t : State} (h : walkBits bits s = .next t) : t.cfg = s.cfg := by
  induction bits generalizing s with
  | nil =>
    cases h
    rfl
  | cons b q ih =>
    obtain ⟨u, hu, ht⟩ := andThen_eq_next.1 h
    rcases walkBit_eq_next.1 hu with ⟨-, rfl⟩ | ⟨-, -, rfl⟩
    · exact ih ht
    · simpa using ih ht

/-- No command writes a parameter (00_scope.md R12). -/
theorem cfg_exec {i : Instr} {s t : State} (h : exec i s = .next t) : t.cfg = s.cfg := by
  cases i with dsimp only [exec] at h
  | build => exact (sameHostSide_execBuild h).cfg
  | derive => exact (sameHostSide_execDerive h).cfg
  | nop | rst | clre | rds | fclr | wrw | rdw | rdl | rdc =>
    refine cfg_withAdmission h fun h => ?_
    cases h
    simp
  | fsmp | encb =>
    refine cfg_withAdmission h fun h => ?_
    split at h <;> cases h <;> simp
  | fscl =>
    refine cfg_withAdmission h fun h => ?_
    dsimp only at h
    split at h <;> cases h <;> simp
  | rdn =>
    refine cfg_withAdmission h fun h => ?_
    split at h
    · cases h
      simp
    · obtain ⟨-, h⟩ := withNode_eq_next.1 h
      cases h
      simp
  | encs | decs | dece =>
    refine cfg_withAdmission h fun h => ?_
    split at h
    · cases h
      simp
    · split at h <;> cases h <;> simp
  | ence =>
    refine cfg_withAdmission h fun h => ?_
    cases h
    dsimp only
    split <;> simp
  | decb => exact cfg_withAdmission h cfg_walkBits

/-- No step writes a parameter: not `rst`, not the FSM, not a wait, not a command, not an illegal word. -/
theorem cfg_step {s t : State} (h : step s = .next t) : t.cfg = s.cfg := by
  rcases step_cases s with ⟨k, moves, -, hs⟩ | ⟨-, hs⟩ | ⟨-, -, hs⟩ | ⟨c, moves, i, -, -, -, hs⟩ |
    ⟨c, moves, e, -, -, -, hs⟩ <;> rw [hs] at h
  · cases h
    simp
  · exact (sameHostSide_fsmStep h).cfg
  · cases h
    rfl
  · simpa using cfg_exec h
  · cases h
    simp

end Sys2Proof.Machine

/-! ## The statements -/

namespace Sys2Proof.Proofs.Scope

open Sys2Proof.Machine Sys2Proof.Safety

/-- Settles O9: busy is the negation of the boundary, and each FSM state keeps the host's side. -/
theorem busyCoreAcceptsNothing : Obligations.BusyCoreAcceptsNothing := by
  intro s hboundary hrst
  have hbusy : busyWire s = true := Bool.eq_true_of_not_eq_false fun h => hboundary (busyWire_eq_false.1 h)
  refine ⟨step_busy hbusy hrst, fun t ht => ?_⟩
  obtain ⟨-, hhost, houtq, hseen⟩ := sameHostSide_fsmStep ht
  exact ⟨hhost, houtq, hseen⟩

/-- Settles O56, by the five kinds of step. -/
theorem parametersFixed : Obligations.ParametersFixed := fun _ _ => cfg_step

/-- Settles O6: the word is accepted, and accepting it transfers what waits. -/
theorem stepRunsDecoded : Obligations.StepRunsDecoded := fun _ _ _ _ hhost hboundary hdecode =>
  step_decoded hhost (busyWire_eq_false.2 hboundary) hdecode

end Sys2Proof.Proofs.Scope

/-! SUPPORT. Proofs of the statements of 10_state.md: what reset leaves, which command writes which column of the access
matrix (R36), and that every step keeps the invariants of R37. -/

namespace Sys2Proof.Machine

open Sys2Proof.Safety

/-! ## What a command does, said once -/

/-- What a command does when it is admitted and raises no fault at its first test. FSCL and BUILD can end in a fault
here too, since they have written state by then (60_exceptions.md R220). -/
def Effect (i : Instr) (s t : State) : Prop :=
  match i with
  | .nop     => t = s
  | .rst     => t = resetItems s
  | .clre    => t = leaveFault s
  | .rds     => t = emit (.rsp (statusWord s)) s
  | .fclr    => t = setWeights (initialWeight s.cfg) s
  | .fsmp x  => t = setWeight x (weightAt s x.toNat + 1) s
  | .fscl    =>
    t = setWeights (fun i => scaledWeight s.cfg (weightAt s i)) s ∨
      t = raise .eWovf (setWeights (fun i => scaledWeight s.cfg (weightAt s i)) s)
  | .wrw x d => t = setWeight x d s
  | .rdw x   => t = emit (.rsp ((weightAt s x.toNat).setWidth 64)) s
  | .build   => ∃ u, repeatOp loadSymbol 256 (buildStart s) = .next u ∧ mergeLoop 256 u = .next t
  | .rdn x   => t = emit (.rsp (nodeWord x (nodeAt s x.toNat))) s
  | .derive  => s.treeValid = true ∧ visitLoop 511 (deriveStart s) = .next t
  | .rdl x   => t = emit (.rsp (lengthWord (codeAt s x))) s
  | .rdc x q => t = emit (.rsp (codeChunk (codeAt s x).bits q)) s
  | .encs    =>
    s.codeValid = true ∧ (codeAt s s.cfg.eotSym).valid = true ∧
      t = { s with acc := padByte s.cfg, nacc := 0, coll := false, ph := .enc }
  | .encb x  =>
    t = pushBits { s with coll := s.coll || decide (x = s.cfg.eotSym) } (codeBits (codeAt s x))
  | .ence    => ∃ u, u = pushBits s (codeBits (codeAt s s.cfg.eotSym)) ∧
      t = { (if u.nacc = 0#3 then u else flushByte u) with ph := .idle }
  | .decs    => s.treeValid = true ∧ t = { s with decDone := isLeaf s.root, cur := s.root, ph := .dec }
  | .decb x  => walkBits (streamBits s.cfg.bitOrder x) s = .next t
  | .dece    => s.decDone = true ∧ t = { s with ph := .idle }

/-- Only a command that can raise `E_SEQ` is ever out of sequence (30_encoding.md R78). -/
theorem eSeq_mem_mayRaise {i : Instr} {p : Phase} (h : admission (commandClass i) p = .seqFault) :
    .eSeq ∈ mayRaise i := by
  cases i with
  | nop | rst | clre | rds | rdw | rdn | rdl | rdc => cases p <;> cases h
  | _ => simp [mayRaise]

/-- A command whose body raises a fault or takes effect. -/
theorem withAdmission_cases {i : Instr} {s t : State} {body : State → Answer}
    (h : withAdmission (commandClass i) s body = .next t)
    (hbody : body s = .next t → (∃ f ∈ mayRaise i, t = raise f s) ∨ Effect i s t) :
    (admission (commandClass i) s.ph = .drop ∧ t = s) ∨ (∃ f ∈ mayRaise i, t = raise f s) ∨
      (admission (commandClass i) s.ph = .ok ∧ Effect i s t) := by
  rcases withAdmission_eq_next.1 h with ⟨hok, h⟩ | ⟨hseq, rfl⟩ | ⟨hdrop, rfl⟩
  · exact .inr ((hbody h).imp_right fun h => ⟨hok, h⟩)
  · exact .inr (.inl ⟨_, eSeq_mem_mayRaise hseq, rfl⟩)
  · exact .inl ⟨hdrop, rfl⟩

/-- A command that answers a next state was dropped in `FAULT`, or raised a fault R217 lists for it and did nothing
else, or was admitted and took effect. -/
theorem exec_cases {i : Instr} {s t : State} (h : exec i s = .next t) :
    (admission (commandClass i) s.ph = .drop ∧ t = s) ∨ (∃ f ∈ mayRaise i, t = raise f s) ∨
      (admission (commandClass i) s.ph = .ok ∧ Effect i s t) := by
  cases i with dsimp only [exec] at h
  | nop | rst | clre | rds | fclr | wrw | rdw | rdl | rdc =>
    refine withAdmission_cases h fun h => .inr ?_
    cases h
    rfl
  | ence =>
    refine withAdmission_cases h fun h => .inr ?_
    cases h
    exact ⟨_, rfl, rfl⟩
  | decb => exact withAdmission_cases h fun h => .inr h
  | build => exact withAdmission_cases h fun h => .inr (andThen_eq_next.1 h)
  | fsmp | encb =>
    refine withAdmission_cases h fun h => ?_
    split at h <;> cases h
    · exact .inl ⟨_, by simp [mayRaise], rfl⟩
    · exact .inr rfl
  | fscl =>
    refine withAdmission_cases h fun h => .inr ?_
    dsimp only at h
    split at h <;> cases h
    · exact .inr rfl
    · exact .inl rfl
  | rdn =>
    refine withAdmission_cases h fun h => ?_
    split at h
    · cases h
      exact .inl ⟨_, by simp [mayRaise], rfl⟩
    · obtain ⟨-, h⟩ := withNode_eq_next.1 h
      cases h
      exact .inr rfl
  | derive =>
    refine withAdmission_cases h fun h => ?_
    split at h
    · exact .inr ⟨by assumption, h⟩
    · cases h
      exact .inl ⟨_, by simp [mayRaise], rfl⟩
  | encs =>
    refine withAdmission_cases h fun h => ?_
    split at h
    · cases h
      exact .inl ⟨_, by simp [mayRaise], rfl⟩
    · split at h <;> cases h
      · exact .inl ⟨_, by simp [mayRaise], rfl⟩
      · exact .inr ⟨by simp_all, by simp_all, rfl⟩
  | decs =>
    refine withAdmission_cases h fun h => ?_
    split at h
    · cases h
      exact .inl ⟨_, by simp [mayRaise], rfl⟩
    · split at h <;> cases h
      · exact .inl ⟨_, by simp [mayRaise], rfl⟩
      · exact .inr ⟨by simp_all, rfl⟩
  | dece =>
    refine withAdmission_cases h fun h => ?_
    split at h
    · cases h
      exact .inr ⟨by assumption, rfl⟩
    · split at h <;> cases h <;> exact .inl ⟨_, by simp [mayRaise], rfl⟩

/-! ## What the loops keep -/

/-- What every pass of a repetition keeps, the number of the pass counted in, holds after the last. -/
theorem repeatOp_induction {f : State → Answer} {P : Nat → State → Prop}
    (hstep : ∀ k s t, P k s → f s = .next t → P (k + 1) t) {n : Nat} {s t : State} (hs : P 0 s)
    (h : repeatOp f n s = .next t) : P n t := by
  induction n generalizing t with
  | zero =>
    cases h
    exact hs
  | succ n ih =>
    rw [repeatOp_succ_last] at h
    obtain ⟨u, hu, ht⟩ := andThen_eq_next.1 h
    exact hstep n u t (ih hu) ht

/-- What walking one bit keeps holds after the walk. -/
theorem walkBits_induction {P : State → Prop} (hstep : ∀ b s t, P s → walkBit b s = .next t → P t) {bits : List Bool}
    {s t : State} (hs : P s) (h : walkBits bits s = .next t) : P t := by
  induction bits generalizing s with
  | nil =>
    cases h
    exact hs
  | cons b q ih =>
    obtain ⟨u, hu, ht⟩ := andThen_eq_next.1 h
    exact ih (hstep b s u hs hu) ht

/-- One pass of BUILD's loop that merges: the two trees that come first leave the queue and their parent enters it
(41_tree_builder.md R113, R118). -/
def MergePass (s t : State) : Prop :=
  ∃ i j, minMember s s.pq = some i ∧ j ∈ s.pq ∧ j ≠ i ∧ s.nextNode ≠ 511#9 ∧
    t = { s with
      a := i, b := j
      node := Memory.write emptyNode s.node s.nextNode.toNat ⟨(nodeAt s i.toNat).w + (nodeAt s j.toNat).w, j, i⟩
      pq := insertMember s.nextNode ((s.pq.filter fun k => decide (k ≠ i)).filter fun k => decide (k ≠ j))
      nextNode := s.nextNode + 1 }

/-- The end of BUILD's loop: no tree at all, or the last tree taken out (R113, R116). -/
def MergeEnd (s t : State) : Prop :=
  (s.pq = [] ∧ t = raise .eEmpty s) ∨
    ∃ i, i ∈ s.pq ∧ (∀ j ∈ s.pq, j = i) ∧ t = finishTree { s with pq := [], a := i }

/-- What a merge keeps holds where BUILD's loop ends. -/
theorem mergeLoop_induction {P : State → Prop} (hstep : ∀ s t, P s → MergePass s t → P t) {n : Nat} {s t : State}
    (hs : P s) (h : mergeLoop n s = .next t) : ∃ u, P u ∧ MergeEnd u t := by
  induction n generalizing s with
  | zero => cases h
  | succ n ih =>
    unfold mergeLoop at h
    split at h
    · rename_i hempty
      cases h
      exact ⟨s, hs, .inl ⟨hempty, rfl⟩⟩
    · obtain ⟨u, hu, h⟩ := andThen_eq_next.1 h
      obtain ⟨-, i, hi, rfl⟩ := extractA_eq_next.1 hu
      split at h
      · rename_i hlast
        cases h
        have honly : ∀ j ∈ s.pq, j = i := by simpa using hlast
        exact ⟨s, hs, .inr ⟨i, (minMember_spec hi).1, honly, by rw [← hlast]⟩⟩
      · obtain ⟨v, hv, h⟩ := andThen_eq_next.1 h
        obtain ⟨-, j, hj, rfl⟩ := extractB_eq_next.1 hv
        obtain ⟨w, hw, h⟩ := andThen_eq_next.1 h
        obtain ⟨-, -, hnext, -, -, rfl⟩ := mergeTrees_eq_next hw
        have hmem := (minMember_spec hj).1
        simp only [List.mem_filter, decide_eq_true_eq] at hmem
        exact ih (hstep s _ hs ⟨i, j, hi, hmem.1, hmem.2, hnext, rfl⟩) h

/-- What a visit keeps, a descent or a resumption, holds at DERIVE's last leaf (42_code_deriver.md R141). -/
theorem visitLoop_induction {P : State → Prop}
    (hdescend : ∀ s t, P s → isLeaf s.cn = false → descendLeft s = .next t → P t)
    (hresume : ∀ s t, P s → isLeaf s.cn = true → s.sp ≠ 0#8 → resumeRight (recordCode s) = .next t → P t)
    {n : Nat} {s t : State} (hs : P s) (h : visitLoop n s = .next t) :
    ∃ u, P u ∧ isLeaf u.cn = true ∧ u.sp = 0#8 ∧ t = finishCodes (recordCode u) := by
  induction n generalizing s with
  | zero => cases h
  | succ n ih =>
    unfold visitLoop at h
    split at h
    · rename_i hleaf
      split at h
      · rename_i hsp
        cases h
        exact ⟨s, hs, hleaf, hsp, rfl⟩
      · rename_i hsp
        obtain ⟨u, hu, h⟩ := andThen_eq_next.1 h
        exact ih (hresume s u hs hleaf hsp hu) h
    · rename_i hleaf
      obtain ⟨u, hu, h⟩ := andThen_eq_next.1 h
      exact ih (hdescend s u hs (by simpa using hleaf) hu) h

/-! ## What the loops write (10_state.md R36) -/

/-- `t` is `s` but for the items BUILD's loops write. -/
def BuildWrites (s t : State) : Prop :=
  t = { s with a := t.a, b := t.b, nleaf := t.nleaf, nextNode := t.nextNode, li := t.li, node := t.node, pq := t.pq }

theorem BuildWrites.refl (s : State) : BuildWrites s s := rfl

theorem BuildWrites.trans {s t u : State} (h : BuildWrites s t) (h' : BuildWrites t u) : BuildWrites s u := by
  unfold BuildWrites at *
  rw [h', h]

theorem buildWrites_loadSymbol {s t : State} (h : loadSymbol s = .next t) : BuildWrites s t := by
  obtain ⟨-, ⟨-, rfl⟩ | ⟨-, -, -, rfl⟩⟩ := loadSymbol_eq_next h
  · rfl
  · rfl

theorem buildWrites_mergePass {s t : State} (h : MergePass s t) : BuildWrites s t := by
  obtain ⟨i, j, -, -, -, -, rfl⟩ := h
  rfl

/-- `t` is `s` but for the items DERIVE's loop writes. -/
def DeriveWrites (s t : State) : Prop :=
  t = { s with ph := t.ph, cn := t.cn, cdep := t.cdep, sp := t.sp, path := t.path, code := t.code, stk := t.stk }

theorem DeriveWrites.refl (s : State) : DeriveWrites s s := rfl

theorem DeriveWrites.trans {s t u : State} (h : DeriveWrites s t) (h' : DeriveWrites t u) : DeriveWrites s u := by
  unfold DeriveWrites at *
  rw [h', h]

theorem deriveWrites_descendLeft {s t : State} (h : descendLeft s = .next t) : DeriveWrites s t := by
  obtain ⟨-, -, -, rfl⟩ := descendLeft_eq_next.1 h
  rfl

theorem deriveWrites_resumeRight {s t : State} (h : resumeRight (recordCode s) = .next t) : DeriveWrites s t := by
  obtain ⟨-, rfl⟩ := resumeRight_eq_next.1 h
  rfl

/-- BUILD's loops write the scratch of BUILD, and then the last tree is the result or there is none. -/
theorem effect_build {s t : State} (h : Effect .build s t) : ∃ u, BuildWrites (buildStart s) u ∧ MergeEnd u t := by
  obtain ⟨u, hload, hmerge⟩ := h
  refine mergeLoop_induction (fun v w hv hw => hv.trans (buildWrites_mergePass hw)) ?_ hmerge
  exact repeatOp_induction (P := fun _ => BuildWrites (buildStart s))
    (fun _ v w hv hw => hv.trans (buildWrites_loadSymbol hw)) (.refl _) hload

/-- DERIVE's loop writes the scratch of DERIVE and `CODE`, and ends in `IDLE`. -/
theorem effect_derive {s t : State} (h : Effect .derive s t) :
    ∃ u, DeriveWrites (deriveStart s) u ∧ t = finishCodes (recordCode u) := by
  obtain ⟨u, hu, -, -, rfl⟩ := visitLoop_induction (P := DeriveWrites (deriveStart s))
    (fun v w hv _ hw => hv.trans (deriveWrites_descendLeft hw))
    (fun v w hv _ _ hw => hv.trans (deriveWrites_resumeRight hw)) (.refl _) h.2
  exact ⟨u, hu, rfl⟩

/-- `t` is `s` but for the items a walk writes: the position, the sentinel seen, the output. -/
def WalkWrites (s t : State) : Prop := t = { s with cur := t.cur, decDone := t.decDone, outq := t.outq }

theorem WalkWrites.refl (s : State) : WalkWrites s s := rfl

theorem walkWrites_arrive (s : State) : WalkWrites s (arrive s) := by
  unfold arrive
  split
  · dsimp only
    split <;> rfl
  · rfl

theorem walkWrites_walkBit {b : Bool} {s t u : State} (h : WalkWrites s t) (hu : walkBit b t = .next u) :
    WalkWrites s u := by
  rcases walkBit_eq_next.1 hu with ⟨-, rfl⟩ | ⟨-, -, rfl⟩
  · exact h
  · unfold WalkWrites at *
    rw [walkWrites_arrive, h]

/-- A packed byte walks the tree and writes nothing else. -/
theorem effect_decb {x : Byte} {s t : State} (h : Effect (.decb x) s t) : WalkWrites s t :=
  walkBits_induction (P := WalkWrites s) (fun _ _ _ => walkWrites_walkBit) (.refl s) h

/-! ## The access matrix -/

theorem ph_of_admission_idle {p : Phase} (h : admission .idle p = .ok) : p = .idle := by
  cases p with
  | idle => rfl
  | _ => cases h

theorem ph_of_admission_enc {p : Phase} (h : admission .enc p = .ok) : p = .enc := by
  cases p with
  | enc => rfl
  | _ => cases h

theorem ph_of_admission_dec {p : Phase} (h : admission .dec p = .ok) : p = .dec := by
  cases p with
  | dec => rfl
  | _ => cases h

/-- The command has entered `FAULT` by a fault R217 lists for it. -/
def Raised (i : Instr) (s t : State) : Prop := s.ph ≠ .fault ∧ t.ph = .fault ∧ ∃ f ∈ mayRaise i, t.err = some f

theorem raise_cases {i : Instr} {f : FaultName} (hf : f ∈ mayRaise i) (s : State) :
    raise f s = s ∨ Raised i s (raise f s) := by
  by_cases hph : s.ph = .fault
  · exact .inl (raise_inside f hph)
  · exact .inr ⟨hph, raise_ph f s, f, hf, by rw [raise_outside f hph]⟩

theorem effect_fscl {s t : State} (hph : s.ph = .idle) (h : Effect .fscl s t) :
    t = { s with w := t.w } ∨ t = { s with w := t.w, ph := .fault, err := some .eWovf } := by
  obtain rfl | rfl := h
  · exact .inl rfl
  · exact .inr (by rw [raise_outside _ (by simp [hph])]; rfl)

/-! ## The padding of the waiting byte (10_state.md R37 (d)) -/

theorem bitPosition_lt (o : BitOrder) {m : Nat} (hm : m < 8) : bitPosition o m < 8 := by
  cases o with
  | msbFirst => exact Nat.lt_succ_of_le (Nat.sub_le 7 m)
  | lsbFirst => exact hm

/-- Where a stream bit stands and which stream bit stands there are one function, its own inverse. -/
theorem bitPosition_bitPosition (o : BitOrder) {m : Nat} (hm : m < 8) : bitPosition o (bitPosition o m) = m := by
  cases o with
  | msbFirst => exact Nat.sub_sub_self (Nat.le_of_lt_succ hm)
  | lsbFirst => rfl

theorem getLsbD_padByte (c : Config) {m : Nat} (hm : m < 8) : (padByte c).getLsbD m = c.padBit := by
  unfold padByte
  revert m
  cases c.padBit <;> decide

theorem getLsbD_setBit (x : Byte) (v : Bool) {n k : Nat} (hk : k < 8) :
    (setBit x n v).getLsbD k = if k = n then v else x.getLsbD k := by
  unfold setBit
  by_cases h : k = n
  · subst h
    cases v <;> simp [hk]
  · cases v <;> simp [hk, h]

/-- A byte just begun holds padding alone. -/
theorem padOk_padByte {s : State} (h : s.acc = padByte s.cfg) : PadOk s := fun m hm _ => by
  rw [h, getLsbD_padByte _ (bitPosition_lt _ hm)]

/-- A byte with no bit filled is the padding byte. -/
theorem acc_eq_padByte {s : State} (h : PadOk s) (hn : s.nacc = 0) : s.acc = padByte s.cfg := by
  refine BitVec.eq_of_getLsbD_eq fun k hk => ?_
  have := h (bitPosition s.cfg.bitOrder k) (bitPosition_lt _ hk) (by simp [hn])
  rwa [bitPosition_bitPosition _ hk, ← getLsbD_padByte s.cfg hk] at this

/-- One more bit leaves padding behind it. -/
theorem padOk_pushBit {s : State} (h : PadOk s) (v : Bool) : PadOk (pushBit s v) := by
  by_cases hn : s.nacc = 7#3
  · rw [pushBit_full hn]
    exact padOk_padByte (by simp)
  · rw [pushBit_filling hn]
    have hsucc : (s.nacc + 1).toNat = s.nacc.toNat + 1 := by bv_omega
    intro m hm hle
    simp only [hsucc] at hle
    have hne : bitPosition s.cfg.bitOrder m ≠ bitPosition s.cfg.bitOrder s.nacc.toNat := fun he => by
      have := congrArg (bitPosition s.cfg.bitOrder) he
      rw [bitPosition_bitPosition _ hm, bitPosition_bitPosition _ (by omega)] at this
      omega
    show (setBit s.acc (bitPosition s.cfg.bitOrder s.nacc.toNat) v).getLsbD (bitPosition s.cfg.bitOrder m) =
      s.cfg.padBit
    rw [getLsbD_setBit _ _ (bitPosition_lt _ hm), if_neg hne]
    exact h m hm (by omega)

theorem padOk_pushBits {s : State} (h : PadOk s) (bits : List Bool) : PadOk (pushBits s bits) := by
  induction bits generalizing s with
  | nil => exact h
  | cons v q ih => exact ih (padOk_pushBit h v)

/-! ## The invariants and what they depend on -/

/-- R37 without the canonical form of the memories, which is the model's own (log entry 6). -/
structure Coherent (s : State) : Prop where
  registers : RegistersOk s
  tree      : s.treeValid = true → TreeShape s
  codes     : s.codeValid = true → CodeTable s
  session   : SessionOk s

theorem coherent_of_inv {s : State} (h : Inv s) : Coherent s :=
  ⟨h.registers, h.tree, h.codes, h.session⟩

/-- `t` holds the tree and the code table of `s`. -/
def SameTables (s t : State) : Prop :=
  t = { t with
    node := s.node, root := s.root, nleaf := s.nleaf, nextNode := s.nextNode, code := s.code
    treeValid := s.treeValid, codeValid := s.codeValid }

theorem sameTables_of_fields {s t : State} (hnode : t.node = s.node) (hroot : t.root = s.root)
    (hnleaf : t.nleaf = s.nleaf) (hnext : t.nextNode = s.nextNode) (hcode : t.code = s.code)
    (htree : t.treeValid = s.treeValid) (hcodes : t.codeValid = s.codeValid) : SameTables s t := by
  unfold SameTables
  rw [← hnode, ← hroot, ← hnleaf, ← hnext, ← hcode, ← htree, ← hcodes]

theorem walk_congr {s t : State} (h : t.node = s.node) : walk t = walk s := by
  funext i p
  induction p generalizing i with
  | nil => rfl
  | cons b q ih => simp [walk, nodeAt, h, ih]

/-- `t` holds the tree of `s`. -/
def SameTree (s t : State) : Prop :=
  t = { t with node := s.node, root := s.root, nleaf := s.nleaf, nextNode := s.nextNode }

theorem SameTree.treeShape {s t : State} (h : SameTree s t) (hs : TreeShape s) : TreeShape t := by
  rw [h]
  exact ⟨hs.count, hs.some_, hs.most, hs.next, hs.root, hs.last, fun i hi hr =>
    have hok := hs.internal i hi hr
    ⟨hok.left, hok.right, hok.distinct, hok.leftLt, hok.rightLt, hok.weight⟩, hs.parent⟩

theorem SameTables.sameTree {s t : State} (h : SameTables s t) : SameTree s t := by
  unfold SameTree
  rw [h]

theorem codeTable_congr {s t : State} (hnode : t.node = s.node) (hroot : t.root = s.root) (hcode : t.code = s.code)
    (hs : CodeTable s) : CodeTable t := fun x => by
  have hentry : codeAt t x = codeAt s x := by rw [codeAt, hcode]; rfl
  have hleaf : nodeAt t x.toNat = nodeAt s x.toNat := by rw [nodeAt, hnode]; rfl
  constructor <;> rw [hentry]
  · rw [hleaf]
    exact (hs x).valid
  · rw [walk_congr hnode, hroot]
    exact (hs x).leads
  · exact (hs x).zero
  · exact (hs x).invalid

/-- With the tables kept, registers and session are what is left to check. -/
theorem SameTables.coherent {s t : State} (h : SameTables s t) (hs : Coherent s) (hreg : RegistersOk t)
    (hsession : SessionOk t) : Coherent t where
  registers := hreg
  tree ht := h.sameTree.treeShape (hs.tree ((congrArg State.treeValid h).symm.trans ht))
  codes ht := codeTable_congr (s := s) (congrArg State.node h :) (congrArg State.root h :) (congrArg State.code h :)
    (hs.codes ((congrArg State.codeValid h).symm.trans ht))
  session := hsession

/-- No session is open. -/
theorem sessionOk_closed {s : State} (henc : s.ph ≠ .enc) (hdec : s.ph ≠ .dec) : SessionOk s :=
  ⟨fun h => absurd h henc, fun h => absurd h henc, fun h => absurd h hdec, fun h => absurd h hdec,
    fun h => absurd h hdec⟩

/-- `t` is `s` but for the items of which R37 says nothing. -/
def QuietWrites (s t : State) : Prop :=
  t = { s with
    coll := t.coll, li := t.li, a := t.a, b := t.b, cn := t.cn, cdep := t.cdep, sp := t.sp, path := t.path, w := t.w
    stk := t.stk, host := t.host, outq := t.outq, seen := t.seen }

theorem QuietWrites.registersOk {s t : State} (h : QuietWrites s t) (hs : RegistersOk s) : RegistersOk t := by
  rw [h]
  exact ⟨hs.boundary, hs.err, hs.queue, hs.waiting, hs.filling, hs.tables⟩

theorem QuietWrites.sessionOk {s t : State} (h : QuietWrites s t) (hs : SessionOk s) : SessionOk t := by
  have hwalk : walk t = walk s := walk_congr (congrArg State.node h :)
  rw [h] at hwalk ⊢
  refine ⟨hs.codes, hs.sentinel, hs.tree, hs.inside, fun hdec hdone => ?_⟩
  rw [hwalk]
  exact hs.reached hdec hdone

theorem QuietWrites.coherent {s t : State} (h : QuietWrites s t) (hs : Coherent s) : Coherent t := by
  refine SameTables.coherent ?_ hs (h.registersOk hs.registers) (h.sessionOk hs.session)
  rw [h]
  rfl

/-- A raise keeps R37: `FAULT` has an error, and asks nothing of the waiting byte or a session. -/
theorem coherent_raise {s : State} (h : Coherent s) (f : FaultName) : Coherent (raise f s) := by
  by_cases hph : s.ph = .fault
  · rwa [raise_inside f hph]
  · rw [raise_outside f hph]
    refine SameTables.coherent rfl h ?_ (sessionOk_closed (by simp) (by simp))
    exact ⟨by simp [Boundary], by simp, h.registers.queue, by simp, by simp, h.registers.tables⟩

/-! ## Reset (10_state.md R38) -/

theorem inv_resetWith (c : Config) : Inv (State.resetWith c) where
  canonical := ⟨Memory.wf_nil _ _, Memory.wf_nil _ _, Memory.wf_nil _ _, Memory.wf_nil _ _, .nil⟩
  registers := ⟨.inl rfl, by simp [State.resetWith], rfl, fun _ => ⟨rfl, rfl⟩, nofun, nofun⟩
  tree := nofun
  codes := nofun
  session := sessionOk_closed (by simp [State.resetWith]) (by simp [State.resetWith])

/-- Every item at its reset value, whatever the host's side. -/
theorem coherent_resetItems (s : State) : Coherent (resetItems s) :=
  QuietWrites.coherent (s := State.resetWith s.cfg) rfl (coherent_of_inv (inv_resetWith s.cfg))

theorem coherent_applyReset (k : Nat) (s : State) : Coherent (applyReset k s) :=
  QuietWrites.coherent (s := State.resetWith s.cfg) rfl (coherent_of_inv (inv_resetWith s.cfg))

/-- The return from `FAULT` keeps R37. -/
theorem coherent_leaveFault {s : State} (h : Coherent s) : Coherent (leaveFault s) := by
  by_cases hph : s.ph = .fault
  · rw [leaveFault_inside hph]
    refine SameTables.coherent rfl h ?_ (sessionOk_closed (by simp) (by simp))
    exact ⟨.inl rfl, by simp, h.registers.queue, fun _ => ⟨rfl, rfl⟩, by simp, h.registers.tables⟩
  · rwa [leaveFault_outside hph]

/-! ## Encode sessions -/

/-- Outside `FAULT` there is no error. -/
theorem Coherent.err_eq_none {s : State} (h : Coherent s) (hph : s.ph ≠ .fault) : s.err = none :=
  Decidable.not_not.1 fun he => hph (h.registers.err.1 he)

theorem coherent_encs {s t : State} (hs : Coherent s) (hph : s.ph = .idle) (h : Effect .encs s t) : Coherent t := by
  obtain ⟨hcodes, hsentinel, rfl⟩ := h
  refine SameTables.coherent rfl hs ?_ ⟨fun _ => hcodes, fun _ => hsentinel, by simp, by simp, by simp⟩
  exact ⟨by simp [Boundary], by simp [hs.err_eq_none, hph], hs.registers.queue, by simp, fun _ => padOk_padByte rfl,
    hs.registers.tables⟩

/-- Bits appended in an encode session keep R37. -/
theorem coherent_pushBits {s : State} (hs : Coherent s) (hph : s.ph = .enc) (bits : List Bool) :
    Coherent (pushBits s bits) := by
  have htables : SameTables s (pushBits s bits) := by apply sameTables_of_fields <;> simp
  refine htables.coherent hs ⟨?_, ?_, ?_, ?_, ?_, ?_⟩ ⟨?_, ?_, ?_, ?_, ?_⟩
  · simp [Boundary, hph]
  · simpa using hs.registers.err
  · simpa using hs.registers.queue
  · simp [hph]
  · exact fun _ => padOk_pushBits (hs.registers.filling hph) bits
  · simpa using hs.registers.tables
  · simpa using hs.session.codes
  · simpa [codeAt] using hs.session.sentinel
  all_goals simp [hph]

theorem coherent_encb {x : Byte} {s t : State} (hs : Coherent s) (hph : s.ph = .enc) (h : Effect (.encb x) s t) :
    Coherent t := by
  cases h
  have hcoll : Coherent { s with coll := s.coll || decide (x = s.cfg.eotSym) } := QuietWrites.coherent (s := s) rfl hs
  exact coherent_pushBits hcoll hph _

/-- The session closes with no bit waiting: none was, or the byte begun has left (43_bit_packer.md R163). -/
theorem coherent_ence {s t : State} (hs : Coherent s) (hph : s.ph = .enc) (h : Effect .ence s t) : Coherent t := by
  obtain ⟨u, hu, rfl⟩ := h
  have hcoherent : Coherent u := hu ▸ coherent_pushBits hs hph _
  have huph : u.ph = .enc := by simp [hu, hph]
  have herr := hcoherent.err_eq_none (by simp [huph])
  split
  next hnacc =>
    refine SameTables.coherent rfl hcoherent ?_ (sessionOk_closed (by simp) (by simp))
    exact ⟨.inl rfl, by simp [herr], hcoherent.registers.queue,
      fun _ => ⟨hnacc, acc_eq_padByte (hcoherent.registers.filling huph) hnacc⟩, by simp, hcoherent.registers.tables⟩
  next =>
    refine SameTables.coherent (s := u) rfl hcoherent ?_ (sessionOk_closed (by simp) (by simp))
    exact ⟨.inl rfl, by simp [herr], hcoherent.registers.queue, fun _ => ⟨rfl, rfl⟩, by simp,
      hcoherent.registers.tables⟩

/-! ## Walks (00_scope.md R17) -/

@[simp] theorem walk_nil (s : State) (i : NodeIndex) : walk s i [] = some i := rfl

theorem walk_append (s : State) (i : NodeIndex) (p q : List Bool) :
    walk s i (p ++ q) = (walk s i p).bind fun j => walk s j q := by
  induction p generalizing i with
  | nil => rfl
  | cons b p ih =>
    simp only [List.cons_append, walk]
    split
    · rfl
    · exact ih _

theorem walk_cons {s : State} {i : NodeIndex} (hinner : isLeaf i = false) (hne : i ≠ 511#9) (b : Bool) (q : List Bool) :
    walk s i (b :: q) = walk s (childOf (nodeAt s i.toNat) b) q := by
  simp [walk, hinner, hne]

/-- One more choice, at an internal node. -/
theorem walk_concat {s : State} {i j : NodeIndex} {p : List Bool} (h : walk s i p = some j) (hinner : isLeaf j = false)
    (hne : j ≠ 511#9) (b : Bool) : walk s i (p ++ [b]) = some (childOf (nodeAt s j.toNat) b) := by
  simp [walk_append, h, walk_cons hinner hne]

/-- At a leaf there is no choice. -/
theorem walk_leaf {s : State} {i j : NodeIndex} {p : List Bool} (hleaf : isLeaf i = true) (h : walk s i p = some j) :
    p = [] ∧ j = i := by
  cases p with
  | nil => simpa [eq_comm] using h
  | cons b q => simp [walk, hleaf] at h

/-! ## Decode sessions -/

/-- Before the sentinel the walk stands at an internal node it has reached from the root (10_state.md R37 (g)). -/
def WalkInside (s : State) : Prop :=
  s.decDone = false → isLeaf s.cur = false ∧ ∃ p, walk s s.root p = some s.cur

/-- A walk that stands inside the tree has not started at a leaf. -/
theorem root_inner {s : State} {p : List Bool} (hinner : isLeaf s.cur = false) (h : walk s s.root p = some s.cur) :
    isLeaf s.root = false :=
  Bool.eq_false_of_not_eq_true fun hleaf => by simp [← (walk_leaf hleaf h).2, hinner] at hleaf

/-- A bit walked keeps the walk inside the tree: it goes on at an internal node, and back at the root from a leaf. -/
theorem walkInside_walkBit {b : Bool} {s t : State} (hs : WalkInside s) (h : walkBit b s = .next t) : WalkInside t := by
  rcases walkBit_eq_next.1 h with ⟨-, rfl⟩ | ⟨hdone, hne, rfl⟩
  · exact hs
  · obtain ⟨hinner, p, hp⟩ := hs hdone
    by_cases hleaf : isLeaf (childOf (nodeAt s s.cur.toNat) b) = true
    · by_cases hsentinel : childOf (nodeAt s s.cur.toNat) b = leafOf s.cfg.eotSym
      · rw [arrive_sentinel hleaf hsentinel]
        exact nofun
      · rw [arrive_symbol hleaf hsentinel]
        exact fun _ => ⟨root_inner hinner hp, [], rfl⟩
    · rw [arrive_inside (by simpa using hleaf)]
      have hwalk : walk { s with cur := childOf (nodeAt s s.cur.toNat) b } = walk s := walk_congr rfl
      refine fun _ => ⟨by simpa using hleaf, p ++ [b], ?_⟩
      rw [hwalk]
      exact walk_concat hp hinner hne b

theorem coherent_decs {s t : State} (hs : Coherent s) (hph : s.ph = .idle) (h : Effect .decs s t) : Coherent t := by
  obtain ⟨htree, rfl⟩ := h
  refine SameTables.coherent rfl hs ?_ ⟨by simp, by simp, fun _ => htree, fun _ hroot => hroot, fun _ _ => ⟨[], rfl⟩⟩
  exact ⟨by simp [Boundary], by simp [hs.err_eq_none, hph], hs.registers.queue,
    fun _ => hs.registers.waiting (.inl hph), by simp, hs.registers.tables⟩

theorem coherent_decb {x : Byte} {s t : State} (hs : Coherent s) (hph : s.ph = .dec) (h : Effect (.decb x) s t) :
    Coherent t := by
  have hinside : WalkInside t := walkBits_induction (fun _ _ _ => walkInside_walkBit)
    (fun hdone => ⟨hs.session.inside hph hdone, hs.session.reached hph hdone⟩) h
  have hw : WalkWrites s t := effect_decb h
  rw [hw] at hinside ⊢
  refine SameTables.coherent rfl hs ?_ ⟨by simp [hph], by simp [hph], hs.session.tree, fun _ hdone => (hinside hdone).1,
    fun _ hdone => (hinside hdone).2⟩
  exact ⟨hs.registers.boundary, hs.registers.err, hs.registers.queue, hs.registers.waiting, hs.registers.filling,
    hs.registers.tables⟩

theorem coherent_dece {s t : State} (hs : Coherent s) (hph : s.ph = .dec) (h : Effect .dece s t) : Coherent t := by
  obtain ⟨-, rfl⟩ := h
  refine SameTables.coherent rfl hs ?_ (sessionOk_closed (by simp) (by simp))
  exact ⟨.inl rfl, by simp [hs.err_eq_none, hph], hs.registers.queue, fun _ => hs.registers.waiting (.inr hph), by simp,
    hs.registers.tables⟩

/-! ## BUILD loads the 256 symbols (41_tree_builder.md R114) -/

/-- The symbols below `k` that have a weight, as node indices by rising index. -/
def weighted (s : State) (k : Nat) : List NodeIndex :=
  ((List.range k).filter fun i => decide (weightAt s i ≠ 0)).map (BitVec.ofNat 9)

theorem mem_weighted {s : State} {k : Nat} (hk : k ≤ 256) {i : NodeIndex} :
    i ∈ weighted s k ↔ i.toNat < k ∧ weightAt s i.toNat ≠ 0 := by
  simp only [weighted, List.mem_map, List.mem_filter, List.mem_range, decide_eq_true_eq]
  constructor
  · rintro ⟨j, ⟨hj, hw⟩, rfl⟩
    have hidx : (BitVec.ofNat 9 j).toNat = j := by bv_omega
    rw [hidx]
    exact ⟨hj, hw⟩
  · exact fun ⟨hi, hw⟩ => ⟨i.toNat, ⟨hi, hw⟩, by simp⟩

theorem weighted_succ (s : State) (k : Nat) :
    weighted s (k + 1) = weighted s k ++ if weightAt s k = 0 then [] else [BitVec.ofNat 9 k] := by
  rw [weighted, List.range_succ, List.filter_append, List.map_append]
  congr 1
  split <;> simp_all

/-- A member above all others is the last by rising index. -/
theorem insertMember_last {i : NodeIndex} {q : List NodeIndex} (h : ∀ j ∈ q, j < i) : insertMember i q = q ++ [i] := by
  induction q with
  | nil => rfl
  | cons j q ih =>
    have hj : ¬ i < j := BitVec.not_lt.2 (BitVec.le_of_lt (h j (by simp)))
    rw [insertMember, if_neg hj, ih fun k hk => h k (by simp [hk]), List.cons_append]

/-- `k` symbols of `s` are loaded. -/
structure Loaded (s : State) (k : Nat) (t : State) : Prop where
  writes : BuildWrites (buildStart s) t
  le     : k ≤ 256
  li     : t.li.toNat = k
  next   : t.nextNode = 256#9
  entry  : ∀ i < k, nodeAt t i = ⟨(weightAt s i).setWidth 40, 0, 0⟩
  others : ∀ i, k ≤ i → nodeAt t i = nodeAt s i
  queue  : t.pq = weighted s k
  nleaf  : t.nleaf.toNat = t.pq.length

theorem loaded_buildStart (s : State) : Loaded s 0 (buildStart s) :=
  ⟨.refl _, by simp, rfl, rfl, by simp, fun _ _ => rfl, rfl, rfl⟩

theorem BuildWrites.weightAt {s t : State} (h : BuildWrites (buildStart s) t) (i : Nat) : weightAt t i = weightAt s i :=
  congrArg (Memory.read 0 · i) (congrArg State.w h :)

/-- A symbol's entry of `NODE` becomes a snapshot of its weight. -/
theorem nodeAt_loadSymbol {s t : State} (h : loadSymbol s = .next t) (i : Nat) :
    nodeAt t i = if s.li.toNat = i then ⟨(weightAt s i).setWidth 40, 0, 0⟩ else nodeAt s i := by
  have hnode : t.node = Memory.write emptyNode s.node s.li.toNat ⟨(weightAt s s.li.toNat).setWidth 40, 0, 0⟩ := by
    obtain ⟨-, ⟨-, rfl⟩ | ⟨-, -, -, rfl⟩⟩ := loadSymbol_eq_next h
    · rfl
    · rfl
  rw [nodeAt, hnode, Memory.read_write]
  split
  next hi => rw [hi]
  next => rfl

theorem loaded_loadSymbol {s t u : State} {k : Nat} (h : Loaded s k t) (hu : loadSymbol t = .next u) :
    Loaded s (k + 1) u := by
  have hw := h.writes.trans (buildWrites_loadSymbol hu)
  have hnode := nodeAt_loadSymbol hu
  obtain ⟨hli, hcases⟩ := loadSymbol_eq_next hu
  simp only [h.li, h.writes.weightAt] at hli hnode hcases
  have hlinext : (t.li + 1).toNat = k + 1 := by
    have := h.li
    bv_omega
  have hentry : ∀ i < k + 1, nodeAt u i = ⟨(weightAt s i).setWidth 40, 0, 0⟩ := fun i hi => by
    rw [hnode]
    split
    · rfl
    · exact h.entry i (by omega)
  have hothers : ∀ i, k + 1 ≤ i → nodeAt u i = nodeAt s i := fun i hi => by
    rw [hnode, if_neg (by omega)]
    exact h.others i (by omega)
  have hqueue := weighted_succ s k
  rcases hcases with ⟨h0, rfl⟩ | ⟨h0, -, hlen, rfl⟩
  · rw [if_pos h0, List.append_nil, ← h.queue] at hqueue
    exact ⟨hw, hli, hlinext, h.next, hentry, hothers, hqueue.symm, h.nleaf⟩
  · have hlast : insertMember t.li t.pq = t.pq ++ [t.li] := insertMember_last fun j hj => by
      rw [h.queue, mem_weighted h.le] at hj
      rw [BitVec.lt_def, h.li]
      exact hj.1
    have hofNat : BitVec.ofNat 9 k = t.li := by simp [← h.li]
    rw [if_neg h0, hofNat, ← h.queue, ← hlast] at hqueue
    refine ⟨hw, hli, hlinext, h.next, hentry, hothers, hqueue.symm, ?_⟩
    have := h.nleaf
    simp only [length_insertMember]
    bv_omega

/-- BUILD's first loop loads all symbols. -/
theorem loaded_of_repeatOp {s t : State} (h : repeatOp loadSymbol 256 (buildStart s) = .next t) : Loaded s 256 t :=
  repeatOp_induction (fun _ _ _ => loaded_loadSymbol) (loaded_buildStart s) h

/-! ## BUILD merges the trees that wait (41_tree_builder.md R115 to R118, R127, R128) -/

/-- The trees under construction: the weights of those that wait add up to `total`, and the nodes of which nobody is the
parent yet are the ones that wait. -/
structure Forest (total : Nat) (s : State) : Prop where
  count    : s.nleaf.toNat = leafCount s
  lower    : 256 ≤ s.nextNode.toNat
  trees    : s.nextNode.toNat + s.pq.length = 256 + s.nleaf.toNat
  nodup    : s.pq.Nodup
  members  : ∀ i ∈ s.pq, InTree s i.toNat
  newest   : 256 < s.nextNode.toNat → ∃ i ∈ s.pq, i.toNat + 1 = s.nextNode.toNat
  internal : ∀ k, 256 ≤ k → k < s.nextNode.toNat → InternalOk s k
  parent   : ∀ i : NodeIndex, InTree s i.toNat → (parents s i.toNat).length = if i ∈ s.pq then 0 else 1
  total    : (s.pq.map fun i => (nodeAt s i.toNat).w.toNat).sum = total

theorem leafCount_le (s : State) : leafCount s ≤ 256 := by
  simpa [leafCount] using List.length_filter_le (fun i => decide ((nodeAt s i).w ≠ 0)) (List.range 256)

theorem weightSum_lt (s : State) : weightSum s < 2 ^ 40 := by
  have h : ∀ l : List Nat, (l.map fun i => (weightAt s i).toNat).sum ≤ l.length * (2 ^ 32 - 1) := fun l => by
    induction l with
    | nil => simp
    | cons i l ih =>
      have := (weightAt s i).isLt
      simp only [List.map_cons, List.sum_cons, List.length_cons]
      omega
  have := h (List.range 256)
  rw [List.length_range] at this
  exact Nat.lt_of_le_of_lt this (by decide)

theorem sum_weighted (s : State) (k : Nat) :
    (((List.range k).filter fun i => decide (weightAt s i ≠ 0)).map fun i => (weightAt s i).toNat).sum =
      ((List.range k).map fun i => (weightAt s i).toNat).sum := by
  induction k with
  | zero => rfl
  | succ k ih =>
    simp only [List.range_succ, List.filter_append, List.map_append, List.sum_append, ih, List.filter_cons,
      List.filter_nil]
    split <;> simp_all

/-- When all symbols are loaded, every tree is a leaf and waits. -/
theorem forest_of_loaded {s t : State} (h : Loaded s 256 t) : Forest (weightSum s) t := by
  have hnext : t.nextNode.toNat = 256 := by rw [h.next]; rfl
  have hw : ∀ i < 256, (nodeAt t i).w ≠ 0 ↔ weightAt s i ≠ 0 := fun i hi => by
    rw [h.entry i hi, not_iff_not]
    constructor <;> intro h <;> bv_omega
  have htree : ∀ i : NodeIndex, InTree t i.toNat ↔ i ∈ t.pq := fun i => by
    rw [h.queue, mem_weighted (Nat.le_refl 256), InTree, hnext]
    constructor
    · rintro (⟨hi, hne⟩ | ⟨h1, h2⟩)
      · exact ⟨hi, (hw _ hi).1 hne⟩
      · omega
    · exact fun ⟨hi, hne⟩ => .inl ⟨hi, (hw _ hi).2 hne⟩
  constructor
  case count =>
    rw [h.nleaf, h.queue, weighted, List.length_map, leafCount]
    refine congrArg List.length (List.filter_congr fun i hi => ?_)
    simp only [hw i (List.mem_range.1 hi)]
  case lower => exact Nat.le_of_eq hnext.symm
  case trees => rw [hnext, h.nleaf]
  case nodup =>
    rw [h.queue]
    refine List.Nodup.map_on (fun i hi j hj he => ?_) (List.nodup_range.filter _)
    simp only [List.mem_filter, List.mem_range] at hi hj
    bv_omega
  case members => exact fun i hi => (htree i).2 hi
  case newest => omega
  case internal => omega
  case parent =>
    intro i hi
    rw [if_pos ((htree i).1 hi), parents, hnext]
    rfl
  case total =>
    rw [h.queue, weightSum, ← sum_weighted, weighted, List.map_map]
    refine congrArg List.sum (List.map_congr_left fun i hi => ?_)
    simp only [List.mem_filter, List.mem_range] at hi
    have hi' : (BitVec.ofNat 9 i).toNat = i := by bv_omega
    simp only [Function.comp, hi', h.entry i hi.1]
    bv_omega

/-! ### One merge -/

theorem inTree_lt {s : State} {i : Nat} (hlower : 256 ≤ s.nextNode.toNat) (h : InTree s i) : i < s.nextNode.toNat := by
  rcases h with ⟨h, -⟩ | ⟨-, h⟩ <;> omega

theorem insertMember_perm (i : NodeIndex) (q : List NodeIndex) : (insertMember i q).Perm (i :: q) := by
  induction q with
  | nil => exact .refl _
  | cons j q ih =>
    unfold insertMember
    split
    · exact .refl _
    · exact (ih.cons j).trans (.swap i j q)

/-- A member taken out of the queue. -/
theorem perm_cons_filter {i : NodeIndex} {q : List NodeIndex} (hq : q.Nodup) (hi : i ∈ q) :
    q.Perm (i :: q.filter fun k => decide (k ≠ i)) := by
  have h := List.perm_cons_erase hi
  rw [hq.erase_eq_filter] at h
  refine h.trans (.cons i (.of_eq (List.filter_congr fun k _ => ?_)))
  by_cases hk : k = i <;> simp [hk]

section Merge

variable {s t : State} {total : Nat}

/-- What leaves the queue and what enters it. -/
theorem queue_mergePass (h : MergePass s t) (hnodup : s.pq.Nodup) :
    ∃ rest, s.pq.Perm (t.a :: t.b :: rest) ∧ t.pq.Perm (s.nextNode :: rest) := by
  obtain ⟨i, j, hi, hj, hne, -, rfl⟩ := h
  have h1 := perm_cons_filter hnodup (minMember_spec hi).1
  have h2 := perm_cons_filter (q := s.pq.filter fun k => decide (k ≠ i)) (hnodup.filter _)
    (List.mem_filter.2 ⟨hj, decide_eq_true hne⟩)
  exact ⟨_, h1.trans (h2.cons i), insertMember_perm _ _⟩

/-- The new node, and every other node as before. -/
theorem nodeAt_mergePass (h : MergePass s t) (k : Nat) :
    nodeAt t k = if s.nextNode.toNat = k
      then ⟨(nodeAt s t.a.toNat).w + (nodeAt s t.b.toNat).w, t.b, t.a⟩ else nodeAt s k := by
  obtain ⟨i, j, -, -, -, -, rfl⟩ := h
  exact Memory.read_write _ _ _ _ _

theorem nextNode_mergePass (h : MergePass s t) : t.nextNode.toNat = s.nextNode.toNat + 1 := by
  obtain ⟨i, j, -, -, -, hnext, rfl⟩ := h
  have := index_lt hnext
  bv_omega

theorem nleaf_mergePass (h : MergePass s t) : t.nleaf = s.nleaf := by
  obtain ⟨i, j, -, -, -, -, rfl⟩ := h
  rfl

theorem inTree_mergePass (h : MergePass s t) (hlower : 256 ≤ s.nextNode.toNat) (k : Nat) :
    InTree t k ↔ InTree s k ∨ k = s.nextNode.toNat := by
  simp only [InTree, nextNode_mergePass h, nodeAt_mergePass h]
  constructor
  · rintro (⟨hk, hw⟩ | hk)
    · rw [if_neg (by omega)] at hw
      exact .inl (.inl ⟨hk, hw⟩)
    · omega
  · rintro ((⟨hk, hw⟩ | hk) | rfl)
    · rw [if_neg (by omega)]
      exact .inl ⟨hk, hw⟩
    · exact .inr (by omega)
    · exact .inr (by omega)

theorem leafCount_mergePass (h : MergePass s t) (hlower : 256 ≤ s.nextNode.toNat) : leafCount t = leafCount s := by
  refine congrArg List.length (List.filter_congr fun k hk => ?_)
  have := List.mem_range.1 hk
  rw [nodeAt_mergePass h, if_neg (by omega)]

/-- The new node is a parent of the two trees it merges, and nobody else's. -/
theorem parents_mergePass (h : MergePass s t) (hlower : 256 ≤ s.nextNode.toNat) (k : Nat) :
    parents t k = parents s k ++ if t.b.toNat = k ∨ t.a.toNat = k then [s.nextNode.toNat] else [] := by
  have hrange : List.range' 256 (t.nextNode.toNat - 256) =
      List.range' 256 (s.nextNode.toNat - 256) ++ [s.nextNode.toNat] := by
    rw [nextNode_mergePass h, Nat.sub_add_comm hlower, List.range'_1_concat, Nat.add_sub_cancel' hlower]
  rw [parents, hrange, List.filter_append]
  refine congrArg₂ (· ++ ·) ?_ ?_
  · refine List.filter_congr fun p hp => ?_
    have := List.mem_range'_1.1 hp
    rw [nodeAt_mergePass h, if_neg (by omega)]
  · rw [List.filter_cons, nodeAt_mergePass h, if_pos rfl]
    simp

/-- A node not made yet is nobody's child. -/
theorem parents_of_new {s : State} (hinternal : ∀ k, 256 ≤ k → k < s.nextNode.toNat → InternalOk s k) {k : Nat}
    (hk : s.nextNode.toNat ≤ k) : parents s k = [] := by
  rw [parents, List.filter_eq_nil_iff]
  intro p hp
  have hrange := List.mem_range'_1.1 hp
  have hok := hinternal p hrange.1 (by omega)
  have := hok.leftLt
  have := hok.rightLt
  simp only [Bool.or_eq_true, decide_eq_true_eq]
  omega

/-- An internal node of before is one still. -/
theorem internalOk_mergePass (h : MergePass s t) (hlower : 256 ≤ s.nextNode.toNat) {k : Nat}
    (hk : k < s.nextNode.toNat) (hok : InternalOk s k) : InternalOk t k := by
  have hold : ∀ j < s.nextNode.toNat, nodeAt t j = nodeAt s j := fun j hj => by
    rw [nodeAt_mergePass h, if_neg (by omega)]
  have hleft := hok.leftLt
  have hright := hok.rightLt
  constructor <;> rw [hold k hk]
  · exact (inTree_mergePass h hlower _).2 (.inl hok.left)
  · exact (inTree_mergePass h hlower _).2 (.inl hok.right)
  · exact hok.distinct
  · exact hleft
  · exact hright
  · rw [hold _ (by omega), hold _ (by omega)]
    exact hok.weight

/-- How a merge stands to the queue of a forest: two trees `t.a`, `t.b` leave, their parent enters, `rest` stays. -/
structure ForestMerge (s t : State) (rest : List NodeIndex) : Prop where
  pass     : MergePass s t
  lower    : 256 ≤ s.nextNode.toNat
  leave    : s.pq.Perm (t.a :: t.b :: rest)
  enter    : t.pq.Perm (s.nextNode :: rest)
  distinct : t.a ≠ t.b
  leftOut  : t.a ∉ rest
  rightOut : t.b ∉ rest
  nodup    : rest.Nodup
  old      : ∀ i ∈ s.pq, InTree s i.toNat ∧ i.toNat < s.nextNode.toNat

theorem forestMerge_of_mergePass (hf : Forest total s) (h : MergePass s t) : ∃ rest, ForestMerge s t rest := by
  obtain ⟨rest, hleave, henter⟩ := queue_mergePass h hf.nodup
  have hnodup := hleave.nodup_iff.1 hf.nodup
  simp only [List.nodup_cons, List.mem_cons, not_or] at hnodup
  obtain ⟨⟨hab, ha⟩, hb, hrest⟩ := hnodup
  exact ⟨rest, h, hf.lower, hleave, henter, hab, ha, hb, hrest, fun i hi =>
    ⟨hf.members i hi, inTree_lt hf.lower (hf.members i hi)⟩⟩

variable {rest : List NodeIndex}

theorem ForestMerge.mem_before (h : ForestMerge s t rest) (i : NodeIndex) :
    i ∈ s.pq ↔ i = t.a ∨ i = t.b ∨ i ∈ rest := by simp [h.leave.mem_iff]

theorem ForestMerge.mem_after (h : ForestMerge s t rest) (i : NodeIndex) : i ∈ t.pq ↔ i = s.nextNode ∨ i ∈ rest := by
  simp [h.enter.mem_iff]

theorem ForestMerge.old_a (h : ForestMerge s t rest) : InTree s t.a.toNat ∧ t.a.toNat < s.nextNode.toNat :=
  h.old _ ((h.mem_before _).2 (.inl rfl))

theorem ForestMerge.old_b (h : ForestMerge s t rest) : InTree s t.b.toNat ∧ t.b.toNat < s.nextNode.toNat :=
  h.old _ ((h.mem_before _).2 (.inr (.inl rfl)))

theorem ForestMerge.old_rest (h : ForestMerge s t rest) {i : NodeIndex} (hi : i ∈ rest) :
    InTree s i.toNat ∧ i.toNat < s.nextNode.toNat :=
  h.old _ ((h.mem_before _).2 (.inr (.inr hi)))

/-- The weights of the trees that wait, two of them apart. -/
theorem ForestMerge.weights (h : ForestMerge s t rest) (hf : Forest total s) :
    (nodeAt s t.a.toNat).w.toNat + ((nodeAt s t.b.toNat).w.toNat +
      (rest.map fun i => (nodeAt s i.toNat).w.toNat).sum) = total := by
  have := hf.total
  rwa [(h.leave.map _).sum_eq, List.map_cons, List.map_cons, List.sum_cons, List.sum_cons] at this

/-- The weights of two trees that wait fit the width of a node weight, with all the others (R131). -/
theorem ForestMerge.weight (h : ForestMerge s t rest) (hf : Forest total s) (htotal : total < 2 ^ 40) :
    (nodeAt t s.nextNode.toNat).w.toNat = (nodeAt s t.a.toNat).w.toNat + (nodeAt s t.b.toNat).w.toNat := by
  have := h.weights hf
  rw [nodeAt_mergePass h.pass, if_pos rfl, BitVec.toNat_add]
  omega

theorem ForestMerge.nodeAt_old (h : ForestMerge s t rest) {k : Nat} (hk : k < s.nextNode.toNat) :
    nodeAt t k = nodeAt s k := by
  rw [nodeAt_mergePass h.pass, if_neg (by omega)]

theorem ForestMerge.inTree (h : ForestMerge s t rest) (k : Nat) : InTree t k ↔ InTree s k ∨ k = s.nextNode.toNat :=
  inTree_mergePass h.pass h.lower k

/-- The new node is an internal node of the tree (R127, R128). -/
theorem ForestMerge.internalOk_new (h : ForestMerge s t rest) (hf : Forest total s) (htotal : total < 2 ^ 40) :
    InternalOk t s.nextNode.toNat := by
  have hweight := h.weight hf htotal
  have hnew := nodeAt_mergePass h.pass s.nextNode.toNat
  rw [if_pos rfl] at hnew
  refine ⟨?_, ?_, ?_, ?_, ?_, ?_⟩
  · rw [hnew]
    exact (h.inTree _).2 (.inl h.old_b.1)
  · rw [hnew]
    exact (h.inTree _).2 (.inl h.old_a.1)
  · rw [hnew]
    exact h.distinct.symm
  · rw [hnew]
    exact h.old_b.2
  · rw [hnew]
    exact h.old_a.2
  · rw [hweight, hnew, h.nodeAt_old h.old_a.2, h.nodeAt_old h.old_b.2, Nat.add_comm]

/-- The two trees that leave the queue have a parent now; the node that enters it has none (R128). -/
theorem ForestMerge.parent (h : ForestMerge s t rest) (hf : Forest total s) {i : NodeIndex} (hi : InTree t i.toNat) :
    (parents t i.toNat).length = if i ∈ t.pq then 0 else 1 := by
  rw [parents_mergePass h.pass h.lower, List.length_append]
  rcases (h.inTree _).1 hi with hi | hi
  · have hlt := inTree_lt h.lower hi
    have hnew : i ≠ s.nextNode := fun he => by simp [he] at hlt
    rw [hf.parent i hi]
    have hbefore := h.mem_before i
    have hafter := h.mem_after i
    simp only [BitVec.toNat_inj]
    by_cases hchild : t.b = i ∨ t.a = i
    · have hout : i ∉ rest := by
        rcases hchild with rfl | rfl
        · exact h.rightOut
        · exact h.leftOut
      rw [if_pos hchild, if_pos (hbefore.2 (by grind)), if_neg (by grind)]
      rfl
    · have hsame : i ∈ s.pq ↔ i ∈ t.pq := by grind
      simp only [if_neg hchild, hsame, List.length_nil, Nat.add_zero]
  · have hnew := BitVec.eq_of_toNat_eq hi
    have := h.old_a.2
    have := h.old_b.2
    rw [hi, parents_of_new hf.internal (Nat.le_refl _), if_neg (by omega), if_pos ((h.mem_after i).2 (.inl hnew))]
    rfl

theorem forest_mergePass (hf : Forest total s) (htotal : total < 2 ^ 40) (hmerge : MergePass s t) : Forest total t := by
  obtain ⟨rest, h⟩ := forestMerge_of_mergePass hf hmerge
  have hlower := h.lower
  have hnext := nextNode_mergePass hmerge
  constructor
  case count =>
    rw [nleaf_mergePass hmerge, leafCount_mergePass hmerge hlower]
    exact hf.count
  case lower => omega
  case trees =>
    have htrees := hf.trees
    have hleave := h.leave.length_eq
    have henter := h.enter.length_eq
    simp only [List.length_cons] at hleave henter
    rw [nleaf_mergePass hmerge]
    omega
  case nodup =>
    exact h.enter.nodup_iff.2 (List.nodup_cons.2 ⟨fun hi => Nat.lt_irrefl _ (h.old_rest hi).2, h.nodup⟩)
  case members =>
    intro i hi
    rcases (h.mem_after i).1 hi with rfl | hi
    · exact (h.inTree _).2 (.inr rfl)
    · exact (h.inTree _).2 (.inl (h.old_rest hi).1)
  case newest => exact fun _ => ⟨s.nextNode, (h.mem_after _).2 (.inl rfl), hnext.symm⟩
  case internal =>
    intro k hk hlt
    rcases Nat.lt_succ_iff_lt_or_eq.1 (hnext ▸ hlt) with hold | rfl
    · exact internalOk_mergePass hmerge hlower hold (hf.internal k hk hold)
    · exact h.internalOk_new hf htotal
  case parent => exact fun i => h.parent hf
  case total =>
    have hrest : (rest.map fun i => (nodeAt t i.toNat).w.toNat) = rest.map fun i => (nodeAt s i.toNat).w.toNat :=
      List.map_congr_left fun i hi => by rw [h.nodeAt_old (h.old_rest hi).2]
    rw [(h.enter.map _).sum_eq, List.map_cons, List.sum_cons, hrest, h.weight hf htotal, Nat.add_assoc]
    exact h.weights hf

end Merge

/-! ### The end of BUILD -/

/-- A forest of one tree is a tree (10_state.md R37 (f)). -/
theorem treeShape_of_forest {total : Nat} {s : State} (hf : Forest total s) {i : NodeIndex} (hi : i ∈ s.pq)
    (honly : ∀ j ∈ s.pq, j = i) : TreeShape (finishTree { s with pq := [], a := i }) := by
  have hmem : ∀ j, j ∈ s.pq ↔ j = i := fun j => ⟨honly j, fun h => h ▸ hi⟩
  have hlength : s.pq.length = 1 := by
    have := (List.perm_ext_iff_of_nodup hf.nodup (List.nodup_singleton i)).2 (by simpa using hmem)
    simpa using this.length_eq
  have hlower := hf.lower
  have htrees := hf.trees
  have hmost := hf.count ▸ leafCount_le s
  constructor
  case count => exact hf.count
  case some_ =>
    show 1 ≤ s.nleaf.toNat
    omega
  case most => exact hmost
  case next =>
    show s.nextNode.toNat = 255 + s.nleaf.toNat
    omega
  case root => exact hf.members i hi
  case last =>
    intro (h2 : 2 ≤ s.nleaf.toNat)
    obtain ⟨j, hj, hlast⟩ := hf.newest (by omega)
    exact honly j hj ▸ hlast
  case internal =>
    intro k _ hk
    have hok := hf.internal k hk.1 hk.2
    exact ⟨hok.left, hok.right, hok.distinct, hok.leftLt, hok.rightLt, hok.weight⟩
  case parent =>
    intro k hk htree
    have hidx : (BitVec.ofNat 9 k).toNat = k := by bv_omega
    have hparent := hf.parent (BitVec.ofNat 9 k) (hidx.symm ▸ htree)
    simp only [hmem, ← BitVec.toNat_inj, hidx] at hparent
    exact hparent

/-- What BUILD leaves: a tree of the weights it began with, or no tree (41_tree_builder.md R113, R126, R128). -/
theorem tree_of_effect_build {s t : State} (h : Effect .build s t) :
    (t.treeValid = true → TreeShape t) ∧ t.codeValid = false := by
  obtain ⟨u, hload, hmerge⟩ := h
  obtain ⟨v, ⟨hw, hf⟩, hend⟩ := mergeLoop_induction
    (P := fun v => BuildWrites (buildStart s) v ∧ Forest (weightSum s) v)
    (fun v w ⟨hw, hf⟩ hpass => ⟨hw.trans (buildWrites_mergePass hpass), forest_mergePass hf (weightSum_lt s) hpass⟩)
    ⟨(loaded_of_repeatOp hload).writes, forest_of_loaded (loaded_of_repeatOp hload)⟩ hmerge
  have htree : v.treeValid = false := congrArg State.treeValid hw
  have hcode : v.codeValid = false := congrArg State.codeValid hw
  rcases hend with ⟨-, rfl⟩ | ⟨i, hi, honly, rfl⟩
  · simp [htree, hcode]
  · exact ⟨fun _ => treeShape_of_forest hf hi honly, by simpa using hcode⟩

/-- BUILD ends in `IDLE` with an empty queue, or in `FAULT` with the error of an empty table. -/
theorem registersOk_of_effect_build {s t : State} (hs : RegistersOk s) (hph : s.ph = .idle) (herr : s.err = none)
    (h : Effect .build s t) : RegistersOk t := by
  obtain ⟨u, hu, ⟨hempty, rfl⟩ | ⟨i, -, -, rfl⟩⟩ := effect_build h
  · have huph : u.ph = .tbLoad := congrArg State.ph hu
    have hcode : u.codeValid = false := congrArg State.codeValid hu
    rw [raise_outside _ (by simp [huph])]
    exact ⟨by simp [Boundary], by simp, hempty, by simp, by simp, by simp [hcode]⟩
  · rw [hu]
    exact ⟨.inl rfl, by simp [herr], rfl, fun _ => hs.waiting (.inl hph), by simp, by simp⟩

theorem coherent_build {s t : State} (hs : Coherent s) (hph : s.ph = .idle) (h : Effect .build s t) : Coherent t := by
  obtain ⟨htree, hcode⟩ := tree_of_effect_build h
  refine ⟨registersOk_of_effect_build hs.registers hph (hs.err_eq_none (by simp [hph])) h, htree, by simp [hcode], ?_⟩
  obtain ⟨u, -, ⟨-, rfl⟩ | ⟨i, -, -, rfl⟩⟩ := effect_build h
  · exact sessionOk_closed (by simp) (by simp)
  · exact sessionOk_closed (by simp) (by simp)

/-! ## Walks in a tree (00_scope.md R17, 41_tree_builder.md R128) -/

theorem leafOf_symOf {i : NodeIndex} (h : isLeaf i = true) : leafOf (symOf i) = i := by
  have := isLeaf_iff.1 h
  simp only [leafOf, symOf, BitVec.toNat_eq, BitVec.toNat_setWidth, BitVec.extractLsb'_toNat, Nat.shiftRight_zero]
  omega

theorem symOf_leafOf (x : Byte) : symOf (leafOf x) = x := by
  simp only [leafOf, symOf, BitVec.toNat_eq, BitVec.toNat_setWidth, BitVec.extractLsb'_toNat, Nat.shiftRight_zero]
  omega

theorem toNat_leafOf (x : Byte) : (leafOf x).toNat = x.toNat := by
  unfold leafOf
  bv_omega

theorem isLeaf_leafOf (x : Byte) : isLeaf (leafOf x) = true := isLeaf_iff.2 (toNat_leafOf x ▸ x.isLt)

/-- The leaf of a symbol is in the tree where it has a weight. -/
theorem inTree_leafOf {s : State} {x : Byte} : InTree s (leafOf x).toNat ↔ (nodeAt s x.toNat).w ≠ 0 := by
  have := x.isLt
  rw [toNat_leafOf, InTree]
  constructor
  · rintro (⟨-, hw⟩ | hrange)
    · exact hw
    · omega
  · exact fun hw => .inl ⟨this, hw⟩

/-- A tree has no node 511. -/
theorem nextNode_le {s : State} (h : TreeShape s) : s.nextNode.toNat ≤ 511 := by
  have := h.next
  have := h.most
  omega

/-- An internal node of the tree. -/
theorem internalOk_of_inTree {s : State} (h : TreeShape s) {i : NodeIndex} (hi : InTree s i.toNat)
    (hinner : isLeaf i = false) : InternalOk s i.toNat := by
  have hnot : ¬ i.toNat < 256 := fun hlt => by simp [isLeaf_iff.2 hlt] at hinner
  have := nextNode_le h
  rcases hi with ⟨hlt, -⟩ | hrange
  · exact absurd hlt hnot
  · exact h.internal _ (by omega) hrange

/-- A walk does not leave the tree. -/
theorem inTree_walk {s : State} (h : TreeShape s) {i j : NodeIndex} {p : List Bool} (hi : InTree s i.toNat)
    (hp : walk s i p = some j) : InTree s j.toNat := by
  induction p generalizing i with
  | nil =>
    cases hp
    exact hi
  | cons b q ih =>
    simp only [walk] at hp
    split at hp
    · cases hp
    · rename_i hstop
      simp only [not_or, Bool.not_eq_true] at hstop
      have hok := internalOk_of_inTree h hi hstop.1
      refine ih ?_ hp
      cases b
      · exact hok.left
      · exact hok.right

/-- Every node of the tree but the root has a parent, a node of the tree with a greater index. -/
theorem exists_parent {s : State} (h : TreeShape s) {i : NodeIndex} (hi : InTree s i.toNat) (hroot : i ≠ s.root) :
    ∃ j : NodeIndex, ∃ b,
      InTree s j.toNat ∧ isLeaf j = false ∧ j ≠ 511#9 ∧ i < j ∧ childOf (nodeAt s j.toNat) b = i := by
  have hle := nextNode_le h
  have hlt : i.toNat < 511 := by rcases hi with ⟨hi, -⟩ | ⟨-, hi⟩ <;> omega
  have hparents := h.parent _ hlt hi
  rw [if_neg fun he => hroot (BitVec.eq_of_toNat_eq he)] at hparents
  obtain ⟨p, hp⟩ := List.exists_mem_of_length_pos (by omega : 0 < (parents s i.toNat).length)
  simp only [parents, List.mem_filter, List.mem_range'_1, Bool.or_eq_true, decide_eq_true_eq] at hp
  obtain ⟨hrange, hchild⟩ := hp
  have hok := h.internal p (by omega) (by omega)
  have hleft := hok.leftLt
  have hright := hok.rightLt
  have hidx : (BitVec.ofNat 9 p).toNat = p := by bv_omega
  obtain ⟨b, hb⟩ : ∃ b, childOf (nodeAt s (BitVec.ofNat 9 p).toNat) b = i := by
    rw [hidx]
    rcases hchild with hl | hr
    · exact ⟨false, BitVec.eq_of_toNat_eq hl⟩
    · exact ⟨true, BitVec.eq_of_toNat_eq hr⟩
  refine ⟨BitVec.ofNat 9 p, b, ?_, ?_, ?_, ?_, hb⟩
  · exact .inr (by omega)
  · simp only [isLeaf, hidx]
    simpa using hrange.1
  · intro he
    have := congrArg BitVec.toNat he
    simp only [hidx, BitVec.toNat_ofNat] at this
    omega
  · rw [BitVec.lt_def, hidx]
    omega

/-- Every node of the tree is reached from the root. -/
theorem exists_walk {s : State} (h : TreeShape s) {i : NodeIndex} (hi : InTree s i.toNat) :
    ∃ p, walk s s.root p = some i := by
  by_cases hroot : i = s.root
  · exact ⟨[], by simp [hroot]⟩
  · obtain ⟨j, b, hj, hinner, hne, hlt, hchild⟩ := exists_parent h hi hroot
    obtain ⟨p, hp⟩ := exists_walk h hj
    exact ⟨p ++ [b], hchild ▸ walk_concat hp hinner hne b⟩
termination_by 512 - i.toNat
decreasing_by
  rw [BitVec.lt_def] at hlt
  omega

/-! ## The choices in `PATH` (42_code_deriver.md R142, R144) -/

/-- The first `n` choices of a path (20_memory.md R57). -/
def choices (p : PathBits) (n : Nat) : List Bool := (List.range n).map fun j => p.getLsbD j

theorem codeBits_eq_choices (e : CodeEntry) : codeBits e = choices e.bits e.len.toNat := rfl

theorem choices_succ (p : PathBits) (n : Nat) : choices p (n + 1) = choices p n ++ [p.getLsbD n] := by
  simp [choices, List.range_succ]

/-- Where no choice has been made, the next is left. -/
theorem choices_left {p : PathBits} {n : Nat} (h : p.toNat < 2 ^ n) : choices p (n + 1) = choices p n ++ [false] := by
  rw [choices_succ, BitVec.getLsbD, Nat.testBit_lt_two_pow h]

theorem toNat_branchRight (p : PathBits) {d : Nat} (hd : d < 255) :
    (branchRight p d).toNat = p.toNat % 2 ^ d + 2 ^ d := by
  have h1 : p.toNat % 2 ^ d < 2 ^ d := Nat.mod_lt _ (Nat.two_pow_pos d)
  have h2 : 2 ^ (d + 1) ≤ 2 ^ 255 := Nat.pow_le_pow_right (by decide) hd
  rw [branchRight, BitVec.toNat_ofNat, Nat.mod_eq_of_lt]
  omega

theorem branchRight_lt (p : PathBits) {d : Nat} (hd : d < 255) : (branchRight p d).toNat < 2 ^ (d + 1) := by
  have h1 : p.toNat % 2 ^ d < 2 ^ d := Nat.mod_lt _ (Nat.two_pow_pos d)
  rw [toNat_branchRight p hd]
  omega

/-- The choices before the branch are kept. -/
theorem choices_branchRight (p : PathBits) {d n : Nat} (hd : d < 255) (hn : n ≤ d) :
    choices (branchRight p d) n = choices p n := by
  refine List.map_congr_left fun j hj => ?_
  have hj := List.mem_range.1 hj
  rw [BitVec.getLsbD, BitVec.getLsbD, toNat_branchRight p hd, Nat.add_comm, Nat.testBit_two_pow_add_gt (by omega),
    Nat.testBit_mod_two_pow, decide_eq_true (Nat.lt_of_lt_of_le hj hn), Bool.true_and]

/-- At the branch the choice is right. -/
theorem choices_right (p : PathBits) {d : Nat} (hd : d < 255) :
    choices (branchRight p d) (d + 1) = choices p d ++ [true] := by
  have h1 : p.toNat % 2 ^ d < 2 ^ d := Nat.mod_lt _ (Nat.two_pow_pos d)
  rw [choices_succ, choices_branchRight p hd (Nat.le_refl d), BitVec.getLsbD, toNat_branchRight p hd, Nat.add_comm,
    Nat.testBit_two_pow_add_eq, Nat.testBit_lt_two_pow h1]
  rfl

/-! ## The traversal (42_code_deriver.md R141 to R147) -/

/-- The leaf of `x` lies at or below node `i`. -/
def Below (s : State) (i : NodeIndex) (x : Byte) : Prop := ∃ p, walk s i p = some (leafOf x)

/-- The code of `x` is not written yet, or leads from the root to the leaf of `x`. -/
def CodeSound (s : State) (x : Byte) : Prop :=
  codeAt s x = emptyCode ∨
    ((codeAt s x).valid = true ∧ walk s s.root (codeBits (codeAt s x)) = some (leafOf x) ∧
      (codeAt s x).bits.toNat < 2 ^ (codeAt s x).len.toNat)

/-- The pending right children, by rising depth: each is reached by the choices before its branch and then a right. -/
structure Pending (s : State) : Prop where
  leads  : ∀ k < s.sp.toNat,
    walk s s.root (choices s.path (stackAt s k).dep.toNat ++ [true]) = some (stackAt s k).node
  above  : ∀ k < s.sp.toNat, (stackAt s k).dep.toNat < s.cdep.toNat
  rising : ∀ j k, j < k → k < s.sp.toNat → (stackAt s j).dep.toNat < (stackAt s k).dep.toNat

/-- Before a visit: `PATH` leads to `CN`, and every leaf has its code or lies below `CN` or a pending child. -/
structure AtVisit (s : State) : Prop where
  pending : Pending s
  here    : walk s s.root (choices s.path s.cdep.toNat) = some s.cn
  path    : s.path.toNat < 2 ^ s.cdep.toNat
  sound   : ∀ x, CodeSound s x
  cover   : ∀ x : Byte, (nodeAt s x.toNat).w ≠ 0 →
    (codeAt s x).valid = true ∨ Below s s.cn x ∨ ∃ k < s.sp.toNat, Below s (stackAt s k).node x

/-- After a leaf: every leaf has its code or lies below a pending child. -/
structure AtPop (s : State) : Prop where
  pending : Pending s
  sound   : ∀ x, CodeSound s x
  cover   : ∀ x : Byte, (nodeAt s x.toNat).w ≠ 0 →
    (codeAt s x).valid = true ∨ ∃ k < s.sp.toNat, Below s (stackAt s k).node x

theorem atVisit_deriveStart {s : State} (h : TreeShape s) : AtVisit (deriveStart s) := by
  have hwalk : walk (deriveStart s) = walk s := walk_congr rfl
  refine ⟨⟨nofun, nofun, nofun⟩, rfl, by simp, fun x => .inl rfl, fun x hx => .inr (.inl ?_)⟩
  rw [Below, hwalk]
  exact exists_walk h (inTree_leafOf.2 hx)

/-- What is below an internal node is below its left or its right child. -/
theorem below_child {s : State} {i : NodeIndex} {x : Byte} (hinner : isLeaf i = false) (hne : i ≠ 511#9)
    (h : Below s i x) : Below s (nodeAt s i.toNat).l x ∨ Below s (nodeAt s i.toNat).r x := by
  obtain ⟨p, hp⟩ := h
  cases p with
  | nil =>
    simp only [walk_nil, Option.some.injEq] at hp
    simp [hp, isLeaf_leafOf] at hinner
  | cons b q =>
    rw [walk_cons hinner hne] at hp
    cases b
    · exact .inl ⟨q, hp⟩
    · exact .inr ⟨q, hp⟩

/-- What is below a leaf is the leaf. -/
theorem symOf_of_below {s : State} {i : NodeIndex} {x : Byte} (hleaf : isLeaf i = true) (h : Below s i x) :
    symOf i = x := by
  obtain ⟨p, hp⟩ := h
  rw [← (walk_leaf hleaf hp).2, symOf_leafOf]

/-- What a descent lets be read: the right child on top of the stack, `CN` at the left child, one choice more. -/
structure Descends (s t : State) : Prop where
  exists_ : s.cn ≠ 511#9
  node    : nodeAt t = nodeAt s
  walk    : walk t = walk s
  code    : codeAt t = codeAt s
  root    : t.root = s.root
  path    : t.path = s.path
  cn      : t.cn = (nodeAt s s.cn.toNat).l
  cdep    : t.cdep.toNat = s.cdep.toNat + 1
  sp      : t.sp.toNat = s.sp.toNat + 1
  old     : ∀ k < s.sp.toNat, stackAt t k = stackAt s k
  new     : stackAt t s.sp.toNat = ⟨(nodeAt s s.cn.toNat).r, s.cdep⟩

theorem descends_of_descendLeft {s t : State} (h : descendLeft s = .next t) : Descends s t := by
  obtain ⟨hne, hdep, hsp, rfl⟩ := descendLeft_eq_next.1 h
  refine ⟨hne, rfl, walk_congr rfl, rfl, rfl, rfl, rfl, ?_, ?_, fun k hk => ?_, ?_⟩
  · bv_omega
  · bv_omega
  · exact Memory.read_write_other (Nat.ne_of_gt hk)
  · exact Memory.read_write_same

/-- The right child left pending is the deepest. -/
theorem pending_descends {s t : State} (hs : AtVisit s) (hinner : isLeaf s.cn = false) (h : Descends s t) :
    Pending t := by
  have hlast : ∀ k < t.sp.toNat, k < s.sp.toNat ∨ k = s.sp.toNat := fun k hk =>
    Nat.lt_succ_iff_lt_or_eq.1 (Nat.lt_of_lt_of_eq hk h.sp)
  refine ⟨fun k hk => ?_, fun k hk => ?_, fun j k hjk hk => ?_⟩
  · rw [h.walk, h.root, h.path]
    rcases hlast k hk with hk | rfl
    · rw [h.old k hk]
      exact hs.pending.leads k hk
    · rw [h.new]
      exact walk_concat hs.here hinner h.exists_ true
  · rw [h.cdep]
    rcases hlast k hk with hk | rfl
    · rw [h.old k hk]
      exact Nat.lt_succ_of_lt (hs.pending.above k hk)
    · rw [h.new]
      exact Nat.lt_succ_self _
  · rcases hlast k hk with hk | rfl
    · rw [h.old k hk, h.old j (Nat.lt_trans hjk hk)]
      exact hs.pending.rising j k hjk hk
    · rw [h.new, h.old j hjk]
      exact hs.pending.above j hjk

/-- A descent goes on with the left child and leaves the right child pending (R142). -/
theorem atVisit_descendLeft {s t : State} (hs : AtVisit s) (hinner : isLeaf s.cn = false)
    (hdescend : descendLeft s = .next t) : AtVisit t := by
  have h := descends_of_descendLeft hdescend
  have hsp := h.sp
  refine ⟨pending_descends hs hinner h, ?_, ?_, fun x => ?_, fun x hx => ?_⟩
  · rw [h.walk, h.root, h.path, h.cdep, h.cn, choices_left hs.path]
    exact walk_concat hs.here hinner h.exists_ false
  · rw [h.path, h.cdep]
    exact Nat.lt_trans hs.path (Nat.pow_lt_pow_succ (by decide))
  · rw [CodeSound, h.code, h.walk, h.root]
    exact hs.sound x
  · rw [h.node] at hx
    simp only [h.code, Below, h.walk, h.cn]
    rcases hs.cover x hx with hvalid | hbelow | ⟨k, hk, hbelow⟩
    · exact .inl hvalid
    · rcases below_child hinner h.exists_ hbelow with hl | hr
      · exact .inr (.inl hl)
      · exact .inr (.inr ⟨s.sp.toNat, by omega, by rw [h.new]; exact hr⟩)
    · exact .inr (.inr ⟨k, by omega, by rw [h.old k hk]; exact hbelow⟩)

theorem codeAt_recordCode (s : State) (x : Byte) :
    codeAt (recordCode s) x = if symOf s.cn = x then ⟨true, s.cdep, s.path⟩ else codeAt s x := codeAt_setCode _ _ _ _

/-- At a leaf its code is written (R142). -/
theorem atPop_recordCode {s : State} (hs : AtVisit s) (hleaf : isLeaf s.cn = true) : AtPop (recordCode s) := by
  have hwalk : walk (recordCode s) = walk s := walk_congr rfl
  obtain ⟨⟨hleads, habove, hrising⟩, hhere, hlt, hsound, hcover⟩ := hs
  refine ⟨⟨fun k hk => ?_, habove, hrising⟩, fun x => ?_, fun x hx => ?_⟩
  · rw [hwalk]
    exact hleads k hk
  · rw [CodeSound, codeAt_recordCode, hwalk]
    split
    next hx => exact .inr ⟨rfl, by rw [codeBits_eq_choices, ← hx, leafOf_symOf hleaf]; exact hhere, hlt⟩
    next => exact hsound x
  · simp only [codeAt_recordCode, Below, hwalk]
    split
    next => exact .inl rfl
    next hne =>
      rcases hcover x hx with hvalid | hbelow | hpending
      · exact .inl hvalid
      · exact absurd (symOf_of_below hleaf hbelow) hne
      · exact .inr hpending

/-- What a resumption lets be read: `CN` at the child that was on top, the choices up to its branch and then a right. -/
structure Resumes (s t : State) : Prop where
  node  : nodeAt t = nodeAt s
  walk  : walk t = walk s
  code  : codeAt t = codeAt s
  stack : stackAt t = stackAt s
  root  : t.root = s.root
  sp    : s.sp.toNat = t.sp.toNat + 1
  depth : (stackAt s t.sp.toNat).dep.toNat < 255
  path  : t.path = branchRight s.path (stackAt s t.sp.toNat).dep.toNat
  cn    : t.cn = (stackAt s t.sp.toNat).node
  cdep  : t.cdep.toNat = (stackAt s t.sp.toNat).dep.toNat + 1

theorem resumes_of_resumeRight {s t : State} (hsp : s.sp ≠ 0#8) (h : resumeRight s = .next t) : Resumes s t := by
  obtain ⟨hdep, rfl⟩ := resumeRight_eq_next.1 h
  refine ⟨rfl, walk_congr rfl, rfl, rfl, rfl, ?_, ?_, rfl, rfl, ?_⟩
  · bv_omega
  · bv_omega
  · bv_omega

/-- A resumption goes on with the pending child on top (R144). -/
theorem atVisit_resumeRight {s t : State} (hs : AtPop s) (hsp : s.sp ≠ 0#8) (hresume : resumeRight s = .next t) :
    AtVisit t := by
  have h := resumes_of_resumeRight hsp hresume
  have htop : t.sp.toNat < s.sp.toNat := h.sp ▸ Nat.lt_succ_self _
  have hbelow : ∀ k < t.sp.toNat, (stackAt s k).dep.toNat < (stackAt s t.sp.toNat).dep.toNat := fun k hk =>
    hs.pending.rising k _ hk htop
  refine ⟨⟨fun k hk => ?_, fun k hk => ?_, fun j k hjk hk => ?_⟩, ?_, ?_, fun x => ?_, fun x hx => ?_⟩
  · rw [h.walk, h.root, h.stack, h.path, choices_branchRight _ h.depth (Nat.le_of_lt (hbelow k hk))]
    exact hs.pending.leads k (Nat.lt_trans hk htop)
  · rw [h.stack, h.cdep]
    exact Nat.lt_succ_of_lt (hbelow k hk)
  · rw [h.stack]
    exact hs.pending.rising j k hjk (Nat.lt_trans hk htop)
  · rw [h.walk, h.root, h.path, h.cdep, h.cn, choices_right _ h.depth]
    exact hs.pending.leads _ htop
  · rw [h.path, h.cdep]
    exact branchRight_lt _ h.depth
  · rw [CodeSound, h.code, h.walk, h.root]
    exact hs.sound x
  · rw [h.node] at hx
    simp only [h.code, Below, h.walk, h.cn, h.stack]
    rcases hs.cover x hx with hvalid | ⟨k, hk, hpending⟩
    · exact .inl hvalid
    · rcases Nat.lt_succ_iff_lt_or_eq.1 (h.sp ▸ hk) with hk | rfl
      · exact .inr (.inr ⟨k, hk, hpending⟩)
      · exact .inr (.inl hpending)

/-- With no child pending the code table is complete (R147). -/
theorem codeTable_of_atPop {s : State} (hs : AtPop s) (htree : TreeShape s) (hsp : s.sp = 0#8) : CodeTable s := by
  intro x
  have hvalid : (nodeAt s x.toNat).w ≠ 0 → (codeAt s x).valid = true := fun hw => by
    rcases hs.cover x hw with hvalid | ⟨k, hk, -⟩
    · exact hvalid
    · simp [hsp] at hk
  rcases hs.sound x with hempty | ⟨hv, hleads, hzero⟩
  · have hinvalid : (codeAt s x).valid = false := by rw [hempty]; rfl
    refine ⟨⟨fun hv => ?_, hvalid⟩, fun hv => ?_, ?_, fun _ => hempty⟩
    · simp [hinvalid] at hv
    · simp [hinvalid] at hv
    · rw [hempty]
      decide
  · exact ⟨⟨fun _ => inTree_leafOf.1 (inTree_walk htree htree.root hleads), hvalid⟩, fun _ => hleads, hzero,
      fun hinvalid => by simp [hv] at hinvalid⟩

/-! ### The end of DERIVE -/

/-- DERIVE writes the code table of its tree (R141, R147). -/
theorem codeTable_of_effect_derive {s t : State} (htree : TreeShape s) (h : Effect .derive s t) : CodeTable t := by
  obtain ⟨u, ⟨hu, hvisit⟩, hleaf, hsp, rfl⟩ := visitLoop_induction
    (P := fun u => DeriveWrites (deriveStart s) u ∧ AtVisit u)
    (fun v w ⟨hv, hvisit⟩ hinner hw => ⟨hv.trans (deriveWrites_descendLeft hw), atVisit_descendLeft hvisit hinner hw⟩)
    (fun v w ⟨hv, hvisit⟩ hleaf hsp hw =>
      ⟨hv.trans (deriveWrites_resumeRight hw), atVisit_resumeRight (atPop_recordCode hvisit hleaf) hsp hw⟩)
    ⟨.refl _, atVisit_deriveStart htree⟩ h.2
  have hsame : SameTree s (recordCode u) := by
    rw [hu]
    rfl
  exact codeTable_congr (s := recordCode u) rfl rfl rfl
    (codeTable_of_atPop (atPop_recordCode hvisit hleaf) (hsame.treeShape htree) hsp)

theorem coherent_derive {s t : State} (hs : Coherent s) (hph : s.ph = .idle) (h : Effect .derive s t) : Coherent t := by
  have hcodes := codeTable_of_effect_derive (hs.tree h.1) h
  have herr := hs.err_eq_none (by simp [hph])
  obtain ⟨u, hu, rfl⟩ := effect_derive h
  rw [hu] at hcodes ⊢
  refine ⟨?_, fun _ => SameTree.treeShape (s := s) rfl (hs.tree h.1), fun _ => hcodes,
    sessionOk_closed (by simp) (by simp)⟩
  exact ⟨.inl rfl, by simp [herr], hs.registers.queue, fun _ => hs.registers.waiting (.inl hph), by simp, fun _ => h.1⟩

/-! ## Every step keeps R37 -/

theorem coherent_effect {i : Instr} {s t : State} (hs : Coherent s) (hadm : admission (commandClass i) s.ph = .ok)
    (h : Effect i s t) : Coherent t := by
  cases i with
  | nop =>
    cases h
    exact hs
  | rst =>
    cases h
    exact coherent_resetItems s
  | clre =>
    cases h
    exact coherent_leaveFault hs
  | rds | fclr | fsmp | wrw | rdw | rdn | rdl | rdc =>
    cases h
    exact QuietWrites.coherent (s := s) rfl hs
  | fscl =>
    have hw : Coherent (setWeights (fun i => scaledWeight s.cfg (weightAt s i)) s) :=
      QuietWrites.coherent (s := s) rfl hs
    rcases h with rfl | rfl
    · exact hw
    · exact coherent_raise hw _
  | build => exact coherent_build hs (ph_of_admission_idle hadm) h
  | derive => exact coherent_derive hs (ph_of_admission_idle hadm) h
  | encs => exact coherent_encs hs (ph_of_admission_idle hadm) h
  | encb => exact coherent_encb hs (ph_of_admission_enc hadm) h
  | ence => exact coherent_ence hs (ph_of_admission_enc hadm) h
  | decs => exact coherent_decs hs (ph_of_admission_idle hadm) h
  | decb => exact coherent_decb hs (ph_of_admission_dec hadm) h
  | dece => exact coherent_dece hs (ph_of_admission_dec hadm) h

theorem coherent_exec {i : Instr} {s t : State} (hs : Coherent s) (h : exec i s = .next t) : Coherent t := by
  rcases exec_cases h with ⟨-, rfl⟩ | ⟨f, -, rfl⟩ | ⟨hadm, h⟩
  · exact hs
  · exact coherent_raise hs f
  · exact coherent_effect hs hadm h

/-- Every step keeps R37: `rst`, a wait, a command, an illegal word; a core at a boundary makes no FSM step. -/
theorem coherent_step {s t : State} (hs : Coherent s) (h : step s = .next t) : Coherent t := by
  have haccept : ∀ moves, Coherent (transferAll { s with host := moves }) := fun moves =>
    QuietWrites.coherent (s := s) rfl hs
  rcases step_cases s with ⟨k, moves, -, hstep⟩ | ⟨hbusy, -⟩ | ⟨-, -, hstep⟩ | ⟨c, moves, i, -, -, -, hstep⟩ |
    ⟨c, moves, e, -, -, -, hstep⟩
  · cases hstep.symm.trans h
    exact coherent_applyReset k _
  · simp [busyWire_eq_false.2 hs.registers.boundary] at hbusy
  · cases hstep.symm.trans h
    exact hs
  · exact coherent_exec (haccept moves) (hstep.symm.trans h)
  · cases hstep.symm.trans h
    exact coherent_raise (haccept moves) _

end Sys2Proof.Machine

/-! ## The statements -/

namespace Sys2Proof.Proofs.StateRules

open Sys2Proof.Machine Sys2Proof.Safety

/-- Settles O57: the registers are one part of `Coherent`, which every step keeps as a whole. -/
theorem registersKept : Obligations.RegistersKept := fun _ _ hinv hstep =>
  (coherent_step (coherent_of_inv hinv) hstep).registers

/-- Settles O58: BUILD's loop makes a tree, DERIVE's loop its code table, and no other command writes either. -/
theorem tablesKept : Obligations.TablesKept := fun _ _ hinv hstep =>
  have h := coherent_step (coherent_of_inv hinv) hstep
  ⟨h.tree, h.codes⟩

/-- Settles O59: a session is opened on the tables it needs, and a walk stays inside the tree until the sentinel. -/
theorem sessionKept : Obligations.SessionKept := fun _ _ hinv hstep =>
  (coherent_step (coherent_of_inv hinv) hstep).session

/-- Settles O15: a command dropped writes nothing, a raise `PH` and `ERR` alone, an effect the columns of its row. -/
theorem accessMatrix : Obligations.AccessMatrix := by
  intro i s t h
  rcases exec_cases h with ⟨-, rfl⟩ | ⟨f, hf, rfl⟩ | ⟨hadm, h⟩
  · simp
  · rcases raise_cases hf s with hs | hraised
    · simp [hs]
    · refine ⟨?_, ?_, ?_, ?_, ?_, ?_, ?_, fun _ => .inr hraised, fun _ => .inr hraised⟩
      all_goals simp
  · cases i with
    | nop | rst | clre | rds | fclr | fsmp | wrw | rdw | rdn | rdl | rdc | encb =>
      cases h
      simp [Instr.opcode]
    | fscl =>
      have hph := ph_of_admission_idle hadm
      rcases effect_fscl hph h with ht | ht
      · rw [ht]
        simp [Instr.opcode]
      · rw [ht]
        simp [Instr.opcode, mayRaise, hph]
    | build =>
      have hph := ph_of_admission_idle hadm
      obtain ⟨u, hu, ⟨-, rfl⟩ | ⟨j, -, -, rfl⟩⟩ := effect_build h
      · rw [hu]
        simp [Instr.opcode, hph, raise_outside, mayRaise]
      · rw [hu]
        simp [Instr.opcode]
    | derive =>
      obtain ⟨u, hu, rfl⟩ := effect_derive h
      rw [hu]
      simp [Instr.opcode]
    | encs =>
      obtain ⟨-, -, rfl⟩ := h
      simp [Instr.opcode]
    | ence =>
      obtain ⟨u, rfl, rfl⟩ := h
      dsimp only
      split <;> simp [Instr.opcode]
    | decs | dece =>
      obtain ⟨-, rfl⟩ := h
      simp [Instr.opcode]
    | decb =>
      rw [effect_decb h]
      simp [Instr.opcode]

/-- Settles O8: `rst` is the host's next move, so it is the turn in every state. -/
theorem stepObeysReset : Obligations.StepObeysReset := fun s taken moves hhost => by
  rw [step, turnOf, hhost]
  rfl

/-- Settles O10: each item as `State.resetWith` lists it, an entry of a memory with nothing listed, a bit of `ACC`. -/
theorem resetLeaves : Obligations.ResetLeaves := fun c =>
  ⟨rfl, rfl, rfl, rfl, rfl, rfl, rfl, rfl, rfl, rfl, rfl, rfl, rfl, rfl, rfl, rfl, rfl, rfl,
    fun _ hm => getLsbD_padByte c hm, fun _ => rfl, fun _ => rfl, rfl, fun _ => rfl, fun _ => rfl, rfl, rfl, rfl⟩

/-- Settles O54: no memory lists an entry, no table is valid, no session is open. -/
theorem invAtReset : Obligations.InvAtReset := inv_resetWith

end Sys2Proof.Proofs.StateRules

/-! SUPPORT. Proofs of the statements of 20_memory.md: every step keeps the memories in their canonical form (R51), and
commands and steps only append to the output (R60). -/

namespace Sys2Proof.Machine

open Sys2Proof.Safety

/-! ## States with the same memories -/

/-- `t` has the memories and the queue of `s`. -/
def SameMemories (s t : State) : Prop :=
  t.w = s.w ∧ t.node = s.node ∧ t.code = s.code ∧ t.stk = s.stk ∧ t.pq = s.pq

theorem SameMemories.canonical {s t : State} (h : SameMemories s t) (hs : Canonical s) : Canonical t := by
  obtain ⟨hw, hnode, hcode, hstk, hpq⟩ := h
  exact ⟨hw ▸ hs.w, hnode ▸ hs.node, hcode ▸ hs.code, hstk ▸ hs.stk, hpq ▸ hs.pq⟩

/-- A command whose row of the access matrix lists no memory leaves them all as they are (10_state.md R36). -/
theorem sameMemories_exec {i : Instr} {s t : State}
    (hrow : i.opcode ∉ [0x01#8, 0x10#8, 0x11#8, 0x12#8, 0x13#8, 0x20#8, 0x30#8]) (h : exec i s = .next t) :
    SameMemories s t := by
  obtain ⟨hw, htree, hcodes, -⟩ := Sys2Proof.Proofs.StateRules.accessMatrix i s t h
  simp only [List.mem_cons, List.not_mem_nil, or_false, not_or] at hrow hw htree hcodes
  obtain ⟨hrst, hfclr, hfsmp, hfscl, hwrw, hbuild, hderive⟩ := hrow
  obtain ⟨hnode, hpq, -⟩ := htree ⟨hrst, hbuild⟩
  obtain ⟨hcode, hstk, -⟩ := hcodes ⟨hrst, hderive⟩
  exact ⟨hw ⟨hrst, hfclr, hfsmp, hfscl, hwrw⟩, hnode, hcode, hstk, hpq⟩

/-! ## Each operation keeps the canonical form -/

section Canonical

variable {s t : State}

theorem canonical_raise (hs : Canonical s) (f : FaultName) : Canonical (raise f s) :=
  SameMemories.canonical (s := s) (by simp [SameMemories]) hs

theorem canonical_phase (hs : Canonical s) (p : Phase) : Canonical { s with ph := p } :=
  ⟨hs.w, hs.node, hs.code, hs.stk, hs.pq⟩

theorem canonical_resetItems (s : State) : Canonical (resetItems s) :=
  SameMemories.canonical (s := State.resetWith s.cfg) ⟨rfl, rfl, rfl, rfl, rfl⟩ (inv_resetWith s.cfg).canonical

theorem canonical_applyReset (k : Nat) (s : State) : Canonical (applyReset k s) :=
  SameMemories.canonical (s := State.resetWith s.cfg) ⟨rfl, rfl, rfl, rfl, rfl⟩ (inv_resetWith s.cfg).canonical

theorem canonical_setWeight (hs : Canonical s) (x : Byte) (v : Weight) : Canonical (setWeight x v s) :=
  ⟨Memory.wf_write hs.w x.isLt v, hs.node, hs.code, hs.stk, hs.pq⟩

theorem canonical_setWeights (hs : Canonical s) (f : Nat → Weight) : Canonical (setWeights f s) :=
  ⟨Memory.wf_fill 0 256 f, hs.node, hs.code, hs.stk, hs.pq⟩

theorem canonical_recordCode (hs : Canonical s) : Canonical (recordCode s) :=
  ⟨hs.w, hs.node, Memory.wf_write hs.code (symOf s.cn).isLt ⟨true, s.cdep, s.path⟩, hs.stk, hs.pq⟩

/-- Loading a symbol writes a leaf's entry, and puts the leaf into the queue only where it is no member yet. -/
theorem canonical_loadSymbol (hs : Canonical s) (h : loadSymbol s = .next t) : Canonical t := by
  obtain ⟨hli, ⟨-, rfl⟩ | ⟨-, hnew, -, rfl⟩⟩ := loadSymbol_eq_next h
  · exact ⟨hs.w, Memory.wf_write hs.node (by omega) _, hs.code, hs.stk, hs.pq⟩
  · exact ⟨hs.w, Memory.wf_write hs.node (by omega) _, hs.code, hs.stk, insertMember_rising hs.pq hnew⟩

theorem canonical_extractA (hs : Canonical s) (h : extractA s = .next t) : Canonical t := by
  obtain ⟨-, m, -, rfl⟩ := extractA_eq_next.1 h
  exact ⟨hs.w, hs.node, hs.code, hs.stk, hs.pq.filter _⟩

theorem canonical_extractB (hs : Canonical s) (h : extractB s = .next t) : Canonical t := by
  obtain ⟨-, m, -, rfl⟩ := extractB_eq_next.1 h
  exact ⟨hs.w, hs.node, hs.code, hs.stk, hs.pq.filter _⟩

/-- A merge writes the entry `NEXT`, which exists, and puts it into a queue of which it is no member. -/
theorem canonical_mergeTrees (hs : Canonical s) (h : mergeTrees s = .next t) : Canonical t := by
  obtain ⟨-, -, hnext, hnew, -, rfl⟩ := mergeTrees_eq_next h
  exact ⟨hs.w, Memory.wf_write hs.node (index_lt hnext) _, hs.code, hs.stk, insertMember_rising hs.pq hnew⟩

/-- A descent pushes at `SP`, which is below 255. -/
theorem canonical_descendLeft (hs : Canonical s) (h : descendLeft s = .next t) : Canonical t := by
  obtain ⟨-, -, hsp, rfl⟩ := descendLeft_eq_next.1 h
  have hlt : s.sp.toNat < 255 := by bv_omega
  exact ⟨hs.w, hs.node, hs.code, Memory.wf_write hs.stk hlt _, hs.pq⟩

theorem canonical_resumeRight (hs : Canonical s) (h : resumeRight s = .next t) : Canonical t := by
  obtain ⟨-, rfl⟩ := resumeRight_eq_next.1 h
  exact ⟨hs.w, hs.node, hs.code, hs.stk, hs.pq⟩

/-! ## The FSM -/

/-- Every state of the FSM keeps the canonical form: each is one of the operations above and a new `PH`. -/
theorem canonical_fsmStep (hs : Canonical s) (h : fsmStep s = .next t) : Canonical t := by
  cases hph : s.ph with simp only [fsmStep, hph] at h
  | idle | enc | dec | fault =>
    cases h
    exact hs
  | tbLoad =>
    obtain ⟨u, hu, h⟩ := andThen_eq_next.1 h
    cases h
    have hload := canonical_loadSymbol hs hu
    split
    · exact canonical_phase hload _
    · exact hload
  | tbXa =>
    unfold stateTbXa at h
    split at h
    · cases h
      exact canonical_raise hs _
    · obtain ⟨u, hu, h⟩ := andThen_eq_next.1 h
      cases h
      exact canonical_phase (canonical_extractA hs hu) _
  | tbChk =>
    unfold stateTbChk at h
    split at h
    · cases h
      exact ⟨hs.w, hs.node, hs.code, hs.stk, hs.pq⟩
    · cases h
      exact canonical_phase hs _
  | tbXb =>
    obtain ⟨u, hu, h⟩ := andThen_eq_next.1 h
    cases h
    exact canonical_phase (canonical_extractB hs hu) _
  | tbMerge =>
    obtain ⟨u, hu, h⟩ := andThen_eq_next.1 h
    cases h
    exact canonical_phase (canonical_mergeTrees hs hu) _
  | cdVisit =>
    unfold stateCdVisit at h
    split at h
    · cases h
      exact canonical_phase (canonical_recordCode hs) _
    · exact canonical_descendLeft hs h
  | cdPop =>
    unfold stateCdPop at h
    split at h
    · cases h
      exact ⟨hs.w, hs.node, hs.code, hs.stk, hs.pq⟩
    · exact canonical_resumeRight hs h

/-! ## The commands that write a memory -/

theorem canonical_mergeLoop {n : Nat} (hs : Canonical s) (h : mergeLoop n s = .next t) : Canonical t := by
  induction n generalizing s with
  | zero => cases h
  | succ n ih =>
    unfold mergeLoop at h
    split at h
    · cases h
      exact canonical_raise hs _
    · obtain ⟨u, hu, h⟩ := andThen_eq_next.1 h
      have hu := canonical_extractA hs hu
      split at h
      · cases h
        exact ⟨hu.w, hu.node, hu.code, hu.stk, hu.pq⟩
      · obtain ⟨v, hv, h⟩ := andThen_eq_next.1 h
        obtain ⟨w, hw, h⟩ := andThen_eq_next.1 h
        exact ih (canonical_mergeTrees (canonical_extractB hu hv) hw) h

theorem canonical_build (hs : Canonical s) (h : Effect .build s t) : Canonical t := by
  obtain ⟨u, hload, hmerge⟩ := h
  have hstart : Canonical (buildStart s) := ⟨hs.w, hs.node, hs.code, hs.stk, .nil⟩
  exact canonical_mergeLoop
    (repeatOp_induction (P := fun _ => Canonical) (fun _ _ _ hv hw => canonical_loadSymbol hv hw) hstart hload) hmerge

theorem canonical_derive (hs : Canonical s) (h : Effect .derive s t) : Canonical t := by
  have hstart : Canonical (deriveStart s) := ⟨hs.w, hs.node, Memory.wf_nil _ _, hs.stk, hs.pq⟩
  obtain ⟨u, hu, -, -, rfl⟩ := visitLoop_induction (P := Canonical)
    (fun _ _ hv _ hw => canonical_descendLeft hv hw)
    (fun _ _ hv _ _ hw => canonical_resumeRight (canonical_recordCode hv) hw) hstart h.2
  have hlast := canonical_recordCode hu
  exact ⟨hlast.w, hlast.node, hlast.code, hlast.stk, hlast.pq⟩

/-- Every command keeps the canonical form: seven write a memory, the others none (10_state.md R36). -/
theorem canonical_exec {i : Instr} (hs : Canonical s) (h : exec i s = .next t) : Canonical t := by
  rcases exec_cases h with ⟨-, rfl⟩ | ⟨f, -, rfl⟩ | ⟨-, heffect⟩
  · exact hs
  · exact canonical_raise hs f
  · cases i with
    | rst =>
      cases heffect
      exact canonical_resetItems s
    | fclr =>
      cases heffect
      exact canonical_setWeights hs _
    | fsmp | wrw =>
      cases heffect
      exact canonical_setWeight hs _ _
    | fscl =>
      have hscaled := canonical_setWeights hs fun i => scaledWeight s.cfg (weightAt s i)
      rcases heffect with rfl | rfl
      · exact hscaled
      · exact canonical_raise hscaled _
    | build => exact canonical_build hs heffect
    | derive => exact canonical_derive hs heffect
    | nop | clre | rds | rdw | rdn | rdl | rdc | encs | encb | ence | decs | decb | dece =>
      exact (sameMemories_exec (by simp [Instr.opcode]) h).canonical hs

/-- Every step keeps the canonical form, by the five kinds of step. -/
theorem canonical_step (hs : Canonical s) (h : step s = .next t) : Canonical t := by
  have haccept : ∀ moves, Canonical (transferAll { s with host := moves }) := fun _ =>
    ⟨hs.w, hs.node, hs.code, hs.stk, hs.pq⟩
  rcases step_cases s with ⟨k, moves, -, hstep⟩ | ⟨-, hstep⟩ | ⟨-, -, hstep⟩ | ⟨c, moves, i, -, -, -, hstep⟩ |
    ⟨c, moves, e, -, -, -, hstep⟩ <;> rw [hstep] at h
  · cases h
    exact canonical_applyReset k _
  · exact canonical_fsmStep hs h
  · cases h
    exact hs
  · exact canonical_exec (haccept moves) h
  · cases h
    exact canonical_raise (haccept moves) _

end Canonical

/-! ## What a command emits (20_memory.md R60) -/

/-- `t` has appended `es` to the output of `s`; the events taken and the host's moves are those of `s`. -/
structure Emits (es : List Event) (s t : State) : Prop where
  seen : t.seen = s.seen
  host : t.host = s.host
  outq : t.outq = s.outq ++ es

/-- Events on one channel: bytes on `out_data`, or one response. -/
def OneChannel (es : List Event) : Prop := (∀ e ∈ es, ∃ b, e = .out b) ∨ ∃ v, es = [.rsp v]

/-- `t` has appended bytes, possibly none, to the output of `s`. -/
def EmitsBytes (s t : State) : Prop := ∃ bytes : List Byte, Emits (bytes.map .out) s t

theorem emits_rsp (v : Response) (s : State) : Emits [.rsp v] s (emit (.rsp v) s) := ⟨rfl, rfl, rfl⟩

/-- What is emitted appends to the observation. -/
theorem Emits.observed_eq {es : List Event} {s t : State} (h : Emits es s t) : observed t = observed s ++ es := by
  simp [observed, h.seen, h.outq]

theorem EmitsBytes.of_unchanged {s t : State} (hseen : t.seen = s.seen) (hhost : t.host = s.host)
    (houtq : t.outq = s.outq) : EmitsBytes s t :=
  ⟨[], hseen, hhost, by simp [houtq]⟩

theorem EmitsBytes.refl (s : State) : EmitsBytes s s := .of_unchanged rfl rfl rfl

theorem EmitsBytes.trans {s t u : State} (h : EmitsBytes s t) (h' : EmitsBytes t u) : EmitsBytes s u := by
  obtain ⟨xs, hs⟩ := h
  obtain ⟨ys, ht⟩ := h'
  exact ⟨xs ++ ys, ht.seen.trans hs.seen, ht.host.trans hs.host, by simp [ht.outq, hs.outq]⟩

theorem EmitsBytes.oneChannel {s t : State} (h : EmitsBytes s t) : ∃ es, Emits es s t ∧ OneChannel es := by
  obtain ⟨bytes, h⟩ := h
  refine ⟨_, h, .inl fun e he => ?_⟩
  obtain ⟨b, -, rfl⟩ := List.mem_map.1 he
  exact ⟨b, rfl⟩

theorem SameHostSide.emitsBytes {s t : State} (h : SameHostSide s t) : EmitsBytes s t :=
  .of_unchanged h.seen h.host h.outq

theorem emitsBytes_flushByte (s : State) : EmitsBytes s (flushByte s) := ⟨[s.acc], rfl, rfl, rfl⟩

/-- A bit pushed lets a byte go where it fills it (43_bit_packer.md R164). -/
theorem emitsBytes_pushBit (s : State) (v : Bool) : EmitsBytes s (pushBit s v) := by
  by_cases hfull : s.nacc = 7#3
  · rw [pushBit_full hfull]
    have hplaced : EmitsBytes s (placeBit v s) := .of_unchanged rfl rfl rfl
    exact hplaced.trans (emitsBytes_flushByte _)
  · rw [pushBit_filling hfull]
    exact .of_unchanged rfl rfl rfl

theorem emitsBytes_pushBits (bits : List Bool) (s : State) : EmitsBytes s (pushBits s bits) := by
  induction bits generalizing s with
  | nil => exact .refl s
  | cons v q ih => exact (emitsBytes_pushBit s v).trans (ih (pushBit s v))

/-- The walk writes a byte where it arrives at a leaf that is not the sentinel's (44_bit_unpacker.md R183, R186). -/
theorem emitsBytes_arrive (s : State) : EmitsBytes s (arrive s) := by
  by_cases hleaf : isLeaf s.cur = true
  · by_cases hend : s.cur = leafOf s.cfg.eotSym
    · rw [arrive_sentinel hleaf hend]
      exact .of_unchanged rfl rfl rfl
    · rw [arrive_symbol hleaf hend]
      exact ⟨[symOf s.cur], rfl, rfl, rfl⟩
  · rw [arrive_inside (by simpa using hleaf)]
    exact .refl s

theorem emitsBytes_walkBit {b : Bool} {s t : State} (h : walkBit b s = .next t) : EmitsBytes s t := by
  rcases walkBit_eq_next.1 h with ⟨-, rfl⟩ | ⟨-, -, rfl⟩
  · exact .refl _
  · have hchild : EmitsBytes s { s with cur := childOf (nodeAt s s.cur.toNat) b } := .of_unchanged rfl rfl rfl
    exact hchild.trans (emitsBytes_arrive _)

theorem emitsBytes_walkBits {bits : List Bool} {s t : State} (h : walkBits bits s = .next t) : EmitsBytes s t :=
  walkBits_induction (P := EmitsBytes s) (fun _ _ _ hu hv => hu.trans (emitsBytes_walkBit hv)) (.refl s) h

theorem emitsBytes_raise (f : FaultName) (s : State) : EmitsBytes s (raise f s) := (sameHostSide_raise f s).emitsBytes

/-- A command that answers a next state emits on one channel: the reads a response, the sessions bytes, every other
command nothing. -/
theorem emits_exec {i : Instr} {s t : State} (h : exec i s = .next t) : ∃ es, Emits es s t ∧ OneChannel es := by
  rcases exec_cases h with ⟨-, rfl⟩ | ⟨f, -, rfl⟩ | ⟨-, heffect⟩
  · exact (EmitsBytes.refl _).oneChannel
  · exact (emitsBytes_raise f s).oneChannel
  · cases i with
    | rds | rdw | rdn | rdl | rdc =>
      cases heffect
      exact ⟨_, emits_rsp _ s, .inr ⟨_, rfl⟩⟩
    | nop | rst | clre | fclr | fsmp | wrw =>
      cases heffect
      exact EmitsBytes.oneChannel (.of_unchanged (by simp) (by simp) (by simp))
    | fscl =>
      have hscaled : EmitsBytes s (setWeights (fun i => scaledWeight s.cfg (weightAt s i)) s) :=
        .of_unchanged rfl rfl rfl
      rcases heffect with rfl | rfl
      · exact hscaled.oneChannel
      · exact (hscaled.trans (emitsBytes_raise _ _)).oneChannel
    | build => exact (sameHostSide_execBuild h).emitsBytes.oneChannel
    | derive => exact (sameHostSide_execDerive h).emitsBytes.oneChannel
    | encs =>
      obtain ⟨-, -, rfl⟩ := heffect
      exact EmitsBytes.oneChannel (.of_unchanged rfl rfl rfl)
    | encb x =>
      cases heffect
      have hcoll : EmitsBytes s { s with coll := s.coll || decide (x = s.cfg.eotSym) } := .of_unchanged rfl rfl rfl
      exact (hcoll.trans (emitsBytes_pushBits _ _)).oneChannel
    | ence =>
      obtain ⟨u, rfl, rfl⟩ := heffect
      have hpushed := emitsBytes_pushBits (codeBits (codeAt s s.cfg.eotSym)) s
      refine (hpushed.trans ?_).oneChannel
      split
      · exact .of_unchanged rfl rfl rfl
      · exact (emitsBytes_flushByte _).trans (.of_unchanged rfl rfl rfl)
    | decs | dece =>
      obtain ⟨-, rfl⟩ := heffect
      exact EmitsBytes.oneChannel (.of_unchanged rfl rfl rfl)
    | decb => exact (emitsBytes_walkBits heffect).oneChannel

/-! ## The observation -/

/-- Accepting a word moves what waits to what is taken, and the observation is as it was. -/
theorem observed_accept (s : State) (moves : List HostMove) :
    observed (transferAll { s with host := moves }) = observed s := by
  simp [observed]

/-- A step without `rst` appends to the observation. -/
theorem observed_step {s t : State} (h : step s = .next t) (hrst : ∀ taken moves, s.host ≠ .rst taken :: moves) :
    ∃ es, observed t = observed s ++ es := by
  rcases step_cases s with ⟨k, moves, hhost, -⟩ | ⟨-, hstep⟩ | ⟨-, -, hstep⟩ | ⟨c, moves, i, -, -, -, hstep⟩ |
    ⟨c, moves, e, -, -, -, hstep⟩
  · exact absurd hhost (hrst k moves)
  · obtain ⟨bytes, hemits⟩ := (sameHostSide_fsmStep (hstep ▸ h)).emitsBytes
    exact ⟨_, hemits.observed_eq⟩
  · cases hstep.symm.trans h
    exact ⟨[], by simp⟩
  · obtain ⟨es, hemits, -⟩ := emits_exec (hstep.symm.trans h)
    exact ⟨es, by rw [hemits.observed_eq, observed_accept]⟩
  · cases hstep.symm.trans h
    obtain ⟨bytes, hemits⟩ := emitsBytes_raise .eIllcmd (transferAll { s with host := moves })
    exact ⟨_, by rw [hemits.observed_eq, observed_accept]⟩

/-- `rst` leaves the events taken, and of those waiting the ones the host took before it (70_reset_and_hazards.md
R240). -/
theorem observed_applyReset (k : Nat) (s : State) :
    s.seen <+: (applyReset k s).seen ∧ (applyReset k s).seen <+: observed s := by
  rw [show (applyReset k s).seen = s.seen ++ s.outq.take k from rfl]
  exact ⟨List.prefix_append _ _, (List.prefix_append_right_inj _).2 (List.take_prefix k s.outq)⟩

end Sys2Proof.Machine

/-! ## The statements -/

namespace Sys2Proof.Proofs.MemoryRules

open Sys2Proof.Machine Sys2Proof.Safety

/-- Settles O55: each operation writes an index its memory has, and the queue gets no member twice. -/
theorem canonicalKept : Obligations.CanonicalKept := fun _ _ => canonical_step

/-- Settles O16: a response or bytes leave a command, acceptance moves events, `rst` drops waiting ones alone. -/
theorem outputOnlyGrows : Obligations.OutputOnlyGrows := by
  refine ⟨fun i s t h => ?_, fun s t => observed_step, fun s t taken moves h hhost => ?_⟩
  · obtain ⟨es, hemits, hchannel⟩ := emits_exec h
    exact ⟨hemits.seen, hemits.host, es, hemits.outq, hchannel⟩
  · cases (Sys2Proof.Proofs.StateRules.stepObeysReset s taken moves hhost).symm.trans h
    obtain ⟨hkept, hobserved⟩ := observed_applyReset taken s
    exact ⟨hkept, hobserved, rfl⟩

end Sys2Proof.Proofs.MemoryRules

/-! SUPPORT. Proofs of the statements of 30_encoding.md: decoding and encoding are inverse to each other (R71 to R74),
the decoder agrees with the mask-and-match table (R73, R75), a line assembles to the word of its instruction (R80), an
illegal word is refused (R75, R79), and `FAULT` holds the state (R222). -/

namespace Sys2Proof

open Sys2Proof.Safety

/-! ## The fields of a word (R70) -/

/-- A word is its three fields put together. -/
theorem commandWord_fields (c : Command) : commandWord (opField c) (aField c) (dField c) = c := by
  have hhigh : opField c ++ aField c = c.extractLsb' 32 16 := BitVec.extractLsb'_append_extractLsb'_eq_extractLsb' rfl
  have hword : c.extractLsb' 32 16 ++ dField c = c.extractLsb' 0 48 :=
    BitVec.extractLsb'_append_extractLsb'_eq_extractLsb' rfl
  rw [commandWord, hhigh, hword, BitVec.extractLsb'_eq_self]

theorem commandWord_inj {op op' : BitVec 8} {x x' : Byte} {d d' : BitVec 32} :
    commandWord op x d = commandWord op' x' d' ↔ op = op' ∧ x = x' ∧ d = d' := by
  refine ⟨fun h => ⟨?_, ?_, ?_⟩, ?_⟩
  · simpa only [opField_commandWord] using congrArg opField h
  · simpa only [aField_commandWord] using congrArg aField h
  · simpa only [dField_commandWord] using congrArg dField h
  · rintro ⟨rfl, rfl, rfl⟩
    rfl

theorem commandWord_and (op op' : BitVec 8) (x x' : Byte) (d d' : BitVec 32) :
    commandWord op x d &&& commandWord op' x' d' = commandWord (op &&& op') (x &&& x') (d &&& d') := by
  rw [commandWord, commandWord, commandWord, BitVec.and_append, BitVec.and_append]

/-- A word with given fields `a` and `d`. -/
theorem eq_commandWord_iff {c : Command} {x : Byte} {d : BitVec 32} :
    c = commandWord (opField c) x d ↔ aField c = x ∧ dField c = d := by
  constructor
  · intro h
    rw [h, aField_commandWord, dField_commandWord]
    exact ⟨rfl, rfl⟩
  · rintro ⟨rfl, rfl⟩
    exact (commandWord_fields c).symm

/-! ## Numbers whose high bits are zero -/

section HighBits

variable {m n : Nat}

theorem zero_append_eq_setWidth (x : BitVec n) : 0#m ++ x = x.setWidth (m + n) := by
  rw [BitVec.setWidth_eq_append (Nat.le_add_left n m)]
  apply BitVec.eq_of_toNat_eq
  simp

theorem high_setWidth (x : BitVec n) : (x.setWidth (m + n)).extractLsb' n m = 0 := by
  rw [← zero_append_eq_setWidth]
  exact BitVec.extractLsb'_append_eq_left

theorem low_setWidth (x : BitVec n) : (x.setWidth (m + n)).extractLsb' 0 n = x := by
  rw [← zero_append_eq_setWidth]
  exact BitVec.extractLsb'_append_eq_right

/-- A number whose high bits are zero is its low bits, extended. -/
theorem setWidth_low {d : BitVec (m + n)} (h : d.extractLsb' n m = 0) : (d.extractLsb' 0 n).setWidth (m + n) = d :=
  calc (d.extractLsb' 0 n).setWidth (m + n)
    _ = d.extractLsb' n m ++ d.extractLsb' 0 n := by rw [h, ← zero_append_eq_setWidth]; rfl
    _ = d := BitVec.extractLsb'_append_extractLsb'

/-- Masking with ones above `n` zeros tests the high bits. -/
theorem and_highMask_eq_zero_iff {d : BitVec (m + n)} :
    d &&& (BitVec.allOnes m ++ 0#n) = 0 ↔ d.extractLsb' n m = 0 := by
  conv_lhs =>
    rw [← BitVec.extractLsb'_append_extractLsb' (x := d), BitVec.and_append, BitVec.and_allOnes, BitVec.and_zero]
  exact ⟨fun h => (BitVec.append_left_inj 0#n).1 (h.trans BitVec.zero_append_zero.symm), fun h => by simp [h]⟩

end HighBits

/-! ## The five formats (R71) -/

/-- The fields `a` and `d` of a word of a format, and the operands they hold as a line lists them (R71, R72, R80). -/
inductive FieldsHold : Format → Byte → BitVec 32 → List Nat → Prop where
  | n : FieldsHold .n 0 0 []
  | a (x : Byte) : FieldsHold .a x 0 [x.toNat]
  | ad (x : Byte) (d : BitVec 32) : FieldsHold .ad x d [x.toNat, d.toNat]
  | x9 (i : NodeIndex) : FieldsHold .x9 0 (i.setWidth 32) [i.toNat]
  | ax2 (x : Byte) (q : BitVec 2) : FieldsHold .ax2 x (q.setWidth 32) [x.toNat, q.toNat]

/-! What the decoder reads from a word, a format at a time: the instruction with the operands the fields hold. -/

theorem formatN_eq_ok {c : Command} {i j : Instr} :
    formatN c j = .ok i ↔ j = i ∧ c = commandWord (opField c) 0 0 := by
  rw [eq_commandWord_iff, formatN]
  split <;> simp_all

theorem formatA_eq_ok {c : Command} {i : Instr} {k : Byte → Instr} :
    formatA c k = .ok i ↔ ∃ x, k x = i ∧ c = commandWord (opField c) x 0 := by
  simp only [eq_commandWord_iff, formatA]
  split <;> simp_all

theorem formatAD_eq_ok {c : Command} {i : Instr} {k : Byte → Weight → Instr} :
    formatAD c k = .ok i ↔ ∃ x d, k x d = i ∧ c = commandWord (opField c) x d := by
  simp [eq_commandWord_iff, formatAD]

theorem formatX9_eq_ok {c : Command} {i : Instr} {k : NodeIndex → Instr} :
    formatX9 c k = .ok i ↔ ∃ x, k x = i ∧ c = commandWord (opField c) 0 (x.setWidth 32) := by
  simp only [eq_commandWord_iff, formatX9]
  constructor
  · intro h
    split at h
    · rename_i hzero
      cases h
      exact ⟨_, rfl, hzero.1, (setWidth_low (m := 23) hzero.2).symm⟩
    · cases h
  · rintro ⟨x, rfl, ha, hd⟩
    rw [hd, if_pos ⟨ha, high_setWidth (m := 23) x⟩, low_setWidth (m := 23) x]

theorem formatAX2_eq_ok {c : Command} {i : Instr} {k : Byte → BitVec 2 → Instr} :
    formatAX2 c k = .ok i ↔ ∃ x q, k x q = i ∧ c = commandWord (opField c) x (q.setWidth 32) := by
  simp only [eq_commandWord_iff, formatAX2]
  constructor
  · intro h
    split at h
    · rename_i hzero
      cases h
      exact ⟨_, _, rfl, rfl, (setWidth_low (m := 30) hzero).symm⟩
    · cases h
  · rintro ⟨x, q, rfl, rfl, hd⟩
    rw [hd, if_pos (high_setWidth (m := 30) q), low_setWidth (m := 30) q]

/-! ## Decoding and encoding are inverse to each other -/

theorem opField_encode (i : Instr) : opField (encode i) = i.opcode := by
  cases i <;> exact opField_commandWord _ _ _

theorem decode_encode (i : Instr) : decode (encode i) = .ok i := by
  unfold decode
  rw [opField_encode]
  cases i with
  | nop | rst | clre | rds | fclr | fscl | build | derive | encs | ence | decs | dece =>
    exact formatN_eq_ok.2 ⟨rfl, by rw [opField_encode]; rfl⟩
  | fsmp x | rdw x | rdl x | encb x | decb x => exact formatA_eq_ok.2 ⟨x, rfl, by rw [opField_encode]; rfl⟩
  | wrw x d => exact formatAD_eq_ok.2 ⟨x, d, rfl, by rw [opField_encode]; rfl⟩
  | rdn x => exact formatX9_eq_ok.2 ⟨x, rfl, by rw [opField_encode]; rfl⟩
  | rdc x q => exact formatAX2_eq_ok.2 ⟨x, q, rfl, by rw [opField_encode]; rfl⟩

/-- By the arms of `decode`, numbered in the order of R73 and grouped by format: a word that passes its arm's test is the
word of the instruction the arm gives. -/
theorem encode_of_decode {c : Command} {i : Instr} (h : decode c = .ok i) : encode i = c := by
  unfold decode at h
  split at h
  case h_1 hop | h_2 hop | h_3 hop | h_4 hop | h_5 hop | h_7 hop | h_10 hop | h_12 hop | h_15 hop | h_17 hop |
      h_18 hop | h_20 hop =>
    obtain ⟨rfl, hc⟩ := formatN_eq_ok.1 h
    exact (hop ▸ hc).symm
  case h_6 hop | h_9 hop | h_13 hop | h_16 hop | h_19 hop =>
    obtain ⟨x, rfl, hc⟩ := formatA_eq_ok.1 h
    exact (hop ▸ hc).symm
  case h_8 hop =>
    obtain ⟨x, d, rfl, hc⟩ := formatAD_eq_ok.1 h
    exact (hop ▸ hc).symm
  case h_11 hop =>
    obtain ⟨x, rfl, hc⟩ := formatX9_eq_ok.1 h
    exact (hop ▸ hc).symm
  case h_14 hop =>
    obtain ⟨x, q, rfl, hc⟩ := formatAX2_eq_ok.1 h
    exact (hop ▸ hc).symm
  case h_21 => cases h

/-- What a word decodes to is the instruction it is the word of. -/
theorem decode_eq_ok_iff {c : Command} {i : Instr} : decode c = .ok i ↔ encode i = c :=
  ⟨encode_of_decode, fun h => h ▸ decode_encode i⟩

/-! ## The opcode table (R73) -/

/-- The format of an instruction's row. -/
def Instr.format : Instr → Format
  | .nop | .rst | .clre | .rds | .fclr | .fscl | .build | .derive | .encs | .ence | .decs | .dece => .n
  | .fsmp _ | .rdw _ | .rdl _ | .encb _ | .decb _ => .a
  | .wrw _ _ => .ad
  | .rdn _ => .x9
  | .rdc _ _ => .ax2

/-- An instruction has a row, with its opcode and its format. -/
theorem exists_row (i : Instr) : ∃ r ∈ opcodeRows, r.op = i.opcode ∧ r.fmt = i.format := by
  cases i <;> simp only [Instr.opcode, Instr.format] <;> decide

/-- The word of an instruction: its opcode, and the fields that hold its operands. -/
theorem exists_fields (i : Instr) :
    ∃ x d, encode i = commandWord i.opcode x d ∧ FieldsHold i.format x d (operandsOf i) := by
  cases i with
  | nop | rst | clre | rds | fclr | fscl | build | derive | encs | ence | decs | dece => exact ⟨_, _, rfl, .n⟩
  | fsmp x | rdw x | rdl x | encb x | decb x => exact ⟨_, _, rfl, .a x⟩
  | wrw x d => exact ⟨_, _, rfl, .ad x d⟩
  | rdn x => exact ⟨_, _, rfl, .x9 x⟩
  | rdc x q => exact ⟨_, _, rfl, .ax2 x q⟩

/-- Every row with operands that fit is an instruction. -/
theorem exists_instr {r : Row} (hr : r ∈ opcodeRows) {x : Byte} {d : BitVec 32} {xs : List Nat}
    (hfields : FieldsHold r.fmt x d xs) :
    ∃ i : Instr, i.opcode = r.op ∧ operandsOf i = xs ∧ encode i = commandWord r.op x d := by
  simp only [opcodeRows, List.mem_append, List.mem_cons, List.not_mem_nil, or_false, or_assoc] at hr
  rcases hr with rfl | rfl | rfl | rfl | rfl | rfl | rfl | rfl | rfl | rfl | rfl | rfl | rfl | rfl | rfl | rfl | rfl |
    rfl | rfl | rfl <;> cases hfields
  · exact ⟨.nop, rfl, rfl, rfl⟩
  · exact ⟨.rst, rfl, rfl, rfl⟩
  · exact ⟨.clre, rfl, rfl, rfl⟩
  · exact ⟨.rds, rfl, rfl, rfl⟩
  · exact ⟨.fclr, rfl, rfl, rfl⟩
  · exact ⟨.fsmp _, rfl, rfl, rfl⟩
  · exact ⟨.fscl, rfl, rfl, rfl⟩
  · exact ⟨.wrw _ _, rfl, rfl, rfl⟩
  · exact ⟨.rdw _, rfl, rfl, rfl⟩
  · exact ⟨.build, rfl, rfl, rfl⟩
  · exact ⟨.rdn _, rfl, rfl, rfl⟩
  · exact ⟨.derive, rfl, rfl, rfl⟩
  · exact ⟨.rdl _, rfl, rfl, rfl⟩
  · exact ⟨.rdc _ _, rfl, rfl, rfl⟩
  · exact ⟨.encs, rfl, rfl, rfl⟩
  · exact ⟨.encb _, rfl, rfl, rfl⟩
  · exact ⟨.ence, rfl, rfl, rfl⟩
  · exact ⟨.decs, rfl, rfl, rfl⟩
  · exact ⟨.decb _, rfl, rfl, rfl⟩
  · exact ⟨.dece, rfl, rfl, rfl⟩

/-! ## The masks (R71, R73) -/

/-- The part of a format's mask that stands over `a` and `d`. -/
def Format.fieldMasks : Format → Byte × BitVec 32
  | .n => (BitVec.allOnes 8, BitVec.allOnes 32)
  | .a => (0, BitVec.allOnes 32)
  | .ad => (0, 0)
  | .x9 => (BitVec.allOnes 8, BitVec.allOnes 23 ++ 0#9)
  | .ax2 => (0, BitVec.allOnes 30 ++ 0#2)

theorem Format.mask_eq (f : Format) : f.mask = commandWord (BitVec.allOnes 8) f.fieldMasks.1 f.fieldMasks.2 := by
  cases f <;> rfl

/-- The masked bits of the fields are zero iff the fields hold operands. -/
theorem fieldMasks_eq_zero_iff {f : Format} {x : Byte} {d : BitVec 32} :
    (x &&& f.fieldMasks.1 = 0 ∧ d &&& f.fieldMasks.2 = 0) ↔ ∃ xs, FieldsHold f x d xs := by
  constructor
  · rintro ⟨hx, hd⟩
    cases f with simp only [Format.fieldMasks, BitVec.and_allOnes] at hx hd
    | n =>
      subst hx hd
      exact ⟨_, .n⟩
    | a =>
      subst hd
      exact ⟨_, .a x⟩
    | ad => exact ⟨_, .ad x d⟩
    | x9 =>
      subst hx
      rw [← setWidth_low (m := 23) (n := 9) (and_highMask_eq_zero_iff.1 hd)]
      exact ⟨_, .x9 _⟩
    | ax2 =>
      rw [← setWidth_low (m := 30) (n := 2) (and_highMask_eq_zero_iff.1 hd)]
      exact ⟨_, .ax2 x _⟩
  · rintro ⟨xs, h⟩
    cases h with
    | n | a | ad => simp [Format.fieldMasks]
    | x9 i => exact ⟨BitVec.zero_and, and_highMask_eq_zero_iff.2 (high_setWidth (m := 23) i)⟩
    | ax2 x q => exact ⟨BitVec.and_zero, and_highMask_eq_zero_iff.2 (high_setWidth (m := 30) q)⟩

/-- A word selects a row iff it has the row's `op` and its fields hold operands of the row's format. -/
theorem selects_iff {r : Row} {c : Command} :
    r.selects c = true ↔ opField c = r.op ∧ ∃ xs, FieldsHold r.fmt (aField c) (dField c) xs := by
  have hmatch : r.matchWord = commandWord r.op 0 0 := by
    rw [Row.matchWord, commandWord, BitVec.append_assoc]
    rfl
  rw [Row.selects, beq_iff_eq, hmatch, Format.mask_eq, ← fieldMasks_eq_zero_iff]
  conv_lhs => rw [← commandWord_fields c, commandWord_and, commandWord_inj, BitVec.and_allOnes]

/-- A word that selects a row is the word of an instruction. -/
theorem exists_encode_of_selects {r : Row} (hr : r ∈ opcodeRows) {c : Command} (h : r.selects c = true) :
    ∃ i, encode i = c := by
  obtain ⟨hop, xs, hfields⟩ := selects_iff.1 h
  obtain ⟨i, -, -, hword⟩ := exists_instr hr hfields
  exact ⟨i, by rw [hword, ← hop, commandWord_fields]⟩

/-- The word of an instruction selects the row of its opcode. -/
theorem exists_selected_row (i : Instr) : ∃ r ∈ opcodeRows, r.selects (encode i) = true ∧ r.op = i.opcode := by
  obtain ⟨r, hr, hop, hfmt⟩ := exists_row i
  obtain ⟨x, d, hword, hfields⟩ := exists_fields i
  refine ⟨r, hr, selects_iff.2 ?_, hop⟩
  rw [hword, opField_commandWord, aField_commandWord, dField_commandWord, hfmt]
  exact ⟨hop.symm, _, hfields⟩

/-- No two rows have the same `op`, so a word selects one row at most. -/
theorem length_selected_le_one (c : Command) : (opcodeRows.filter fun r => r.selects c).length ≤ 1 := by
  have hnodup : ((opcodeRows.filter fun r => r.selects c).map Row.op).Nodup :=
    List.Nodup.sublist (List.filter_sublist.map Row.op) (by decide)
  have hsame : (opcodeRows.filter fun r => r.selects c).map Row.op =
      List.replicate (opcodeRows.filter fun r => r.selects c).length (opField c) := by
    refine List.eq_replicate_iff.2 ⟨List.length_map _, fun op hop => ?_⟩
    obtain ⟨r, hr, rfl⟩ := List.mem_map.1 hop
    exact (selects_iff.1 (List.mem_filter.1 hr).2).1.symm
  rwa [hsame, List.nodup_replicate] at hnodup

theorem wordLegal_iff {c : Command} : wordLegal c = true ↔ ∃ i, decode c = .ok i := by
  simp only [wordLegal, List.any_eq_true, decode_eq_ok_iff]
  constructor
  · rintro ⟨r, hr, hselects⟩
    exact exists_encode_of_selects hr hselects
  · rintro ⟨i, rfl⟩
    obtain ⟨r, hr, hselects, -⟩ := exists_selected_row i
    exact ⟨r, hr, hselects⟩

/-! ## Lines of assembly (R80) -/

theorem exists_toNat_eq {w k : Nat} (h : k < 2 ^ w) : ∃ x : BitVec w, x.toNat = k :=
  ⟨.ofNatLT k h, BitVec.toNat_ofNatLT k h⟩

/-- Operands that fit a format are what the fields the assembler fills hold. -/
theorem fieldsHold_of_fits {f : Format} {xs : List Nat} (h : f.fits xs = true) :
    FieldsHold f (operandFields f xs).1 (operandFields f xs).2 xs := by
  unfold Format.fits at h
  split at h <;> simp only [Bool.and_eq_true, decide_eq_true_eq, Bool.false_eq_true] at h
  case h_1 => exact .n
  case h_2 =>
    obtain ⟨x, rfl⟩ := exists_toNat_eq (w := 8) h
    simpa [operandFields] using FieldsHold.a x
  case h_3 =>
    obtain ⟨x, rfl⟩ := exists_toNat_eq (w := 8) h.1
    obtain ⟨d, rfl⟩ := exists_toNat_eq (w := 32) h.2
    simpa [operandFields] using FieldsHold.ad x d
  case h_4 =>
    obtain ⟨i, rfl⟩ := exists_toNat_eq (w := 9) h
    simpa [operandFields] using FieldsHold.x9 i
  case h_5 =>
    obtain ⟨x, rfl⟩ := exists_toNat_eq (w := 8) h.1
    obtain ⟨q, rfl⟩ := exists_toNat_eq (w := 2) h.2
    simpa [operandFields] using FieldsHold.ax2 x q

theorem rowOf_eq_some {m : String} {r : Row} (h : rowOf m = some r) : r ∈ opcodeRows ∧ r.mnemonic = m :=
  ⟨List.mem_of_find?_eq_some h, by simpa using List.find?_some h⟩

theorem wellFormed_iff {l : Line} :
    l.wellFormed = true ↔ ∃ r, rowOf l.mnemonic = some r ∧ r.fmt.fits l.operands = true := by
  unfold Line.wellFormed
  cases rowOf l.mnemonic <;> simp

theorem assemble_eq_some_iff {l : Line} {c : Command} :
    assemble l = some c ↔ ∃ r, rowOf l.mnemonic = some r ∧ r.fmt.fits l.operands = true ∧
      commandWord r.op (operandFields r.fmt l.operands).1 (operandFields r.fmt l.operands).2 = c := by
  unfold assemble
  cases rowOf l.mnemonic <;> simp

end Sys2Proof

namespace Sys2Proof.Machine

/-! ## A word that is illegal (R75, R79) -/

/-- The step that accepts an illegal word. -/
theorem step_illegal {s : State} {c : Command} {moves : List HostMove} {e : Illegal} (hhost : s.host = .cmd c :: moves)
    (hboundary : busyWire s = false) (hdecode : decode c = .error e) :
    step s = .next (raise .eIllcmd (transferAll { s with host := moves })) := by
  simp [step, turnOf_command hhost hboundary, hdecode, runIllegal]

/-! ## `FAULT` (R78, R222) -/

/-- Every command begins with the check of its class (R79). -/
theorem exec_eq_withAdmission (i : Instr) : ∃ body, ∀ s, exec i s = withAdmission (commandClass i) s body := by
  cases i <;> exact ⟨_, fun _ => rfl⟩

/-- In `FAULT` a command that is not of class `always` is dropped. -/
theorem exec_dropped {i : Instr} {s : State} (hph : s.ph = .fault) (hclass : commandClass i ≠ .always) :
    exec i s = .next s := by
  have hdrop : admission (commandClass i) s.ph = .drop := by
    rw [hph]
    cases hc : commandClass i with
    | always => exact absurd hc hclass
    | idle | enc | dec => rfl
  obtain ⟨body, hexec⟩ := exec_eq_withAdmission i
  rw [hexec, withAdmission, hdrop]

/-- In `FAULT` a command of class `always`, other than CLRE and RST, answers at most a response. -/
theorem exec_always_fault {i : Instr} {s : State} (hph : s.ph = .fault) (hclass : commandClass i = .always)
    (hclre : i ≠ .clre) (hrst : i ≠ .rst) : exec i s = .next s ∨ ∃ v, exec i s = .next (emit (.rsp v) s) := by
  have hok : admission .always s.ph = .ok := by rw [hph]; rfl
  cases i with
  | clre => exact absurd rfl hclre
  | rst => exact absurd rfl hrst
  | nop => exact .inl (withAdmission_ok hok)
  | rds | rdw | rdl | rdc =>
    simp only [exec, execRds, execRdw, execRdl, execRdc, withAdmission_ok hok]
    exact .inr ⟨_, rfl⟩
  | rdn idx =>
    simp only [exec, execRdn, withAdmission_ok hok, raise_inside _ hph]
    split
    · exact .inl rfl
    · exact .inr ⟨_, if_neg ‹_›⟩
  | _ => cases hclass

end Sys2Proof.Machine

/-! ## The statements -/

namespace Sys2Proof.Proofs.EncodingRules

open Sys2Proof.Machine Sys2Proof.Safety

/-- Settles O2, by the format of the instruction: the decoder reads back the fields the encoder filled. -/
theorem decodeOfEncode : Obligations.DecodeOfEncode := decode_encode

/-- Settles O3: the fields that are no operands are tested to be zero, so the word has no bits but those encoded. -/
theorem encodeOfDecode : Obligations.EncodeOfDecode := fun _ _ => encode_of_decode

/-- Settles O4: the words that select a row are the words of the instructions with the row's `op`, and no two rows
share an `op`. -/
theorem decodeAgreesWithTable : Obligations.DecodeAgreesWithTable := fun c =>
  ⟨wordLegal_iff, length_selected_le_one c, fun i h => decode_eq_ok_iff.1 h ▸ exists_selected_row i⟩

/-- Settles O5: the line's row and operands give an instruction, whose word is the line's. -/
theorem linesAssemble : Obligations.LinesAssemble := by
  intro l
  refine ⟨?_, fun c h => ?_⟩
  · rw [wellFormed_iff]
    simp [assemble_eq_some_iff]
  · obtain ⟨r, hrow, hfits, rfl⟩ := assemble_eq_some_iff.1 h
    obtain ⟨hr, hmnemonic⟩ := rowOf_eq_some hrow
    obtain ⟨i, hop, hoperands, hword⟩ := exists_instr hr (fieldsHold_of_fits hfits)
    exact ⟨i, decode_eq_ok_iff.2 hword, hoperands, r, hr, hmnemonic, hop.symm⟩

/-- Settles O11: a command not of class `always` is dropped, and the reads and NOP change the output alone. -/
theorem faultStateHolds : Obligations.FaultStateHolds := by
  refine fun i s hph => ⟨exec_dropped hph, fun hclre hrst => ?_⟩
  by_cases hclass : commandClass i = .always
  · obtain h | ⟨v, h⟩ := exec_always_fault hph hclass hclre hrst
    · exact ⟨s, h, rfl⟩
    · exact ⟨_, h, rfl⟩
  · exact ⟨s, exec_dropped hph hclass, rfl⟩

/-- Settles O1: each word is evaluated. -/
theorem specWordsDecode : Obligations.SpecWordsDecode := by
  unfold Obligations.SpecWordsDecode
  decide

/-- Settles O7: the word is accepted and refused, and the refusal is a `raise`. -/
theorem stepRefusesIllegal : Obligations.StepRefusesIllegal := by
  intro s c moves e hhost hboundary hdecode
  have hstep := step_illegal hhost (busyWire_eq_false.2 hboundary) hdecode
  refine ⟨fun hph => ?_, fun hph => ?_⟩
  · rw [hstep, raise_outside (s := transferAll { s with host := moves }) _ hph]
    rfl
  · rw [hstep, raise_inside (s := transferAll { s with host := moves }) _ hph]
    rfl

end Sys2Proof.Proofs.EncodingRules

/-! SUPPORT. Proofs of the statements of 40_frequency_table.md: what FCLR, FSMP, FSCL, WRW and RDW do to the table of
weights and what they leave alone (R91 to R95), and the closed form of the table `FTBL` makes from a sample (R96). -/

namespace Sys2Proof.Machine

open Sys2Proof.Safety

/-! ## A command out of sequence (30_encoding.md R78) -/

/-- No command raises `E_SEQ` in `FAULT`. -/
theorem admission_fault_ne_seqFault (c : CommandClass) : admission c .fault ≠ .seqFault := by
  cases c <;> decide

/-- A command out of sequence raises `E_SEQ` and does nothing else. -/
theorem exec_misplaced {i : Instr} {s : State} (h : admission (commandClass i) s.ph = .seqFault) :
    exec i s = .next (raise .eSeq s) := by
  obtain ⟨body, hexec⟩ := exec_eq_withAdmission i
  rw [hexec, withAdmission, h]

theorem faultsIn_of_admission {i : Instr} {phases : List Phase} (hclass : commandClass i ≠ .always)
    (h : ∀ p ∈ phases, admission (commandClass i) p = .seqFault) : FaultsIn phases i := by
  refine ⟨fun s hs => ?_, fun s hph => exec_dropped hph hclass⟩
  have hph : s.ph ≠ .fault := fun hph => admission_fault_ne_seqFault _ (hph ▸ h s.ph hs)
  rw [exec_misplaced (h s.ph hs), raise_outside _ hph]

/-- A command of class `idle` is out of sequence in a session. -/
theorem faultsIn_of_class_idle {i : Instr} (h : commandClass i = .idle) : FaultsIn [.enc, .dec] i :=
  faultsIn_of_admission (by rw [h]; decide) (by rw [h]; decide)

/-! ## A command in sequence -/

theorem withAdmission_idle {s : State} (hph : s.ph = .idle) (body : State → Answer) :
    withAdmission .idle s body = body s := withAdmission_ok (by rw [hph]; rfl)

/-- A fault raised in `IDLE` is recorded. -/
theorem raise_idle (f : FaultName) {s : State} (hph : s.ph = .idle) : raise f s = { s with err := some f, ph := .fault } :=
  raise_outside f (by rw [hph]; decide)

/-! ## Runs of commands -/

theorem execAll_singleton (i : Instr) (s : State) : execAll [i] s = exec i s := by
  rw [execAll]
  cases exec i s <;> rfl

theorem execAll_append (p q : List Instr) (s : State) : execAll (p ++ q) s = andThen (execAll p s) (execAll q) := by
  induction p generalizing s with
  | nil => rfl
  | cons i p ih =>
    simp only [List.cons_append, execAll, andThen_assoc]
    congr 1
    funext u
    exact ih u

/-- In `FAULT` a run of commands none of which is of class `always` is dropped (R222). -/
theorem execAll_dropped {p : List Instr} {s : State} (hph : s.ph = .fault) (hclass : ∀ i ∈ p, commandClass i ≠ .always) :
    execAll p s = .next s := by
  induction p with
  | nil => rfl
  | cons i p ih =>
    rw [List.forall_mem_cons] at hclass
    rw [execAll, exec_dropped hph hclass.1, andThen_next, ih hclass.2]

/-! ## Weights of bytes -/

theorem weightAt_setWeight_byte (x y : Byte) (v : Weight) (s : State) :
    weightAt (setWeight x v s) y.toNat = if y = x then v else weightAt s y.toNat := by
  simp only [weightAt_setWeight, BitVec.toNat_inj, eq_comm]

theorem weightAt_setWeights_byte (f : Nat → Weight) (s : State) (y : Byte) :
    weightAt (setWeights f s) y.toNat = f y.toNat := by
  rw [weightAt_setWeights, if_pos y.isLt]

/-! ## FCLR (R91) -/

theorem initialWeight_byte (c : Config) (y : Byte) : initialWeight c y.toNat = if y = c.eotSym then 2#32 else 1#32 := by
  simp only [initialWeight, BitVec.toNat_inj]
  rfl

theorem exec_fclr {s : State} (hph : s.ph = .idle) : exec .fclr s = .next (setWeights (initialWeight s.cfg) s) := by
  rw [exec, execFclr, withAdmission_idle hph]

/-! ## FSMP (R92) -/

theorem eq_maxWeight_iff {v : Weight} : v = maxWeight ↔ v.toNat = 2 ^ 32 - 1 := BitVec.toNat_inj.symm

theorem exec_fsmp_counts {x : Byte} {s : State} (hph : s.ph = .idle) (h : (weightAt s x.toNat).toNat < 2 ^ 32 - 1) :
    exec (.fsmp x) s = .next (setWeight x (weightAt s x.toNat + 1) s) := by
  have hmax : weightAt s x.toNat ≠ maxWeight := fun hmax => h.ne (eq_maxWeight_iff.1 hmax)
  rw [exec, execFsmp, withAdmission_idle hph, if_neg hmax]

theorem exec_fsmp_full {x : Byte} {s : State} (hph : s.ph = .idle) (h : (weightAt s x.toNat).toNat = 2 ^ 32 - 1) :
    exec (.fsmp x) s = .next { s with err := some .eWovf, ph := .fault } := by
  rw [exec, execFsmp, withAdmission_idle hph, if_pos (eq_maxWeight_iff.2 h), raise_idle _ hph]

/-- Below the maximum the count does not wrap (R97). -/
theorem toNat_weightAt_counted {x : Byte} {s : State} (h : (weightAt s x.toNat).toNat < 2 ^ 32 - 1) (y : Byte) :
    (weightAt (setWeight x (weightAt s x.toNat + 1) s) y.toNat).toNat =
      (weightAt s y.toNat).toNat + if y = x then 1 else 0 := by
  rw [weightAt_setWeight_byte]
  split
  · subst y
    rw [BitVec.toNat_add]
    exact Nat.mod_eq_of_lt (by simp; omega)
  · rfl

/-! ## FSCL (R93) -/

theorem scaleOverflows_iff {c : Config} {v : Weight} :
    scaleOverflows c v = true ↔ 2 ^ 32 - 1 < v.toNat * c.scale.toNat := decide_eq_true_iff

/-- What FSCL writes, as a number: the exact product, saturated and clamped. -/
theorem toNat_scaledWeight (c : Config) (v : Weight) :
    (scaledWeight c v).toNat = if 2 ^ 32 - 1 < v.toNat * c.scale.toNat then 2 ^ 32 - 1
      else if v.toNat * c.scale.toNat = 0 then 1 else v.toNat * c.scale.toNat := by
  by_cases hover : 2 ^ 32 - 1 < v.toNat * c.scale.toNat
  · rw [scaledWeight, if_pos (scaleOverflows_iff.2 hover), if_pos hover]
    rfl
  · rw [scaledWeight, if_neg (scaleOverflows_iff.not.2 hover), if_neg hover, scaledProduct]
    split
    · rfl
    · exact Nat.mod_eq_of_lt (by omega)

/-- The state with all 256 weights scaled, before FSCL looks whether a product did not fit. -/
def scaleAll (s : State) : State := setWeights (fun i => scaledWeight s.cfg (weightAt s i)) s

/-- Some product of FSCL does not fit 32 bits. -/
def SomeProductOverflows (s : State) : Prop := ∃ y : Byte, 2 ^ 32 - 1 < (weightAt s y.toNat).toNat * s.cfg.scale.toNat

theorem toNat_weightAt_scaleAll (s : State) (y : Byte) :
    (weightAt (scaleAll s) y.toNat).toNat =
      if 2 ^ 32 - 1 < (weightAt s y.toNat).toNat * s.cfg.scale.toNat then 2 ^ 32 - 1
      else if (weightAt s y.toNat).toNat * s.cfg.scale.toNat = 0 then 1
      else (weightAt s y.toNat).toNat * s.cfg.scale.toNat := by
  rw [scaleAll, weightAt_setWeights_byte, toNat_scaledWeight]

/-- The 256 entries FSCL looks at are the weights of the bytes. -/
theorem any_scaleOverflows_iff {s : State} :
    ((List.range 256).any fun i => scaleOverflows s.cfg (weightAt s i)) = true ↔ SomeProductOverflows s := by
  simp only [List.any_eq_true, List.mem_range, scaleOverflows_iff]
  constructor
  · rintro ⟨i, hi, hover⟩
    obtain ⟨y, rfl⟩ := exists_toNat_eq (w := 8) hi
    exact ⟨y, hover⟩
  · rintro ⟨y, hover⟩
    exact ⟨_, y.isLt, hover⟩

theorem exec_fscl_overflows {s : State} (hph : s.ph = .idle) (h : SomeProductOverflows s) :
    exec .fscl s = .next { scaleAll s with err := some .eWovf, ph := .fault } := by
  rw [exec, execFscl, withAdmission_idle hph, ← raise_idle .eWovf (s := scaleAll s) hph]
  exact if_pos (any_scaleOverflows_iff.2 h)

theorem exec_fscl_fits {s : State} (hph : s.ph = .idle) (h : ¬ SomeProductOverflows s) :
    exec .fscl s = .next (scaleAll s) := by
  rw [exec, execFscl, withAdmission_idle hph]
  exact if_neg (any_scaleOverflows_iff.not.2 h)

/-! ## WRW and RDW (R94, R95) -/

theorem exec_wrw (x : Byte) (d : Weight) {s : State} (hph : s.ph = .idle) :
    exec (.wrw x d) s = .next (setWeight x d s) := by
  rw [exec, execWrw, withAdmission_idle hph]

theorem exec_rdw (x : Byte) {s : State} (h : Boundary s) :
    exec (.rdw x) s = .next (emit (.rsp ((weightAt s x.toNat).setWidth 64)) s) := by
  rw [exec, execRdw, withAdmission_ok (admission_always h)]

/-! ## FTBL (R96) -/

/-- From `s` to `t` every byte of the sample has been counted, and no count overflowed. -/
structure Counted (sample : List Byte) (s t : State) : Prop where
  ph     : t.ph = .idle
  cfg    : t.cfg = s.cfg
  weight : ∀ y : Byte, (weightAt t y.toNat).toNat = (weightAt s y.toNat).toNat + sample.count y

theorem counted_nil {s : State} (hph : s.ph = .idle) : Counted [] s s := ⟨hph, rfl, fun _ => rfl⟩

/-- One byte counted, then the others. -/
theorem Counted.cons {x : Byte} {sample : List Byte} {s t : State}
    (hx : (weightAt s x.toNat).toNat < 2 ^ 32 - 1)
    (h : Counted sample (setWeight x (weightAt s x.toNat + 1) s) t) : Counted (x :: sample) s t := by
  refine ⟨h.ph, h.cfg, fun y => ?_⟩
  rw [h.weight, toNat_weightAt_counted hx, List.count_cons]
  simp only [beq_iff_eq, eq_comm (a := x)]
  omega

/-- The FSMPs of a sample count it, or end in `FAULT`: after the first `E_WOVF` the rest is dropped. -/
theorem execAll_fsmp (sample : List Byte) {s : State} (hph : s.ph = .idle) :
    ∃ t, execAll (sample.map .fsmp) s = .next t ∧ (t.ph = .fault ∨ Counted sample s t) := by
  induction sample generalizing s with
  | nil => exact ⟨s, rfl, .inr (counted_nil hph)⟩
  | cons x sample ih =>
    by_cases hx : (weightAt s x.toNat).toNat < 2 ^ 32 - 1
    · obtain ⟨t, ht, h⟩ := ih (s := setWeight x (weightAt s x.toNat + 1) s) hph
      refine ⟨t, ?_, h.imp_right (Counted.cons hx)⟩
      rw [List.map_cons, execAll, exec_fsmp_counts hph hx, andThen_next, ht]
    · have hfull : (weightAt s x.toNat).toNat = 2 ^ 32 - 1 := by omega
      refine ⟨{ s with err := some .eWovf, ph := .fault }, ?_, .inl rfl⟩
      rw [List.map_cons, execAll, exec_fsmp_full hph hfull, andThen_next]
      exact execAll_dropped rfl (by simp [commandClass])

/-- FSCL ends in `IDLE` only when no product overflowed, and then with the exact products, a zero clamped to 1. -/
theorem exec_fscl_idle {s : State} (hph : s.ph = .idle) :
    ∃ t, exec .fscl s = .next t ∧ (t.ph = .idle → ∀ y : Byte, (weightAt t y.toNat).toNat =
      if (weightAt s y.toNat).toNat * s.cfg.scale.toNat = 0 then 1
      else (weightAt s y.toNat).toNat * s.cfg.scale.toNat) := by
  by_cases hover : SomeProductOverflows s
  · refine ⟨_, exec_fscl_overflows hph hover, nofun⟩
  · refine ⟨_, exec_fscl_fits hph hover, fun _ y => ?_⟩
    rw [toNat_weightAt_scaleAll, if_neg fun hy => hover ⟨y, hy⟩]

end Sys2Proof.Machine

/-! ## The statements -/

namespace Sys2Proof.Proofs.FrequencyRules

open Sys2Proof.Machine Sys2Proof.Safety

/-- Settles O21: the whole table is written, with one more for the sentinel. -/
theorem fclrSetsFloor : Obligations.FclrSetsFloor := by
  refine ⟨⟨decode_eq_ok_iff.2 rfl, rfl⟩, faultsIn_of_class_idle rfl, fun s hph => ⟨_, exec_fclr hph, fun y => ?_, rfl⟩⟩
  rw [weightAt_setWeights_byte, initialWeight_byte]

/-- Settles O22: below the maximum the increment does not wrap, at the maximum nothing is written. -/
theorem fsmpCounts : Obligations.FsmpCounts := by
  refine fun x => ⟨⟨decode_eq_ok_iff.2 rfl, rfl⟩, faultsIn_of_class_idle rfl, fun s hph => ⟨fun h => ?_, fun h => ?_⟩⟩
  · exact ⟨_, exec_fsmp_counts hph h, toNat_weightAt_counted h, rfl⟩
  · exact exec_fsmp_full hph h

/-- Settles O23, by whether a product overflows: all 256 weights are written either way, and then the fault is raised. -/
theorem fsclScales : Obligations.FsclScales := by
  refine ⟨⟨decode_eq_ok_iff.2 rfl, rfl⟩, faultsIn_of_class_idle rfl, fun s hph => ?_⟩
  by_cases hover : SomeProductOverflows s
  · refine ⟨_, exec_fscl_overflows hph hover, toNat_weightAt_scaleAll s, rfl, fun _ => ⟨rfl, rfl⟩, fun hfits => ?_⟩
    obtain ⟨y, hy⟩ := hover
    exact absurd hy (hfits y).not_gt
  · exact ⟨_, exec_fscl_fits hph hover, toNat_weightAt_scaleAll s, rfl, fun h => absurd h hover, fun _ => ⟨rfl, hph⟩⟩

/-- Settles O24: one entry of `W` is written. -/
theorem wrwWritesWeight : Obligations.WrwWritesWeight := fun x d =>
  ⟨⟨decode_eq_ok_iff.2 rfl, rfl⟩, faultsIn_of_class_idle rfl, fun _ hph =>
    ⟨_, exec_wrw x d hph, fun y => weightAt_setWeight_byte x y d _, rfl⟩⟩

/-- Settles O25: the response is the weight, extended. -/
theorem rdwAnswersWeight : Obligations.RdwAnswersWeight := fun x =>
  ⟨⟨decode_eq_ok_iff.2 rfl, rfl⟩, fun _ hboundary =>
    ⟨_, exec_rdw x hboundary, low_setWidth (m := 32) (n := 32) _, high_setWidth (m := 32) (n := 32) _⟩⟩

/-- Settles O26: FCLR gives the floor, an induction over the sample adds the counts, FSCL multiplies; a fault on the way
leaves the core in `FAULT` to the end. -/
theorem ftblClosedForm : Obligations.FtblClosedForm := by
  intro sample s hph
  obtain ⟨t, ht, htcases⟩ := execAll_fsmp sample (s := setWeights (initialWeight s.cfg) s) hph
  have hrun : execAll (Pseudo.ftbl sample).expand s = exec .fscl t := by
    rw [Pseudo.expand, execAll_append, List.singleton_append, execAll, exec_fclr hph, andThen_next, ht, andThen_next,
      execAll_singleton]
  rw [hrun]
  rcases htcases with hfault | hcounted
  · refine ⟨t, exec_dropped hfault (by decide), fun hidle => ?_⟩
    rw [hfault] at hidle
    cases hidle
  · obtain ⟨u, hu, hclosed⟩ := exec_fscl_idle hcounted.ph
    have hcount (y : Byte) : (weightAt t y.toNat).toNat = 1 + sample.count y + if y = s.cfg.eotSym then 1 else 0 := by
      rw [hcounted.weight, weightAt_setWeights_byte, initialWeight_byte]
      split
      · exact Nat.add_right_comm 1 1 _
      · rfl
    have hcfg : t.cfg = s.cfg := hcounted.cfg
    exact ⟨u, hu, fun hidle y => by rw [hclosed hidle, hcount, hcfg]⟩

end Sys2Proof.Proofs.FrequencyRules

/-! SUPPORT. Proofs of the statements of 41_tree_builder.md: the queue (R111, R112), that BUILD completes and what it
leaves (R113, R120 to R131), that the merge FSM takes the steps R124 counts to the same state, the transition tables
(R119), paths in the tree (R129), and RDN (R133). -/

namespace Sys2Proof.Machine

open Sys2Proof.Safety

/-! ## The queue (R111, R112) -/

/-- The minimum depends on the entries of the members alone. -/
theorem minMember_congr {s t : State} {q : List NodeIndex} (h : ∀ i ∈ q, nodeAt t i.toNat = nodeAt s i.toNat) :
    minMember t q = minMember s q := by
  induction q with
  | nil => rfl
  | cons i q ih =>
    rw [List.forall_mem_cons] at h
    rw [minMember, minMember, ih h.2]
    cases hm : minMember s q with
    | none => rfl
    | some j =>
      have hprecedes : precedes t j i = precedes s j i := by simp only [precedes, h.1, h.2 j (minMember_spec hm).1]
      simp only [hprecedes]

theorem exists_minMember (s : State) {q : List NodeIndex} (h : q ≠ []) : ∃ m, minMember s q = some m :=
  Option.ne_none_iff_exists'.1 (mt minMember_eq_none.1 h)

/-- Every other member comes after the minimum. -/
theorem lighter_minMember {s : State} {q : List NodeIndex} {m : NodeIndex} (h : minMember s q = some m) {j : NodeIndex}
    (hj : j ∈ q) (hne : j ≠ m) : Lighter s m.toNat j.toNat :=
  precedes_iff.1 ((minMember_spec h).2 j hj hne)

theorem withMin_of_minMember {s : State} {m : NodeIndex} (h511 : 511#9 ∉ s.pq) (hm : minMember s s.pq = some m)
    (f : NodeIndex → State → Answer) : withMin s f = f m { s with pq := s.pq.filter fun j => decide (j ≠ m) } := by
  rw [withMin, if_neg h511, hm]

/-! ## Loading goes on to the end (R114) -/

theorem exists_countLeaf {s : State} (hne : s.li ≠ 511#9)
    (hnew : weightAt s s.li.toNat ≠ 0 → s.li ∉ s.pq ∧ s.pq.length < 256) : ∃ t, countLeaf s = .next t := by
  by_cases h0 : weightAt s s.li.toNat = 0
  · exact ⟨s, countLeaf_eq_next.2 (.inl ⟨h0, rfl⟩)⟩
  · obtain ⟨hout, hlength⟩ := hnew h0
    exact ⟨_, countLeaf_eq_next.2 (.inr ⟨h0, hne, hout, hlength, rfl⟩)⟩

/-- A symbol is loaded where its leaf may enter the queue (R112). -/
theorem exists_loadSymbol {s : State} (hli : s.li.toNat < 256)
    (hnew : weightAt s s.li.toNat ≠ 0 → s.li ∉ s.pq ∧ s.pq.length < 256) : ∃ t, loadSymbol s = .next t := by
  have hne : s.li ≠ 511#9 := by bv_omega
  obtain ⟨t, ht⟩ := exists_countLeaf (s := { s with
    node := Memory.write emptyNode s.node s.li.toNat ⟨(weightAt s s.li.toNat).setWidth 40, 0, 0⟩ }) hne hnew
  exact ⟨{ t with li := t.li + 1 }, by rw [loadSymbol, if_pos hli, setNode, if_neg hne, andThen_next, ht, andThen_next]⟩

theorem length_weighted_le (s : State) (k : Nat) : (weighted s k).length ≤ k := by
  rw [weighted, List.length_map]
  exact (List.length_filter_le _ _).trans_eq List.length_range

/-- The next symbol enters the queue: only lower symbols have entered it. -/
theorem Loaded.exists_next {s t : State} {k : Nat} (h : Loaded s k t) (hk : k < 256) : ∃ u, loadSymbol t = .next u := by
  refine exists_loadSymbol (h.li.symm ▸ hk) fun _ => ⟨fun hmem => ?_, ?_⟩
  · rw [h.queue, mem_weighted h.le, h.li] at hmem
    exact Nat.lt_irrefl k hmem.1
  · rw [h.queue]
    exact (length_weighted_le s k).trans_lt hk

theorem exists_loaded (s : State) {k : Nat} (hk : k ≤ 256) :
    ∃ t, repeatOp loadSymbol k (buildStart s) = .next t ∧ Loaded s k t := by
  induction k with
  | zero => exact ⟨_, rfl, loaded_buildStart s⟩
  | succ k ih =>
    obtain ⟨t, ht, hloaded⟩ := ih (Nat.le_of_succ_le hk)
    obtain ⟨u, hu⟩ := hloaded.exists_next hk
    exact ⟨u, by rw [repeatOp_succ_last, ht, andThen_next, hu], loaded_loadSymbol hloaded hu⟩

/-- As many leaves wait as weights are not zero. -/
theorem Loaded.length_queue {s t : State} (h : Loaded s 256 t) : t.pq.length = weightCount s := by
  rw [h.queue, weighted, List.length_map, weightCount]

/-- Loading writes neither `A` nor `B`. -/
theorem scratch_loadSymbols {n : Nat} {s t : State} (h : repeatOp loadSymbol n s = .next t) :
    t.a = s.a ∧ t.b = s.b := by
  refine repeatOp_induction (P := fun _ u => u.a = s.a ∧ u.b = s.b) (fun _ u v hu hv => ?_) ⟨rfl, rfl⟩ h
  obtain ⟨-, ⟨-, rfl⟩ | ⟨-, -, -, rfl⟩⟩ := loadSymbol_eq_next hv
  · exact hu
  · exact hu

/-! ## Rounds of the merge loop (R115 to R118) -/

/-- One round of BUILD's loop: `u` and `v` are the states after the first and the second extraction. -/
structure MergeRound (s u v t : State) : Prop where
  first  : extractA s = .next u
  more   : u.pq ≠ []
  second : extractB u = .next v
  merge  : mergeTrees v = .next t

/-- `n` rounds, one after the other. -/
inductive MergeRounds : Nat → State → State → Prop where
  | zero (s : State) : MergeRounds 0 s s
  | succ {n : Nat} {s u v t w : State} : MergeRound s u v t → MergeRounds n t w → MergeRounds (n + 1) s w

/-- What a round keeps, rounds keep. -/
theorem MergeRounds.induction {P : State → Prop} (hstep : ∀ s u v t, P s → MergeRound s u v t → P t) {n : Nat}
    {s w : State} (h : MergeRounds n s w) (hs : P s) : P w := by
  induction h with
  | zero => exact hs
  | succ hround _ ih => exact ih (hstep _ _ _ _ hs hround)

/-- The two trees a round merges: the minimum, and the minimum of the others. -/
theorem MergeRound.minimal {s u v t : State} (h : MergeRound s u v t) :
    minMember s s.pq = some t.a ∧ minMember s (s.pq.filter fun k => decide (k ≠ t.a)) = some t.b := by
  obtain ⟨-, i, hi, rfl⟩ := extractA_eq_next.1 h.first
  obtain ⟨-, j, hj, rfl⟩ := extractB_eq_next.1 h.second
  obtain ⟨-, -, -, -, -, rfl⟩ := mergeTrees_eq_next h.merge
  refine ⟨hi, (minMember_congr (s := s) ?_).symm.trans hj⟩
  exact fun _ _ => rfl

theorem MergeRound.mergePass {s u v t : State} (h : MergeRound s u v t) : MergePass s t := by
  obtain ⟨-, i, hi, rfl⟩ := extractA_eq_next.1 h.first
  obtain ⟨-, j, hj, rfl⟩ := extractB_eq_next.1 h.second
  obtain ⟨-, -, hnext, -, -, rfl⟩ := mergeTrees_eq_next h.merge
  have hmem := (minMember_spec hj).1
  simp only [List.mem_filter, decide_eq_true_eq] at hmem
  exact ⟨i, j, hi, hmem.1, hmem.2, hnext, rfl⟩

theorem queue_ne_nil_of_extractA {s u : State} (h : extractA s = .next u) : s.pq ≠ [] := by
  obtain ⟨-, i, hi, -⟩ := extractA_eq_next.1 h
  exact List.ne_nil_of_mem (minMember_spec hi).1

theorem MergeRound.mergeLoop {s u v t : State} (h : MergeRound s u v t) (n : Nat) :
    mergeLoop (n + 1) s = mergeLoop n t := by
  rw [Machine.mergeLoop, if_neg (queue_ne_nil_of_extractA h.first), h.first, andThen_next, if_neg h.more, h.second,
    andThen_next, h.merge, andThen_next]

theorem MergeRounds.mergeLoop {n : Nat} {s w : State} (h : MergeRounds n s w) (m : Nat) :
    mergeLoop (m + n) s = mergeLoop m w := by
  induction h with
  | zero => rfl
  | succ hround _ ih => rw [← Nat.add_assoc, hround.mergeLoop, ih]

theorem mergeTrees_next {s : State} (ha : s.a ≠ 511#9) (hb : s.b ≠ 511#9) (hnext : s.nextNode ≠ 511#9)
    (hnew : s.nextNode ∉ s.pq) (hlength : s.pq.length < 256) :
    mergeTrees s = .next { s with
      node := Memory.write emptyNode s.node s.nextNode.toNat
        ⟨(nodeAt s s.a.toNat).w + (nodeAt s s.b.toNat).w, s.b, s.a⟩
      pq := insertMember s.nextNode s.pq, nextNode := s.nextNode + 1 } := by
  simp [mergeTrees, withNode, setNode, insertQueue, ha, hb, hnext, hnew, Nat.not_le.2 hlength]

/-! ### Two trees that wait can be merged -/

/-- The trees that wait are nodes that exist and are made already. -/
theorem Forest.member_lt {total : Nat} {s : State} (hf : Forest total s) {i : NodeIndex} (hi : i ∈ s.pq) :
    i.toNat < s.nextNode.toNat := inTree_lt hf.lower (hf.members i hi)

/-- With each node made one tree less waits, and 256 leaves wait at most (R128). -/
theorem Forest.bounds {total : Nat} {s : State} (hf : Forest total s) : s.nextNode.toNat + s.pq.length ≤ 512 := by
  have := hf.trees
  have := hf.count ▸ leafCount_le s
  omega

theorem Forest.no_511 {total : Nat} {s : State} (hf : Forest total s) : 511#9 ∉ s.pq := fun h => by
  have hlt : 511 < s.nextNode.toNat := hf.member_lt h
  have := hf.bounds
  have := List.length_pos_of_mem h
  omega

/-- The least tree can be taken out, and one tree less waits. -/
theorem exists_extractA {total : Nat} {s : State} (hf : Forest total s) (h : s.pq ≠ []) :
    ∃ u, extractA s = .next u ∧ u.pq.length + 1 = s.pq.length := by
  obtain ⟨i, hi⟩ := exists_minMember s h
  have hperm := perm_cons_filter hf.nodup (minMember_spec hi).1
  exact ⟨_, extractA_eq_next.2 ⟨hf.no_511, i, hi, rfl⟩, hperm.length_eq.symm⟩

/-- With two trees or more the round goes through: the new node exists and the queue has room for it. -/
theorem exists_mergeRound {total : Nat} {s : State} (hf : Forest total s) (h2 : 2 ≤ s.pq.length) :
    ∃ u v t, MergeRound s u v t := by
  have hbounds := hf.bounds
  obtain ⟨u, hu, hlength⟩ := exists_extractA hf (List.ne_nil_of_length_pos (by omega))
  obtain ⟨-, i, hi, rfl⟩ := extractA_eq_next.1 hu
  have hmore : (s.pq.filter fun k => decide (k ≠ i)) ≠ [] := List.ne_nil_of_length_pos (by simp only at hlength; omega)
  obtain ⟨j, hj⟩ := exists_minMember { s with pq := s.pq.filter fun k => decide (k ≠ i), a := i } hmore
  have hold {k : NodeIndex} (hk : k ∈ s.pq) : k ≠ 511#9 := fun he => hf.no_511 (he ▸ hk)
  have hjmem := List.mem_of_mem_filter (minMember_spec hj).1
  refine ⟨_, _, _, hu, hmore, extractB_eq_next.2 ⟨fun h => hf.no_511 (List.mem_of_mem_filter h), j, hj, rfl⟩,
    mergeTrees_next (hold (minMember_spec hi).1) (hold hjmem) ?_ (fun h => ?_) ?_⟩
  · have := hf.lower
    bv_omega
  · exact Nat.lt_irrefl _ (hf.member_lt (List.mem_of_mem_filter (List.mem_of_mem_filter h)))
  · have := hf.lower
    have := List.length_filter_le (fun k => decide (k ≠ j)) (s.pq.filter fun k => decide (k ≠ i))
    simp only at hlength ⊢
    omega

theorem length_mergePass {s t : State} (h : MergePass s t) (hnodup : s.pq.Nodup) : t.pq.length + 1 = s.pq.length := by
  obtain ⟨rest, hleave, henter⟩ := queue_mergePass h hnodup
  simp [hleave.length_eq, henter.length_eq]

/-- One tree fewer waits after each round, until one is left. -/
theorem exists_mergeRounds {total : Nat} (htotal : total < 2 ^ 40) {n : Nat} {s : State} (hf : Forest total s)
    (hn : s.pq.length = n + 1) : ∃ w i, MergeRounds n s w ∧ w.pq = [i] := by
  induction n generalizing s with
  | zero =>
    obtain ⟨i, hi⟩ := List.length_eq_one_iff.1 hn
    exact ⟨s, i, .zero s, hi⟩
  | succ n ih =>
    obtain ⟨u, v, t, hround⟩ := exists_mergeRound hf (by omega)
    have hlength := length_mergePass hround.mergePass hf.nodup
    obtain ⟨w, i, hrounds, hlast⟩ := ih (forest_mergePass hf htotal hround.mergePass) (by omega)
    exact ⟨w, i, .succ hround hrounds, hlast⟩

theorem extractA_last {s : State} {i : NodeIndex} (h511 : 511#9 ∉ s.pq) (hlast : s.pq = [i]) :
    extractA s = .next { s with pq := [], a := i } :=
  extractA_eq_next.2 ⟨h511, i, by simp [hlast, minMember], by simp [hlast]⟩

theorem mergeLoop_last {s : State} {i : NodeIndex} (h511 : 511#9 ∉ s.pq) (hlast : s.pq = [i]) (n : Nat) :
    mergeLoop (n + 1) s = .next (finishTree { s with pq := [], a := i }) := by
  rw [mergeLoop, if_neg (by simp [hlast]), extractA_last h511 hlast, andThen_next, if_pos rfl]

/-! ## The run of BUILD (R113) -/

/-- BUILD's loops for a table with a weight: `u` when the symbols are loaded, `w` when the tree `i` alone waits. -/
structure BuildRun (s u w : State) (i : NodeIndex) : Prop where
  load   : repeatOp loadSymbol 256 (buildStart s) = .next u
  loaded : Loaded s 256 u
  rounds : MergeRounds (weightCount s - 1) u w
  last   : w.pq = [i]

theorem weightCount_le (s : State) : weightCount s ≤ 256 := by
  simpa [weightCount] using List.length_filter_le (fun i => decide (weightAt s i ≠ 0)) (List.range 256)

theorem weightCount_eq_zero_iff {s : State} : weightCount s = 0 ↔ ∀ y : Byte, weightAt s y.toNat = 0 := by
  rw [weightCount, List.length_eq_zero_iff, List.filter_eq_nil_iff]
  constructor
  · exact fun h y => by simpa using h y.toNat (List.mem_range.2 y.isLt)
  · intro h i hi
    obtain ⟨y, rfl⟩ := exists_toNat_eq (w := 8) (List.mem_range.1 hi)
    simp [h y]

theorem exists_buildRun {s : State} (h : weightCount s ≠ 0) : ∃ u w i, BuildRun s u w i := by
  obtain ⟨u, hload, hloaded⟩ := exists_loaded s (Nat.le_refl 256)
  have hlength := hloaded.length_queue
  obtain ⟨w, i, hrounds, hlast⟩ := exists_mergeRounds (n := weightCount s - 1) (weightSum_lt s)
    (forest_of_loaded hloaded) (by omega)
  exact ⟨u, w, i, hload, hloaded, hrounds, hlast⟩

theorem exec_build {s u : State} (hph : s.ph = .idle) (h : repeatOp loadSymbol 256 (buildStart s) = .next u) :
    exec .build s = mergeLoop 256 u := by
  rw [exec, execBuild, withAdmission_idle hph, h, andThen_next]

/-- BUILD of a table of zeros loads the symbols and finds no tree (R126). -/
theorem exec_build_empty {s : State} (hph : s.ph = .idle) (h : weightCount s = 0) :
    ∃ u, repeatOp loadSymbol 256 (buildStart s) = .next u ∧ Loaded s 256 u ∧ u.pq = [] ∧
      exec .build s = .next (raise .eEmpty u) := by
  obtain ⟨u, hload, hloaded⟩ := exists_loaded s (Nat.le_refl 256)
  have hempty : u.pq = [] := List.eq_nil_of_length_eq_zero (hloaded.length_queue.trans h)
  exact ⟨u, hload, hloaded, hempty, by rw [exec_build hph hload, mergeLoop, if_pos hempty]⟩

/-! ### What the rounds keep -/

/-- What a state of BUILD's merge loop is to the state `s` it began in. -/
structure Merging (s v : State) : Prop where
  writes : BuildWrites (buildStart s) v
  forest : Forest (weightSum s) v
  li     : v.li = 256#9
  nleaf  : v.nleaf.toNat = weightCount s
  leaves : ∀ i < 256, nodeAt v i = ⟨(weightAt s i).setWidth 40, 0, 0⟩
  others : ∀ i, v.nextNode.toNat ≤ i → nodeAt v i = nodeAt s i
  least  : ∀ k, 256 ≤ k → k < v.nextNode.toNat → MergesLeastTwo v k

theorem merging_of_loaded {s u : State} (h : Loaded s 256 u) : Merging s u where
  writes := h.writes
  forest := forest_of_loaded h
  li := BitVec.eq_of_toNat_eq h.li
  nleaf := h.nleaf.trans h.length_queue
  leaves := h.entry
  others i hi := h.others i (by rw [h.next] at hi; exact hi)
  least k hk hlt := absurd hlt (by rw [h.next]; exact Nat.not_lt.2 hk)

theorem mem_parents {s : State} {i p : Nat} :
    p ∈ parents s i ↔ (256 ≤ p ∧ p < s.nextNode.toNat) ∧ ((nodeAt s p).l.toNat = i ∨ (nodeAt s p).r.toNat = i) := by
  simp only [parents, List.mem_filter, List.mem_range'_1, Bool.or_eq_true, decide_eq_true_eq]
  refine and_congr_left fun _ => ?_
  omega

theorem mem_waitingTrees {s : State} {k j : Nat} :
    j ∈ waitingTrees s k ↔ j < k ∧ InTree s j ∧ ∀ p ∈ parents s j, k ≤ p := by
  simp only [waitingTrees, List.mem_filter, List.mem_range, Bool.and_eq_true, decide_eq_true_eq, List.all_eq_true]

section Merge

variable {s t : State} {total : Nat} {rest : List NodeIndex}

theorem ForestMerge.mem_parents_after (h : ForestMerge s t rest) {j p : Nat} :
    p ∈ parents t j ↔ p ∈ parents s j ∨ (p = s.nextNode.toNat ∧ (t.b.toNat = j ∨ t.a.toNat = j)) := by
  rw [parents_mergePass h.pass h.lower, List.mem_append]
  split
  next hchild => simp [hchild]
  next hchild => simp [hchild]

/-- The trees that waited for an older node are as before. -/
theorem ForestMerge.mem_waitingTrees_old (h : ForestMerge s t rest) {k j : Nat} (hk : k < s.nextNode.toNat) :
    j ∈ waitingTrees t k ↔ j ∈ waitingTrees s k := by
  simp only [mem_waitingTrees, h.inTree, h.mem_parents_after]
  constructor
  · rintro ⟨hj, htree, hparents⟩
    exact ⟨hj, htree.resolve_right (by omega), fun p hp => hparents p (.inl hp)⟩
  · rintro ⟨hj, htree, hparents⟩
    refine ⟨hj, .inl htree, fun p hp => ?_⟩
    rcases hp with hp | ⟨rfl, -⟩
    · exact hparents p hp
    · exact Nat.le_of_lt hk

/-- The trees that wait for the new node are those in the queue. -/
theorem ForestMerge.mem_waitingTrees_new (h : ForestMerge s t rest) (hf : Forest total s) {j : Nat} :
    j ∈ waitingTrees t s.nextNode.toNat ↔ ∃ i ∈ s.pq, i.toNat = j := by
  simp only [mem_waitingTrees, h.inTree, h.mem_parents_after]
  constructor
  · rintro ⟨hj, htree, hparents⟩
    obtain ⟨i, rfl⟩ := exists_toNat_eq (w := 9) (k := j) (by omega)
    have hnone : parents s i.toNat = [] := List.eq_nil_iff_forall_not_mem.2 fun p hp => by
      have := hparents p (.inl hp)
      have := (mem_parents.1 hp).1
      omega
    have hparent := hf.parent i (htree.resolve_right (by omega))
    rw [hnone] at hparent
    by_contra hout
    rw [if_neg fun hi => hout ⟨i, hi, rfl⟩] at hparent
    cases hparent
  · rintro ⟨i, hi, rfl⟩
    obtain ⟨htree, hlt⟩ := h.old i hi
    have hparent := hf.parent i htree
    rw [if_pos hi] at hparent
    refine ⟨hlt, .inl htree, fun p hp => ?_⟩
    rcases hp with hp | ⟨rfl, -⟩
    · simp [List.eq_nil_of_length_eq_zero hparent] at hp
    · exact Nat.le_refl _

theorem ForestMerge.lighter_old (h : ForestMerge s t rest) {i j : Nat} (hi : i < s.nextNode.toNat)
    (hj : j < s.nextNode.toNat) : Lighter t i j ↔ Lighter s i j := by
  rw [Lighter, Lighter, h.nodeAt_old hi, h.nodeAt_old hj]

/-- An older node merged the two least trees, and did so still. -/
theorem ForestMerge.mergesLeastTwo_old (h : ForestMerge s t rest) {k : Nat} (hk : k < s.nextNode.toNat)
    (hleast : MergesLeastTwo s k) : MergesLeastTwo t k := by
  have hmem (j : Nat) := h.mem_waitingTrees_old (j := j) hk
  have hlt {j : Nat} (hj : j ∈ waitingTrees s k) : j < s.nextNode.toNat := (mem_waitingTrees.1 hj).1.trans hk
  constructor <;> simp only [h.nodeAt_old hk, hmem]
  · exact hleast.first
  · exact fun j hj hne => (h.lighter_old (hlt hleast.first) (hlt hj)).2 (hleast.least j hj hne)
  · exact hleast.second
  · exact fun j hj hr hl => (h.lighter_old (hlt hleast.second) (hlt hj)).2 (hleast.next j hj hr hl)

/-- The new node merges the two least trees: the first extracted is its right child, the second its left (R121). -/
theorem ForestMerge.mergesLeastTwo_new {u v : State} (h : ForestMerge s t rest) (hf : Forest total s)
    (hround : MergeRound s u v t) : MergesLeastTwo t s.nextNode.toNat := by
  obtain ⟨hfirst, hsecond⟩ := hround.minimal
  have hnew := nodeAt_mergePass h.pass s.nextNode.toNat
  rw [if_pos rfl] at hnew
  have hmem (j : Nat) := h.mem_waitingTrees_new hf (j := j)
  constructor <;> simp only [hnew, hmem]
  case first => exact ⟨_, (minMember_spec hfirst).1, rfl⟩
  case least =>
    rintro _ ⟨i, hi, rfl⟩ hne
    exact (h.lighter_old h.old_a.2 (h.old i hi).2).2
      (lighter_minMember hfirst hi fun he => hne (congrArg BitVec.toNat he))
  case second => exact ⟨_, List.mem_of_mem_filter (minMember_spec hsecond).1, rfl⟩
  case next =>
    rintro _ ⟨i, hi, rfl⟩ hr hl
    have hother : i ∈ s.pq.filter fun k => decide (k ≠ t.a) :=
      List.mem_filter.2 ⟨hi, decide_eq_true fun he => hr (congrArg BitVec.toNat he)⟩
    exact (h.lighter_old h.old_b.2 (h.old i hi).2).2
      (lighter_minMember hsecond hother fun he => hl (congrArg BitVec.toNat he))

end Merge

theorem merging_mergeRound {s v u' v' t : State} (h : Merging s v) (hround : MergeRound v u' v' t) : Merging s t := by
  have hpass := hround.mergePass
  have hnext := nextNode_mergePass hpass
  obtain ⟨rest, hmerge⟩ := forestMerge_of_mergePass h.forest hpass
  constructor
  case writes => exact h.writes.trans (buildWrites_mergePass hpass)
  case forest => exact forest_mergePass h.forest (weightSum_lt s) hpass
  case li =>
    obtain ⟨i, j, -, -, -, -, rfl⟩ := hpass
    exact h.li
  case nleaf =>
    rw [nleaf_mergePass hpass]
    exact h.nleaf
  case leaves =>
    intro i hi
    rw [hmerge.nodeAt_old (hi.trans_le hmerge.lower)]
    exact h.leaves i hi
  case others =>
    intro i hi
    rw [nodeAt_mergePass hpass, if_neg (by omega)]
    exact h.others i (by omega)
  case least =>
    intro k hk hlt
    rcases Nat.lt_succ_iff_lt_or_eq.1 (hnext ▸ hlt) with hold | rfl
    · exact hmerge.mergesLeastTwo_old hold (h.least k hk hold)
    · exact hmerge.mergesLeastTwo_new h.forest hround

theorem BuildRun.merging {s u w : State} {i : NodeIndex} (h : BuildRun s u w i) : Merging s w :=
  h.rounds.induction (fun _ _ _ _ => merging_mergeRound) (merging_of_loaded h.loaded)

/-! ### What BUILD leaves -/

/-- The state in which BUILD ends, the tree `i` being the last that waits. -/
def builtState (w : State) (i : NodeIndex) : State := finishTree { w with pq := [], a := i }

/-- BUILD of a table with a weight completes: 256 passes are enough (R255). -/
theorem exec_build_of_run {s u w : State} {i : NodeIndex} (hph : s.ph = .idle) (h : BuildRun s u w i) :
    exec .build s = .next (builtState w i) := by
  have hle := weightCount_le s
  rw [exec_build hph h.load, show 256 = 256 - (weightCount s - 1) + (weightCount s - 1) by omega, h.rounds.mergeLoop,
    show 256 - (weightCount s - 1) = 255 - (weightCount s - 1) + 1 by omega,
    mergeLoop_last h.merging.forest.no_511 h.last, builtState]

/-- A BUILD that makes a tree is a run of its loops. -/
theorem exists_buildRun_of_exec {s t : State} (hph : s.ph = .idle) (h : exec .build s = .next t)
    (htree : t.treeValid = true) : ∃ u w i, BuildRun s u w i ∧ t = builtState w i := by
  by_cases hcount : weightCount s = 0
  · obtain ⟨u, -, hloaded, -, hexec⟩ := exec_build_empty hph hcount
    cases hexec.symm.trans h
    have hno : u.treeValid = false := congrArg State.treeValid hloaded.writes
    simp [hno] at htree
  · obtain ⟨u, w, i, hrun⟩ := exists_buildRun hcount
    cases (exec_build_of_run hph hrun).symm.trans h
    exact ⟨u, w, i, hrun, rfl⟩

theorem BuildRun.treeShape {s u w : State} {i : NodeIndex} (h : BuildRun s u w i) : TreeShape (builtState w i) :=
  treeShape_of_forest h.merging.forest (by simp [h.last]) (by simp [h.last])

theorem BuildRun.weightCount_ne_zero {s u w : State} {i : NodeIndex} (h : BuildRun s u w i) : weightCount s ≠ 0 := by
  rw [← h.merging.nleaf]
  exact Nat.ne_of_gt h.treeShape.some_

/-- The root has the weight of all trees (R127). -/
theorem BuildRun.weight_root {s u w : State} {i : NodeIndex} (h : BuildRun s u w i) :
    (nodeAt w i.toNat).w.toNat = weightSum s := by
  simpa [h.last] using h.merging.forest.total

/-! ## BUILD is a function of `W` (R130) -/

/-- `t` holds the trees of `s` and waits for the same ones. -/
structure SameTrees (s t : State) : Prop where
  pq    : t.pq = s.pq
  next  : t.nextNode = s.nextNode
  nleaf : t.nleaf = s.nleaf
  node  : ∀ i < s.nextNode.toNat, nodeAt t i = nodeAt s i

theorem sameTrees_of_loaded {s s' u u' : State} (hweights : ∀ y : Byte, weightAt s y.toNat = weightAt s' y.toNat)
    (h : Loaded s 256 u) (h' : Loaded s' 256 u') : SameTrees u u' := by
  have hw : ∀ i < 256, weightAt s' i = weightAt s i := fun i hi => by
    obtain ⟨y, rfl⟩ := exists_toNat_eq (w := 8) hi
    exact (hweights y).symm
  have hpq : u'.pq = u.pq := by
    rw [h.queue, h'.queue, weighted, weighted]
    refine congrArg _ (List.filter_congr fun i hi => ?_)
    rw [hw i (List.mem_range.1 hi)]
  refine ⟨hpq, by rw [h.next, h'.next], BitVec.eq_of_toNat_eq ?_, fun i hi => ?_⟩
  · rw [h.nleaf, h'.nleaf, hpq]
  · have hi : i < 256 := by rw [h.next] at hi; exact hi
    rw [h.entry i hi, h'.entry i hi, hw i hi]

theorem pq_mergePass {s t : State} (h : MergePass s t) : t.pq =
    insertMember s.nextNode ((s.pq.filter fun k => decide (k ≠ t.a)).filter fun k => decide (k ≠ t.b)) := by
  obtain ⟨i, j, -, -, -, -, rfl⟩ := h
  rfl

/-- The same trees wait, so the same two are merged. -/
theorem sameTrees_mergeRound {total : Nat} {s u v t s' u' v' t' : State} (hf : Forest total s) (hsame : SameTrees s s')
    (h : MergeRound s u v t) (h' : MergeRound s' u' v' t') : SameTrees t t' := by
  obtain ⟨hpq, hnext, hnleaf, hnode⟩ := hsame
  obtain ⟨hfirst, hsecond⟩ := h.minimal
  obtain ⟨hfirst', hsecond'⟩ := h'.minimal
  have hmem : ∀ i ∈ s.pq, nodeAt s' i.toNat = nodeAt s i.toNat := fun i hi => hnode _ (hf.member_lt hi)
  have ha : t'.a = t.a := by
    rw [hpq, minMember_congr hmem, hfirst] at hfirst'
    exact (Option.some.inj hfirst').symm
  have hb : t'.b = t.b := by
    rw [hpq, ha, minMember_congr fun i hi => hmem i (List.mem_of_mem_filter hi), hsecond] at hsecond'
    exact (Option.some.inj hsecond').symm
  have hnext' : t'.nextNode.toNat = t.nextNode.toNat := by
    rw [nextNode_mergePass h.mergePass, nextNode_mergePass h'.mergePass, hnext]
  refine ⟨?_, BitVec.eq_of_toNat_eq hnext', ?_, fun i hi => ?_⟩
  · rw [pq_mergePass h.mergePass, pq_mergePass h'.mergePass, hpq, hnext, ha, hb]
  · rw [nleaf_mergePass h.mergePass, nleaf_mergePass h'.mergePass, hnleaf]
  · rw [nextNode_mergePass h.mergePass] at hi
    rw [nodeAt_mergePass h.mergePass, nodeAt_mergePass h'.mergePass, hnext, ha, hb,
      hmem _ (minMember_spec hfirst).1, hmem _ (List.mem_of_mem_filter (minMember_spec hsecond).1)]
    split
    next => rfl
    next => exact hnode i (by omega)

theorem sameTrees_mergeRounds {total : Nat} (htotal : total < 2 ^ 40) {n : Nat} {s w s' w' : State}
    (hf : Forest total s) (hsame : SameTrees s s') (h : MergeRounds n s w) (h' : MergeRounds n s' w') :
    SameTrees w w' := by
  induction h generalizing s' with
  | zero =>
    cases h'
    exact hsame
  | succ hround _ ih =>
    cases h' with
    | succ hround' hrounds' =>
      exact ih (forest_mergePass hf htotal hround.mergePass) (sameTrees_mergeRound hf hsame hround hround') hrounds'

theorem weightCount_congr {s s' : State} (hweights : ∀ y : Byte, weightAt s y.toNat = weightAt s' y.toNat) :
    weightCount s' = weightCount s := by
  refine congrArg List.length (List.filter_congr fun i hi => ?_)
  obtain ⟨y, rfl⟩ := exists_toNat_eq (w := 8) (List.mem_range.1 hi)
  rw [hweights y]

/-- Runs of BUILD on equal weights make the same trees and end with the same one. -/
theorem sameTrees_of_buildRun {s u w s' u' w' : State} {i i' : NodeIndex}
    (hweights : ∀ y : Byte, weightAt s y.toNat = weightAt s' y.toNat) (h : BuildRun s u w i)
    (h' : BuildRun s' u' w' i') : SameTrees w w' ∧ i' = i := by
  have hsame := sameTrees_mergeRounds (weightSum_lt s) (forest_of_loaded h.loaded)
    (sameTrees_of_loaded hweights h.loaded h'.loaded) h.rounds (weightCount_congr hweights ▸ h'.rounds)
  exact ⟨hsame, by simpa [h.last, h'.last] using hsame.pq⟩

/-! ## A single weight (R125) -/

theorem weightCount_single {s : State} {x : Byte} (hx : weightAt s x.toNat ≠ 0)
    (hother : ∀ y : Byte, y ≠ x → weightAt s y.toNat = 0) : weightCount s = 1 := by
  rw [weightCount, ← List.countP_eq_length_filter,
    ← List.count_eq_one_of_mem List.nodup_range (List.mem_range.2 x.isLt), List.count]
  refine List.countP_congr fun i hi => ?_
  obtain ⟨y, rfl⟩ := exists_toNat_eq (w := 8) (List.mem_range.1 hi)
  by_cases hy : y = x
  · simpa [hy] using hx
  · simp [hother y hy, BitVec.toNat_inj, hy]

/-- With one leaf no round is made, and its symbol is the one that has the weight. -/
theorem BuildRun.single {s u w : State} {i : NodeIndex} {x : Byte} (h : BuildRun s u w i)
    (hx : weightAt s x.toNat ≠ 0) (hother : ∀ y : Byte, y ≠ x → weightAt s y.toNat = 0) : w = u ∧ i = leafOf x := by
  have hrounds := h.rounds
  rw [weightCount_single hx hother] at hrounds
  cases hrounds
  refine ⟨rfl, BitVec.eq_of_toNat_eq ?_⟩
  have hi : i ∈ weighted s 256 := by
    rw [← h.loaded.queue, h.last]
    exact List.mem_singleton_self i
  obtain ⟨hlt, hw⟩ := (mem_weighted (Nat.le_refl 256)).1 hi
  obtain ⟨y, hy⟩ := exists_toNat_eq (w := 8) hlt
  have hyx : y = x := by
    by_contra hne
    exact hw (hy ▸ hother y hne)
  rw [toNat_leafOf, ← hyx, hy]

/-! ## The merge FSM (R114 to R119, R124) -/

/-- From `s` the FSM is busy for `k` steps and then stands in `t`. -/
structure BusyRun (k : Nat) (s t : State) : Prop where
  reach : repeatOp fsmStep k s = .next t
  busy  : ∀ j < k, ∃ u, repeatOp fsmStep j s = .next u ∧ ¬ Boundary u

theorem BusyRun.zero (s : State) : BusyRun 0 s s := ⟨rfl, nofun⟩

theorem BusyRun.one {s t : State} (hbusy : ¬ Boundary s) (h : fsmStep s = .next t) : BusyRun 1 s t := by
  refine ⟨by rw [repeatOp_succ, h, andThen_next, repeatOp_zero], fun j hj => ⟨s, ?_, hbusy⟩⟩
  rw [Nat.lt_one_iff.1 hj, repeatOp_zero]

theorem BusyRun.trans {j k : Nat} {s t u : State} (h : BusyRun j s t) (h' : BusyRun k t u) : BusyRun (j + k) s u := by
  refine ⟨by rw [repeatOp_add, h.reach, andThen_next, h'.reach], fun i hi => ?_⟩
  by_cases hij : i < j
  · exact h.busy i hij
  · obtain ⟨v, hv, hbusy⟩ := h'.busy (i - j) (by omega)
    refine ⟨v, ?_, hbusy⟩
    rw [show i = j + (i - j) by omega, repeatOp_add, h.reach, andThen_next, hv]

/-! ### Loading -/

/-- A step of `TB_LOAD` loads a symbol, and the last one goes on to `TB_XA` (R114). -/
theorem fsmStep_load {s t u : State} {k : Nat} (h : Loaded s k t) (hu : loadSymbol t = .next u) :
    fsmStep t = .next (if k + 1 = 256 then { u with ph := .tbXa } else u) := by
  have hph : t.ph = .tbLoad := congrArg State.ph h.writes
  have hli : u.li = 256#9 ↔ k + 1 = 256 := by
    rw [← (loaded_loadSymbol h hu).li, ← BitVec.toNat_inj]
    rfl
  simp only [fsmStep, hph, stateTbLoad, hu, andThen_next, hli]

theorem busy_loaded {s t : State} {k : Nat} (h : Loaded s k t) : ¬ Boundary t := by
  have hph : t.ph = .tbLoad := congrArg State.ph h.writes
  simp [Boundary, hph]

/-- Before the last symbol the FSM and the command stand in the same state. -/
theorem busyRun_load {s t : State} {k : Nat} (hk : k < 256) (h : repeatOp loadSymbol k (buildStart s) = .next t) :
    Loaded s k t ∧ BusyRun k (buildStart s) t := by
  induction k generalizing t with
  | zero =>
    cases h
    exact ⟨loaded_buildStart s, .zero _⟩
  | succ k ih =>
    rw [repeatOp_succ_last] at h
    obtain ⟨u, hu, ht⟩ := andThen_eq_next.1 h
    obtain ⟨hloaded, hrun⟩ := ih (by omega) hu
    have hstep := fsmStep_load hloaded ht
    rw [if_neg (by omega)] at hstep
    exact ⟨loaded_loadSymbol hloaded ht, hrun.trans (.one (busy_loaded hloaded) hstep)⟩

theorem busyRun_loadAll {s u : State} (h : repeatOp loadSymbol 256 (buildStart s) = .next u) :
    BusyRun 256 (buildStart s) { u with ph := .tbXa } := by
  rw [repeatOp_succ_last] at h
  obtain ⟨t, ht, hu⟩ := andThen_eq_next.1 h
  obtain ⟨hloaded, hrun⟩ := busyRun_load (by decide) ht
  exact hrun.trans (.one (busy_loaded hloaded) (fsmStep_load hloaded hu))

/-! ### Merging: the operations do not look at `PH` -/

theorem minMember_phase (s : State) (q : List NodeIndex) (p : Phase) :
    minMember { s with ph := p } q = minMember s q := minMember_congr fun _ _ => rfl

theorem extractA_phase {s u : State} (h : extractA s = .next u) (p : Phase) :
    extractA { s with ph := p } = .next { u with ph := p } := by
  obtain ⟨h511, m, hm, rfl⟩ := extractA_eq_next.1 h
  exact extractA_eq_next.2 ⟨h511, m, (minMember_phase s s.pq p).trans hm, rfl⟩

theorem extractB_phase {s u : State} (h : extractB s = .next u) (p : Phase) :
    extractB { s with ph := p } = .next { u with ph := p } := by
  obtain ⟨h511, m, hm, rfl⟩ := extractB_eq_next.1 h
  exact extractB_eq_next.2 ⟨h511, m, (minMember_phase s s.pq p).trans hm, rfl⟩

theorem mergeTrees_phase {s t : State} (h : mergeTrees s = .next t) (p : Phase) :
    mergeTrees { s with ph := p } = .next { t with ph := p } := by
  obtain ⟨ha, hb, hnext, hnew, hlength, rfl⟩ := mergeTrees_eq_next h
  exact mergeTrees_next (s := { s with ph := p }) ha hb hnext hnew hlength

theorem fsmStep_tbXa {s u : State} (h : extractA s = .next u) :
    fsmStep { s with ph := .tbXa } = .next { u with ph := .tbChk } := by
  simp only [fsmStep, stateTbXa, queue_ne_nil_of_extractA h, if_false, extractA_phase h, andThen_next]

theorem fsmStep_tbChk_more {s : State} (h : s.pq ≠ []) :
    fsmStep { s with ph := .tbChk } = .next { s with ph := .tbXb } := by
  simp only [fsmStep, stateTbChk, h, if_false]

theorem fsmStep_tbChk_last {s : State} (h : s.pq = []) :
    fsmStep { s with ph := .tbChk } = .next (finishTree s) := by
  simp only [fsmStep, stateTbChk, h, if_true, finishTree]

theorem fsmStep_tbXb {s u : State} (h : extractB s = .next u) :
    fsmStep { s with ph := .tbXb } = .next { u with ph := .tbMerge } := by
  simp only [fsmStep, stateTbXb, extractB_phase h, andThen_next]

theorem fsmStep_tbMerge {s t : State} (h : mergeTrees s = .next t) :
    fsmStep { s with ph := .tbMerge } = .next { t with ph := .tbXa } := by
  simp only [fsmStep, stateTbMerge, mergeTrees_phase h, andThen_next]

/-- A round is four steps of the FSM (R124). -/
theorem busyRun_mergeRound {s u v t : State} (h : MergeRound s u v t) :
    BusyRun 4 { s with ph := .tbXa } { t with ph := .tbXa } :=
  (BusyRun.one (by simp [Boundary]) (fsmStep_tbXa h.first)).trans <|
    (BusyRun.one (by simp [Boundary]) (fsmStep_tbChk_more h.more)).trans <|
      (BusyRun.one (by simp [Boundary]) (fsmStep_tbXb h.second)).trans <|
        BusyRun.one (by simp [Boundary]) (fsmStep_tbMerge h.merge)

theorem busyRun_mergeRounds {n : Nat} {s w : State} (h : MergeRounds n s w) :
    BusyRun (4 * n) { s with ph := .tbXa } { w with ph := .tbXa } := by
  induction h with
  | zero => exact .zero _
  | succ hround _ ih =>
    rw [Nat.mul_succ, Nat.add_comm]
    exact (busyRun_mergeRound hround).trans ih

/-- The last tree is taken out and found to be the last. -/
theorem busyRun_last {w : State} {i : NodeIndex} (h511 : 511#9 ∉ w.pq) (hlast : w.pq = [i]) :
    BusyRun 2 { w with ph := .tbXa } (builtState w i) :=
  (BusyRun.one (by simp [Boundary]) (fsmStep_tbXa (extractA_last h511 hlast))).trans
    (.one (by simp [Boundary]) (fsmStep_tbChk_last rfl))

theorem BuildRun.busyRun {s u w : State} {i : NodeIndex} (h : BuildRun s u w i) :
    BusyRun (256 + 4 * (weightCount s - 1) + 2) (buildStart s) (builtState w i) :=
  ((busyRun_loadAll h.load).trans (busyRun_mergeRounds h.rounds)).trans (busyRun_last h.merging.forest.no_511 h.last)

/-- With no tree the first `TB_XA` raises the fault (R126). -/
theorem busyRun_empty {u : State} (hempty : u.pq = []) (hph : u.ph ≠ .fault) :
    BusyRun 1 { u with ph := .tbXa } (raise .eEmpty u) := by
  refine .one (by simp [Boundary]) ?_
  simp [fsmStep, stateTbXa, hempty, raise_outside, hph]

/-! ### The transition tables (R119, 42_code_deriver.md R145) -/

section Transitions

variable {s t : State}

theorem transition_tbLoad (h : stateTbLoad s = .next t) :
    t.ph = (if s.li = 255#9 then .tbXa else s.ph) ∧ t.li = s.li + 1 := by
  obtain ⟨u, hu, ht⟩ := andThen_eq_next.1 h
  have hload : u.ph = s.ph ∧ u.li = s.li + 1 := by
    obtain ⟨-, ⟨-, rfl⟩ | ⟨-, -, -, rfl⟩⟩ := loadSymbol_eq_next hu
    · exact ⟨rfl, rfl⟩
    · exact ⟨rfl, rfl⟩
  have hlast : u.li = 256#9 ↔ s.li = 255#9 := by
    rw [hload.2]
    bv_omega
  cases ht
  simp only [hlast]
  split
  · exact ⟨rfl, hload.2⟩
  · exact hload

theorem transition_tbXa_empty (hempty : s.pq = []) (hph : s.ph ≠ .fault) (h : stateTbXa s = .next t) :
    t.ph = .fault ∧ t.err = some .eEmpty := by
  rw [stateTbXa, if_pos hempty, raise_outside _ hph] at h
  cases h
  exact ⟨rfl, rfl⟩

theorem transition_tbXa_more (hmore : s.pq ≠ []) (h : stateTbXa s = .next t) : t.ph = .tbChk ∧ t.a ∈ s.pq := by
  rw [stateTbXa, if_neg hmore] at h
  obtain ⟨u, hu, ht⟩ := andThen_eq_next.1 h
  obtain ⟨-, m, hm, rfl⟩ := extractA_eq_next.1 hu
  cases ht
  exact ⟨rfl, (minMember_spec hm).1⟩

theorem transition_tbChk_empty (hempty : s.pq = []) (h : stateTbChk s = .next t) :
    t.ph = .idle ∧ t.root = s.a ∧ t.treeValid = true := by
  rw [stateTbChk, if_pos hempty] at h
  cases h
  exact ⟨rfl, rfl, rfl⟩

theorem transition_tbChk_more (hmore : s.pq ≠ []) (h : stateTbChk s = .next t) : t.ph = .tbXb := by
  rw [stateTbChk, if_neg hmore] at h
  cases h
  rfl

theorem transition_tbXb (h : stateTbXb s = .next t) : t.ph = .tbMerge ∧ t.b ∈ s.pq := by
  obtain ⟨u, hu, ht⟩ := andThen_eq_next.1 h
  obtain ⟨-, m, hm, rfl⟩ := extractB_eq_next.1 hu
  cases ht
  exact ⟨rfl, (minMember_spec hm).1⟩

theorem transition_tbMerge (h : stateTbMerge s = .next t) :
    t.ph = .tbXa ∧ t.nextNode = s.nextNode + 1 ∧ s.nextNode ∈ t.pq ∧
      (nodeAt t s.nextNode.toNat).l = s.b ∧ (nodeAt t s.nextNode.toNat).r = s.a := by
  obtain ⟨u, hu, ht⟩ := andThen_eq_next.1 h
  obtain ⟨-, -, -, -, -, rfl⟩ := mergeTrees_eq_next hu
  cases ht
  refine ⟨rfl, rfl, mem_insertMember.2 (.inl rfl), ?_, ?_⟩
  · exact congrArg Node.l Memory.read_write_same
  · exact congrArg Node.r Memory.read_write_same

theorem transition_cdVisit_leaf (hleaf : isLeaf s.cn = true) (h : stateCdVisit s = .next t) :
    t.ph = .cdPop ∧ codeAt t (symOf s.cn) = { valid := true, len := s.cdep, bits := s.path } := by
  rw [stateCdVisit, if_pos hleaf] at h
  cases h
  exact ⟨rfl, (codeAt_recordCode s _).trans (if_pos rfl)⟩

theorem transition_cdVisit_inner (hinner : isLeaf s.cn = false) (h : stateCdVisit s = .next t) :
    t.ph = s.ph ∧ t.cn = (nodeAt s s.cn.toNat).l ∧ t.sp = s.sp + 1 ∧
      stackAt t s.sp.toNat = { node := (nodeAt s s.cn.toNat).r, dep := s.cdep } := by
  rw [stateCdVisit, if_neg (by simp [hinner])] at h
  obtain ⟨-, -, -, rfl⟩ := descendLeft_eq_next.1 h
  exact ⟨rfl, rfl, rfl, Memory.read_write_same⟩

theorem transition_cdPop_empty (hsp : s.sp = 0#8) (h : stateCdPop s = .next t) : t.ph = .idle ∧ t.codeValid = true := by
  rw [stateCdPop, if_pos hsp] at h
  cases h
  exact ⟨rfl, rfl⟩

theorem transition_cdPop_more (hsp : s.sp ≠ 0#8) (h : stateCdPop s = .next t) :
    t.ph = .cdVisit ∧ t.sp = s.sp - 1 ∧ t.cn = (stackAt s (s.sp - 1).toNat).node := by
  rw [stateCdPop, if_neg hsp] at h
  obtain ⟨-, rfl⟩ := resumeRight_eq_next.1 h
  exact ⟨rfl, rfl, rfl⟩

end Transitions

/-! ## Paths (R129, 42_code_deriver.md R147, R148) -/

theorem le_of_inner {i : NodeIndex} (h : isLeaf i = false) : 256 ≤ i.toNat := by simpa [isLeaf] using h

/-- A child in the tree has a lower index than its parent. -/
theorem child_lt {s : State} (h : TreeShape s) {i : NodeIndex} (hi : InTree s i.toNat) (hinner : isLeaf i = false)
    (b : Bool) : (childOf (nodeAt s i.toNat) b).toNat < i.toNat := by
  have hok := internalOk_of_inTree h hi hinner
  cases b
  · exact hok.leftLt
  · exact hok.rightLt

/-- A path that ends with a choice makes it at an internal node of the tree. -/
theorem walk_concat_inv {s : State} {i j : NodeIndex} {p : List Bool} {b : Bool} (h : walk s i (p ++ [b]) = some j) :
    ∃ k, walk s i p = some k ∧ isLeaf k = false ∧ childOf (nodeAt s k.toNat) b = j := by
  rw [walk_append, Option.bind_eq_some_iff] at h
  obtain ⟨k, hk, h⟩ := h
  rw [walk] at h
  split at h
  · cases h
  next hstop =>
    simp only [not_or, Bool.not_eq_true] at hstop
    exact ⟨k, hk, hstop.1, Option.some.inj h⟩

/-- Every choice leads to a lower index, and is made at 256 or above. -/
theorem length_walk_le {s : State} (h : TreeShape s) {i j : NodeIndex} {p : List Bool} (hi : InTree s i.toNat)
    (hp : walk s i p = some j) : p.length ≤ i.toNat - 255 := by
  induction p generalizing i with
  | nil => exact Nat.zero_le _
  | cons b q ih =>
    rw [walk] at hp
    split at hp
    · cases hp
    next hstop =>
      simp only [not_or, Bool.not_eq_true] at hstop
      obtain ⟨hinner, hne⟩ := hstop
      have hchild := inTree_walk h hi (walk_cons hinner hne b [])
      have hlength := ih hchild hp
      have hlt := child_lt h hi hinner b
      have hlow := le_of_inner hinner
      rw [List.length_cons]
      omega

theorem le_nextNode {s : State} (h : TreeShape s) : 256 ≤ s.nextNode.toNat := by
  have := h.next
  have := h.some_
  omega

theorem root_lt {s : State} (h : TreeShape s) : s.root.toNat < s.nextNode.toNat := inTree_lt (le_nextNode h) h.root

/-- Where a choice leads, the node it was made at is a parent. -/
theorem mem_parents_child {s : State} {k : NodeIndex} (hk : InTree s k.toNat) (hinner : isLeaf k = false) (b : Bool) :
    k.toNat ∈ parents s (childOf (nodeAt s k.toNat) b).toNat := by
  have hlow := le_of_inner hinner
  have hrange := hk.resolve_left fun hleaf => by omega
  refine mem_parents.2 ⟨hrange, ?_⟩
  cases b
  · exact .inl rfl
  · exact .inr rfl

/-- The two children of a node of the tree are not the same. -/
theorem child_inj {s : State} (h : TreeShape s) {k : NodeIndex} (hk : InTree s k.toNat) (hinner : isLeaf k = false)
    {b c : Bool} (hbc : childOf (nodeAt s k.toNat) b = childOf (nodeAt s k.toNat) c) : b = c := by
  have hdistinct := (internalOk_of_inTree h hk hinner).distinct
  cases b <;> cases c
  · rfl
  · exact absurd hbc hdistinct
  · exact absurd hbc.symm hdistinct
  · rfl

theorem length_parents_walk {s : State} (h : TreeShape s) {i : NodeIndex} {p : List Bool}
    (hp : walk s s.root p = some i) : (parents s i.toNat).length = if i.toNat = s.root.toNat then 0 else 1 := by
  have hi := inTree_walk h h.root hp
  exact h.parent _ ((inTree_lt (le_nextNode h) hi).trans_le (nextNode_le h)) hi

/-- A node that is reached has one parent at most. -/
theorem parent_unique {s : State} (h : TreeShape s) {i : NodeIndex} {p : List Bool} (hp : walk s s.root p = some i)
    {j k : Nat} (hj : j ∈ parents s i.toNat) (hk : k ∈ parents s i.toNat) : j = k := by
  have hparents := length_parents_walk h hp
  split at hparents
  · rw [List.eq_nil_of_length_eq_zero hparents] at hj
    cases hj
  · obtain ⟨x, hx⟩ := List.length_eq_one_iff.1 hparents
    rw [hx, List.mem_singleton] at hj hk
    rw [hj, hk]

/-- No choice leads back to the root. -/
theorem walk_root_inv {s : State} (h : TreeShape s) {p : List Bool} (hp : walk s s.root p = some s.root) : p = [] := by
  rcases List.eq_nil_or_concat' p with rfl | ⟨q, b, rfl⟩
  · rfl
  · obtain ⟨k, hk, hinner, hchild⟩ := walk_concat_inv hp
    have hparents := length_parents_walk h hp
    have hmem := mem_parents_child (inTree_walk h h.root hk) hinner b
    rw [if_pos rfl] at hparents
    rw [hchild, List.eq_nil_of_length_eq_zero hparents] at hmem
    cases hmem

/-- Two paths to one node end with one choice at one parent, and so on back to the root (R147). -/
theorem walk_unique {s : State} (h : TreeShape s) {p q : List Bool} {i : NodeIndex} (hp : walk s s.root p = some i)
    (hq : walk s s.root q = some i) : p = q := by
  induction p using List.reverseRecOn generalizing q i with
  | nil =>
    cases hp
    exact (walk_root_inv h hq).symm
  | append_singleton p b ih =>
    rcases List.eq_nil_or_concat' q with rfl | ⟨q, c, rfl⟩
    · cases hq
      exact walk_root_inv h hp
    · obtain ⟨j, hj, hjinner, rfl⟩ := walk_concat_inv hp
      obtain ⟨k, hk, hkinner, hchild⟩ := walk_concat_inv hq
      have hjmem := mem_parents_child (inTree_walk h h.root hj) hjinner b
      have hkmem := mem_parents_child (inTree_walk h h.root hk) hkinner c
      rw [hchild] at hkmem
      obtain rfl : j = k := BitVec.eq_of_toNat_eq (parent_unique h hp hjmem hkmem)
      rw [ih hj hk, child_inj h (inTree_walk h h.root hj) hjinner hchild]

/-! ## RDN (R133) -/

theorem exec_rdn {x : NodeIndex} {s : State} (h : Boundary s) :
    exec (.rdn x) s = .next (if x = 511#9 then raise .eRange s else emit (.rsp (nodeWord x (nodeAt s x.toNat))) s) := by
  rw [exec, execRdn, withAdmission_ok (admission_always h), withNode]
  split <;> rfl

/-- The word of RDN: its opcode, 31 zeros and the index. -/
theorem word_rdn (x : NodeIndex) : encode (.rdn x) = 0x21#8 ++ 0#31 ++ x := by
  show (0x21#8 ++ 0#8 ++ x.setWidth 32 : BitVec 48) = 0x21#8 ++ (0#8 ++ 0#23) ++ x
  rw [← zero_append_eq_setWidth (m := 23) x]
  simp only [BitVec.append_assoc]
  rfl

/-- The layout of the response of RDN. -/
theorem nodeWord_fields (x : NodeIndex) (n : Node) :
    (nodeWord x n).extractLsb' 0 40 = n.w ∧ (nodeWord x n).extractLsb' 40 9 = n.l ∧
      (nodeWord x n).extractLsb' 49 9 = n.r ∧ (nodeWord x n).getLsbD 58 = isLeaf x ∧
      (nodeWord x n).extractLsb' 59 5 = 0#5 := by
  refine ⟨BitVec.extractLsb'_append_eq_right, ?_, ?_, ?_, ?_⟩
  · exact (BitVec.extractLsb'_append_eq_of_le (by decide)).trans BitVec.extractLsb'_append_eq_right
  · exact (BitVec.extractLsb'_append_eq_of_le (by decide)).trans <|
      (BitVec.extractLsb'_append_eq_of_le (by decide)).trans BitVec.extractLsb'_append_eq_right
  · simp only [nodeWord, BitVec.getLsbD_append]
    simp
  · exact (BitVec.extractLsb'_append_eq_of_le (by decide)).trans <|
      (BitVec.extractLsb'_append_eq_of_le (by decide)).trans <|
        (BitVec.extractLsb'_append_eq_of_le (by decide)).trans BitVec.extractLsb'_append_eq_left

end Sys2Proof.Machine

/-! ## The statements -/

namespace Sys2Proof.Proofs.TreeRules

open Sys2Proof.Machine Sys2Proof.Safety

/-- Settles O29: the loops end with one tree in the queue, and the forest they keep is then a tree. -/
theorem buildMakesTree : Obligations.BuildMakesTree := by
  refine ⟨⟨decode_eq_ok_iff.2 rfl, rfl⟩, faultsIn_of_class_idle rfl, fun s hph ⟨y, hy⟩ => ?_⟩
  obtain ⟨u, w, i, hrun⟩ := exists_buildRun fun h0 => hy (weightCount_eq_zero_iff.1 h0 y)
  have hw := hrun.merging
  refine ⟨_, exec_build_of_run hph hrun, rfl, rfl, congrArg State.codeValid hw.writes, rfl, hw.li, hw.nleaf,
    fun y => hw.leaves _ y.isLt, hrun.treeShape, hw.others, ?_⟩
  rw [builtState, hw.writes]
  rfl

/-- Settles O30: the queue holds the trees that wait, and each round takes out its minimum twice. -/
theorem buildMergesLeastTwo : Obligations.BuildMergesLeastTwo := by
  intro s t hph hexec htree k hk hlt
  obtain ⟨u, w, i, hrun, rfl⟩ := exists_buildRun_of_exec hph hexec htree
  obtain ⟨hfirst, hleast, hsecond, hnext⟩ := hrun.merging.least k hk hlt
  exact ⟨hfirst, hleast, hsecond, hnext⟩

/-- Settles O31: the trees that wait have the weight of the whole table, and the root is the last of them. -/
theorem buildConservesWeight : Obligations.BuildConservesWeight := by
  intro s t hph hexec htree
  obtain ⟨u, w, i, hrun, rfl⟩ := exists_buildRun_of_exec hph hexec htree
  exact ⟨fun k hk hlt => (hrun.merging.forest.internal k hk hlt).weight, hrun.weight_root⟩

/-- Settles O34: a load is one step, a round four, the end two, and the states of the loops are passed on the way. -/
theorem fsmRefinesBuild : Obligations.FsmRefinesBuild := by
  intro s hph
  by_cases hcount : weightCount s = 0
  · obtain ⟨u, hload, hloaded, hempty, hexec⟩ := exec_build_empty hph hcount
    have huph : u.ph = .tbLoad := congrArg State.ph hloaded.writes
    have hrun := (busyRun_loadAll hload).trans (busyRun_empty hempty (by simp [huph]))
    rw [buildSteps, if_pos hcount, hexec]
    exact ⟨hrun.busy, hrun.reach⟩
  · obtain ⟨u, w, i, hrun⟩ := exists_buildRun hcount
    rw [buildSteps, if_neg hcount, exec_build_of_run hph hrun]
    exact ⟨hrun.busyRun.busy, hrun.busyRun.reach⟩

/-- Settles O27: `minMember` is the minimum in the order of R111. -/
theorem queueGivesLeast : Obligations.QueueGivesLeast := by
  intro s hmore h511
  obtain ⟨m, hm⟩ := exists_minMember s hmore
  exact ⟨m, (minMember_spec hm).1, fun j hj hne => lighter_minMember hm hj hne, withMin_of_minMember h511 hm⟩

/-- Settles O28: the 256 symbols are loaded, none enters the queue, and the fault is raised. -/
theorem buildOfEmptyTable : Obligations.BuildOfEmptyTable := by
  intro s hph hzero
  obtain ⟨u, hload, hloaded, hempty, hexec⟩ := exec_build_empty hph (weightCount_eq_zero_iff.2 hzero)
  obtain ⟨ha, hb⟩ := scratch_loadSymbols hload
  have hw := hloaded.writes
  have huph : u.ph = .tbLoad := congrArg State.ph hw
  rw [raise_outside _ (by simp [huph])] at hexec
  refine ⟨_, hexec, rfl, rfl, congrArg State.treeValid hw, congrArg State.codeValid hw, ?_, hloaded.next,
    BitVec.eq_of_toNat_eq hloaded.li, hempty, fun y => ?_, hloaded.others, ?_⟩
  · exact BitVec.eq_of_toNat_eq (hloaded.nleaf.trans (by rw [hempty]; rfl))
  · exact (hloaded.entry _ y.isLt).trans (by rw [hzero y]; rfl)
  · rw [hw, ha, hb]
    rfl

/-- Settles O32: two runs on equal weights have the same trees in their queues at every round. -/
theorem buildDependsOnWeightsAlone : Obligations.BuildDependsOnWeightsAlone := by
  intro s s' t t' hph hph' hweights hexec hexec' htree
  obtain ⟨u, w, i, hrun, rfl⟩ := exists_buildRun_of_exec hph hexec htree
  obtain ⟨u', w', i', hrun'⟩ := exists_buildRun (weightCount_congr hweights ▸ hrun.weightCount_ne_zero)
  cases (exec_build_of_run hph' hrun').symm.trans hexec'
  obtain ⟨hsame, hi⟩ := sameTrees_of_buildRun hweights hrun hrun'
  exact ⟨rfl, hi.symm, hsame.next.symm, hsame.nleaf.symm, fun k hk => (hsame.node k hk).symm⟩

/-- Settles O33: one leaf waits when the symbols are loaded, so no round is made. -/
theorem buildOfSingleWeight : Obligations.BuildOfSingleWeight := by
  intro x s hph hx hother
  obtain ⟨u, w, i, hrun⟩ := exists_buildRun (s := s) (by rw [weightCount_single hx hother]; decide)
  obtain ⟨rfl, rfl⟩ := hrun.single hx hother
  have hnleaf : w.nleaf.toNat = 1 := hrun.merging.nleaf.trans (weightCount_single hx hother)
  exact ⟨_, exec_build_of_run hph hrun, rfl, rfl, rfl, hrun.loaded.next, BitVec.eq_of_toNat_eq hnleaf,
    hrun.loaded.others⟩

/-- Settles O35, a row of the tables at a time. -/
theorem fsmTransitions : Obligations.FsmTransitions := by
  intro s t h
  cases hph : s.ph with
    simp only [fsmStep, hph, reduceCtorEq, false_implies, forall_const, true_and, and_true] at h ⊢
  | tbLoad => exact hph ▸ transition_tbLoad h
  | tbXa =>
    exact ⟨fun hempty => transition_tbXa_empty hempty (by simp [hph]) h, fun hmore => transition_tbXa_more hmore h⟩
  | tbChk => exact ⟨fun hempty => transition_tbChk_empty hempty h, fun hmore => transition_tbChk_more hmore h⟩
  | tbXb => exact transition_tbXb h
  | tbMerge => exact transition_tbMerge h
  | cdVisit =>
    exact ⟨fun hleaf => transition_cdVisit_leaf hleaf h, fun hinner => hph ▸ transition_cdVisit_inner hinner h⟩
  | cdPop => exact ⟨fun hsp => transition_cdPop_empty hsp h, fun hsp => transition_cdPop_more hsp h⟩

/-- Settles O36: the response is the entry's fields put together; index 511 is a `raise`. -/
theorem rdnAnswersNode : Obligations.RdnAnswersNode := by
  refine fun x => ⟨⟨decode_eq_ok_iff.2 (word_rdn x), rfl⟩, fun s hboundary =>
    ⟨fun hne => ?_, fun h511 hph => ?_, fun h511 hph => ?_⟩⟩
  · exact ⟨nodeWord x (nodeAt s x.toNat), by rw [exec_rdn hboundary, if_neg hne]; rfl, nodeWord_fields x _⟩
  · rw [exec_rdn hboundary, if_pos h511, raise_outside _ hph]
  · rw [exec_rdn hboundary, if_pos h511, raise_inside _ hph]

/-- Settles O39: choices lead to lower indices, and every node has one parent at most. -/
theorem treePathsBoundedAndUnique : Obligations.TreePathsBoundedAndUnique := by
  intro s p q i htree hp
  have hlength := length_walk_le htree htree.root hp
  have hroot := root_lt htree
  have hnext := htree.next
  exact ⟨by omega, walk_unique htree hp⟩

end Sys2Proof.Proofs.TreeRules

/-! SUPPORT. Proofs of the statements of 42_code_deriver.md: that DERIVE completes with the code table of its tree
(R141, R147, R255), that the traversal FSM takes the `3n - 1` steps R150 counts to the same state, that no code begins
another (R151), RDL (R152) and RDC (R153). -/

namespace Sys2Proof.Machine

open Sys2Proof.Safety

/-! ## The internal nodes below a node -/

/-- `js` lists the internal nodes at or below node `i` in the order the traversal visits them. -/
inductive Subtree (s : State) : NodeIndex → List NodeIndex → Prop where
  | leaf {i : NodeIndex} : isLeaf i = true → Subtree s i []
  | inner {i : NodeIndex} {js ks : List NodeIndex} : isLeaf i = false → i ≠ 511#9 →
      Subtree s (nodeAt s i.toNat).l js → Subtree s (nodeAt s i.toNat).r ks → Subtree s i (i :: (js ++ ks))

theorem ne_511_of_inTree {s : State} (h : TreeShape s) {i : NodeIndex} (hi : InTree s i.toNat) : i ≠ 511#9 := by
  have hlt := inTree_lt (le_nextNode h) hi
  have hle := nextNode_le h
  rintro rfl
  exact absurd (hlt.trans_le hle) (by decide)

/-- Below a node of a tree there is a subtree: children have lower indices. -/
theorem exists_subtree {s : State} (h : TreeShape s) {i : NodeIndex} (hi : InTree s i.toNat) :
    ∃ js, Subtree s i js := by
  cases hinner : isLeaf i with
  | true => exact ⟨[], .leaf hinner⟩
  | false =>
    have hok := internalOk_of_inTree h hi hinner
    have hleft := hok.leftLt
    have hright := hok.rightLt
    obtain ⟨js, hjs⟩ := exists_subtree h hok.left
    obtain ⟨ks, hks⟩ := exists_subtree h hok.right
    exact ⟨_, .inner hinner (ne_511_of_inTree h hi) hjs hks⟩
termination_by i.toNat

/-- A subtree lists the internal nodes that choices lead to. -/
theorem Subtree.mem_iff {s : State} {i j : NodeIndex} {js : List NodeIndex} (h : Subtree s i js) :
    j ∈ js ↔ isLeaf j = false ∧ ∃ p, walk s i p = some j := by
  induction h with
  | leaf hleaf =>
    refine ⟨nofun, fun ⟨hj, p, hp⟩ => ?_⟩
    rw [(walk_leaf hleaf hp).2, hleaf] at hj
    cases hj
  | @inner i js ks hinner hne _ _ ihl ihr =>
    rw [List.mem_cons, List.mem_append, ihl, ihr]
    constructor
    · rintro (rfl | ⟨hj, p, hp⟩ | ⟨hj, p, hp⟩)
      · exact ⟨hinner, [], rfl⟩
      · exact ⟨hj, false :: p, (walk_cons hinner hne false p).trans hp⟩
      · exact ⟨hj, true :: p, (walk_cons hinner hne true p).trans hp⟩
    · rintro ⟨hj, _ | ⟨b, p⟩, hp⟩
      · exact .inl (Option.some.inj hp).symm
      · rw [walk_cons hinner hne] at hp
        cases b
        · exact .inr (.inl ⟨hj, p, hp⟩)
        · exact .inr (.inr ⟨hj, p, hp⟩)

/-- From a node of a tree one path at most leads to another (R147). -/
theorem path_unique {s : State} (h : TreeShape s) {p q r : List Bool} {i j : NodeIndex}
    (hp : walk s s.root p = some i) (hq : walk s i q = some j) (hr : walk s i r = some j) : q = r := by
  refine List.append_cancel_left (walk_unique h (p := p ++ q) (q := p ++ r) (i := j) ?_ ?_)
  · rw [walk_append, hp, Option.bind_some, hq]
  · rw [walk_append, hp, Option.bind_some, hr]

/-- No internal node of a tree is visited twice. -/
theorem Subtree.nodup {s : State} (htree : TreeShape s) {i : NodeIndex} {js : List NodeIndex} (h : Subtree s i js)
    {p : List Bool} (hp : walk s s.root p = some i) : js.Nodup := by
  induction h generalizing p with
  | leaf => exact .nil
  | @inner i js ks hinner hne hl hr ihl ihr =>
    have hchild (b : Bool) := walk_concat hp hinner hne b
    have hleft {j : NodeIndex} (hj : j ∈ js) : ∃ q, walk s i (false :: q) = some j := by
      obtain ⟨-, q, hq⟩ := hl.mem_iff.1 hj
      exact ⟨q, (walk_cons hinner hne false q).trans hq⟩
    have hright {j : NodeIndex} (hj : j ∈ ks) : ∃ q, walk s i (true :: q) = some j := by
      obtain ⟨-, q, hq⟩ := hr.mem_iff.1 hj
      exact ⟨q, (walk_cons hinner hne true q).trans hq⟩
    refine List.nodup_cons.2 ⟨fun hi => ?_, (ihl (hchild false)).append (ihr (hchild true)) fun j hj hk => ?_⟩
    · rcases List.mem_append.1 hi with hi | hi
      · obtain ⟨q, hq⟩ := hleft hi
        cases path_unique htree hp hq (walk_nil s i)
      · obtain ⟨q, hq⟩ := hright hi
        cases path_unique htree hp hq (walk_nil s i)
    · obtain ⟨q, hq⟩ := hleft hj
      obtain ⟨r, hr'⟩ := hright hk
      cases path_unique htree hp hq hr'

/-- An internal node of the tree is one of 256 to `NEXT`-1. -/
theorem inner_reached_iff {s : State} (h : TreeShape s) {i : NodeIndex} :
    (isLeaf i = false ∧ ∃ p, walk s s.root p = some i) ↔ 256 ≤ i.toNat ∧ i.toNat < s.nextNode.toNat := by
  constructor
  · rintro ⟨hinner, p, hp⟩
    exact ⟨le_of_inner hinner, inTree_lt (le_nextNode h) (inTree_walk h h.root hp)⟩
  · exact fun hi => ⟨by simpa [isLeaf] using hi.1, exists_walk h (.inr hi)⟩

/-- A tree of `n` leaves has `n - 1` internal nodes (41_tree_builder.md R128). -/
theorem Subtree.length_root {s : State} (htree : TreeShape s) {js : List NodeIndex} (h : Subtree s s.root js) :
    js.length + 1 = s.nleaf.toNat := by
  have hperm : (js.map BitVec.toNat).Perm (List.range' 256 (s.nextNode.toNat - 256)) := by
    refine (List.perm_ext_iff_of_nodup ?_ List.nodup_range').2 fun k => ?_
    · exact (h.nodup htree (walk_nil s _)).map fun _ _ => BitVec.eq_of_toNat_eq
    · have hle := nextNode_le htree
      simp only [List.mem_map, h.mem_iff, inner_reached_iff htree, List.mem_range'_1]
      constructor
      · rintro ⟨i, hi, rfl⟩
        omega
      · intro hk
        obtain ⟨i, rfl⟩ := exists_toNat_eq (w := 9) (k := k) (by omega)
        exact ⟨i, by omega, rfl⟩
  have hlength := hperm.length_eq
  have hnext := htree.next
  have hsome := htree.some_
  rw [List.length_map, List.length_range'] at hlength
  omega

/-! ## The traversal goes on (R148) -/

/-- A state of DERIVE in which a node of a tree is visited. -/
structure Visiting (s : State) : Prop where
  ph    : s.ph = .cdVisit
  tree  : TreeShape s
  visit : AtVisit s

theorem visiting_deriveStart {s : State} (h : TreeShape s) : Visiting (deriveStart s) :=
  ⟨rfl, SameTree.treeShape (s := s) rfl h, atVisit_deriveStart h⟩

/-- DERIVE's writes leave the tree alone. -/
theorem DeriveWrites.sameTree {s t : State} (h : DeriveWrites s t) : SameTree s t := by
  rw [h]
  rfl

theorem Visiting.descend {s t : State} (h : Visiting s) (hinner : isLeaf s.cn = false) (ht : descendLeft s = .next t) :
    Visiting t where
  ph := by
    obtain ⟨-, -, -, rfl⟩ := descendLeft_eq_next.1 ht
    exact h.ph
  tree := (deriveWrites_descendLeft ht).sameTree.treeShape h.tree
  visit := atVisit_descendLeft h.visit hinner ht

theorem Visiting.resume {s t : State} (h : Visiting s) (hleaf : isLeaf s.cn = true) (hsp : s.sp ≠ 0#8)
    (ht : resumeRight (recordCode s) = .next t) : Visiting t where
  ph := by
    obtain ⟨-, rfl⟩ := resumeRight_eq_next.1 ht
    rfl
  tree := (deriveWrites_resumeRight ht).sameTree.treeShape h.tree
  visit := atVisit_resumeRight (atPop_recordCode h.visit hleaf) hsp ht

/-- No path of a tree is longer than 255 (R148). -/
theorem length_walk_root_le {s : State} (h : TreeShape s) {p : List Bool} {i : NodeIndex}
    (hp : walk s s.root p = some i) : p.length ≤ 255 := by
  have hlength := length_walk_le h h.root hp
  have hroot := root_lt h
  have hle := nextNode_le h
  omega

@[simp] theorem length_choices (p : PathBits) (n : Nat) : (choices p n).length = n := by simp [choices]

/-- The depths of the pending children rise from 0 or more, so a child on the stack is at least as deep as its place. -/
theorem Pending.le_dep {s : State} (h : Pending s) {k : Nat} (hk : k < s.sp.toNat) : k ≤ (stackAt s k).dep.toNat := by
  induction k with
  | zero => exact Nat.zero_le _
  | succ k ih => exact (ih (Nat.lt_of_succ_lt hk)).trans_lt (h.rising k (k + 1) (Nat.lt_succ_self k) hk)

theorem Pending.sp_le {s : State} (h : Pending s) : s.sp.toNat ≤ s.cdep.toNat := by
  cases hsp : s.sp.toNat with
  | zero => exact Nat.zero_le _
  | succ k =>
    have hk : k < s.sp.toNat := hsp ▸ Nat.lt_succ_self k
    exact (h.le_dep hk).trans_lt (h.above k hk)

/-- The branch of a pending child is a choice `PATH` has. -/
theorem Pending.dep_lt {s : State} (h : Pending s) (htree : TreeShape s) {k : Nat} (hk : k < s.sp.toNat) :
    (stackAt s k).dep.toNat < 255 := by
  simpa using length_walk_root_le htree (h.leads k hk)

/-- At an internal node there is one more choice, room for it in `PATH` and for its right child in `STK`. -/
theorem Visiting.exists_descendLeft {s : State} (h : Visiting s) (hinner : isLeaf s.cn = false) :
    ∃ t, descendLeft s = .next t := by
  have hne := ne_511_of_inTree h.tree (inTree_walk h.tree h.tree.root h.visit.here)
  have hdep : s.cdep.toNat < 255 := by
    simpa using length_walk_root_le h.tree (walk_concat h.visit.here hinner hne false)
  have hsp := h.visit.pending.sp_le
  exact ⟨_, descendLeft_eq_next.2 ⟨hne, by bv_omega, by bv_omega, rfl⟩⟩

/-- At a leaf the child on top of the stack is next. -/
theorem Visiting.exists_resumeRight {s : State} (h : Visiting s) (hsp : s.sp ≠ 0#8) :
    ∃ t, resumeRight (recordCode s) = .next t := by
  have hdep : (stackAt s (s.sp - 1).toNat).dep.toNat < 255 := h.visit.pending.dep_lt h.tree (by bv_omega)
  have hne : (stackAt s (s.sp - 1).toNat).dep ≠ 255#8 := by bv_omega
  exact ⟨_, resumeRight_eq_next.2 ⟨hne, rfl⟩⟩

/-! ## A subtree is traversed (R141, R150) -/

/-- From `s` to `t` the loop of DERIVE makes `passes` visits, and the FSM `steps` busy steps. -/
structure Passes (passes steps : Nat) (s t : State) : Prop where
  loop : ∀ n, visitLoop (n + passes) s = visitLoop n t
  fsm  : BusyRun steps s t

theorem Passes.zero (s : State) : Passes 0 0 s s := ⟨fun _ => rfl, .zero s⟩

theorem Passes.trans {p q j k : Nat} {s t u : State} (h : Passes p j s t) (h' : Passes q k t u) :
    Passes (p + q) (j + k) s u := by
  refine ⟨fun n => ?_, h.fsm.trans h'.fsm⟩
  rw [Nat.add_comm p q, ← Nat.add_assoc, h.loop, h'.loop]

theorem Visiting.busy {s : State} (h : Visiting s) : ¬ Boundary s := by simp [Boundary, h.ph]

theorem Visiting.fsmStep_eq {s : State} (h : Visiting s) : fsmStep s = stateCdVisit s := by simp only [fsmStep, h.ph]

/-- A descent is one visit and one step. -/
theorem Visiting.passes_descend {s t : State} (h : Visiting s) (hinner : isLeaf s.cn = false)
    (ht : descendLeft s = .next t) : Passes 1 1 s t := by
  have hnot : ¬ isLeaf s.cn = true := by simp [hinner]
  refine ⟨fun n => ?_, .one h.busy ?_⟩
  · rw [visitLoop, if_neg hnot, ht, andThen_next]
  · rw [h.fsmStep_eq, stateCdVisit, if_neg hnot, ht]

/-- The step of a leaf: its code is written. -/
theorem Visiting.busyRun_leaf {s : State} (h : Visiting s) (hleaf : isLeaf s.cn = true) :
    BusyRun 1 s { recordCode s with ph := .cdPop } :=
  .one h.busy (by rw [h.fsmStep_eq, stateCdVisit, if_pos hleaf])

/-- A leaf and the resumption after it are one visit and two steps. -/
theorem Visiting.passes_resume {s t : State} (h : Visiting s) (hleaf : isLeaf s.cn = true) (hsp : s.sp ≠ 0#8)
    (ht : resumeRight (recordCode s) = .next t) : Passes 1 2 s t := by
  refine ⟨fun n => ?_, (h.busyRun_leaf hleaf).trans (.one (by simp [Boundary]) ?_)⟩
  · rw [visitLoop, if_pos hleaf, if_neg hsp, ht, andThen_next]
  · exact (if_neg hsp).trans ht

/-- From the visit of a node with `m` internal nodes at or below it to the visit of the last leaf below it: what was
pending is pending still. -/
structure Traversed (m : Nat) (s t : State) : Prop where
  passes   : Passes (2 * m) (3 * m) s t
  visiting : Visiting t
  leaf     : isLeaf t.cn = true
  node     : nodeAt t = nodeAt s
  sp       : t.sp = s.sp
  stack    : ∀ k < s.sp.toNat, stackAt t k = stackAt s k

theorem Traversed.of_leaf {s : State} (h : Visiting s) (hleaf : isLeaf s.cn = true) : Traversed 0 s s :=
  ⟨.zero s, h, hleaf, rfl, rfl, fun _ _ => rfl⟩

/-- After the left subtree of a node its right child is on top of the stack, with what was pending before below it. -/
theorem Traversed.right {m : Nat} {s t u v : State} (hdescend : Descends s t) (h : Traversed m t u)
    (hresume : Resumes (recordCode u) v) :
    v.sp = s.sp ∧ v.cn = (nodeAt s s.cn.toNat).r ∧ nodeAt v = nodeAt s ∧
      ∀ k < s.sp.toNat, stackAt v k = stackAt s k := by
  have hsp : v.sp.toNat = s.sp.toNat := by
    have := hdescend.sp
    have := congrArg BitVec.toNat h.sp
    have : u.sp.toNat = v.sp.toNat + 1 := hresume.sp
    omega
  have hstack (k : Nat) (hk : k ≤ s.sp.toNat) : stackAt (recordCode u) k = stackAt t k :=
    h.stack k (by have := hdescend.sp; omega)
  refine ⟨BitVec.eq_of_toNat_eq hsp, ?_, ?_, fun k hk => ?_⟩
  · rw [hresume.cn, hsp, hstack _ (Nat.le_refl _), hdescend.new]
  · exact hresume.node.trans (h.node.trans hdescend.node)
  · rw [hresume.stack, hstack k (Nat.le_of_lt hk), hdescend.old k hk]

/-- An internal node: a descent, the left subtree, a resumption, the right subtree. -/
theorem exists_traversed {s : State} {i : NodeIndex} {js : List NodeIndex} (h : Subtree s i js) {t : State}
    (ht : Visiting t) (hnode : nodeAt t = nodeAt s) (hcn : t.cn = i) : ∃ u, Traversed js.length t u := by
  induction h generalizing t with
  | leaf hleaf => exact ⟨t, .of_leaf ht (hcn ▸ hleaf)⟩
  | @inner i js ks hinner _ _ _ ihl ihr =>
    subst hcn
    obtain ⟨u, hu⟩ := ht.exists_descendLeft hinner
    have hdescend := descends_of_descendLeft hu
    obtain ⟨v, hv⟩ := ihl (ht.descend hinner hu) (hdescend.node.trans hnode) (by rw [hdescend.cn, hnode])
    have hsp : v.sp ≠ 0#8 := by
      have := hdescend.sp
      have := hv.sp
      bv_omega
    obtain ⟨w, hw⟩ := hv.visiting.exists_resumeRight hsp
    obtain ⟨hwsp, hwcn, hwnode, hwstack⟩ := hv.right hdescend (resumes_of_resumeRight hsp hw)
    obtain ⟨x, hx⟩ := ihr (hv.visiting.resume hv.leaf hsp hw) (hwnode.trans hnode) (by rw [hwcn, hnode])
    have hpasses := (((ht.passes_descend hinner hu).trans hv.passes).trans
      (hv.visiting.passes_resume hv.leaf hsp hw)).trans hx.passes
    refine ⟨x, ?_, hx.visiting, hx.leaf, hx.node.trans hwnode, hx.sp.trans hwsp, fun k hk => ?_⟩
    · rw [List.length_cons, List.length_append]
      convert hpasses using 1 <;> ring
    · rw [hx.stack k (hwsp ▸ hk), hwstack k hk]

/-! ## DERIVE (R141, R150) -/

theorem exec_derive {s : State} (hph : s.ph = .idle) (h : s.treeValid = true) :
    exec .derive s = visitLoop 511 (deriveStart s) := by
  rw [exec, execDerive, withAdmission_idle hph, if_pos h]

theorem exec_derive_noTree {s : State} (hph : s.ph = .idle) (h : s.treeValid = false) :
    exec .derive s = .next { s with err := some .eSeq, ph := .fault } := by
  rw [exec, execDerive, withAdmission_idle hph, if_neg (by simp [h]), raise_idle _ hph]

/-- The last leaf, with no child pending, ends the traversal. -/
theorem Visiting.busyRun_last {s : State} (h : Visiting s) (hleaf : isLeaf s.cn = true) (hsp : s.sp = 0#8) :
    BusyRun 2 s (finishCodes (recordCode s)) :=
  (h.busyRun_leaf hleaf).trans (.one (by simp [Boundary]) (if_pos hsp))

/-- On a tree DERIVE completes, within the bound of R255, and the FSM reaches the same state. -/
theorem exists_derived {s : State} (hph : s.ph = .idle) (hvalid : s.treeValid = true) (htree : TreeShape s) :
    ∃ u, exec .derive s = .next (finishCodes (recordCode u)) ∧ u.sp = 0#8 ∧
      BusyRun (deriveSteps s.nleaf.toNat) (deriveStart s) (finishCodes (recordCode u)) := by
  obtain ⟨js, hjs⟩ := exists_subtree htree htree.root
  obtain ⟨u, hu⟩ := exists_traversed hjs (visiting_deriveStart htree) rfl rfl
  have hcount := hjs.length_root htree
  have hmost := htree.most
  have hsp : u.sp = 0#8 := hu.sp
  refine ⟨u, ?_, hsp, ?_⟩
  · rw [exec_derive hph hvalid, show 511 = 510 - 2 * js.length + 1 + 2 * js.length by omega, hu.passes.loop, visitLoop,
      if_pos hu.leaf, if_pos hsp]
  · rw [deriveSteps, show 3 * s.nleaf.toNat - 1 = 3 * js.length + 2 by omega]
    exact hu.passes.fsm.trans (hu.visiting.busyRun_last hu.leaf hsp)

/-! ## Codes (R151) -/

/-- A path to a leaf does not go on to another node. -/
theorem eq_of_prefix_of_leaf {s : State} {p q : List Bool} {i j k : NodeIndex} (hi : walk s k p = some i)
    (hj : walk s k q = some j) (hleaf : isLeaf i = true) (h : p <+: q) : j = i := by
  obtain ⟨r, rfl⟩ := h
  rw [walk_append, hi, Option.bind_some] at hj
  exact (walk_leaf hleaf hj).2

/-! ## RDL and RDC (R152, R153) -/

theorem exec_rdl (x : Byte) {s : State} (h : Boundary s) :
    exec (.rdl x) s = .next (emit (.rsp (lengthWord (codeAt s x))) s) := by
  rw [exec, execRdl, withAdmission_ok (admission_always h)]

theorem exec_rdc (x : Byte) (q : BitVec 2) {s : State} (h : Boundary s) :
    exec (.rdc x q) s = .next (emit (.rsp (codeChunk (codeAt s x).bits q)) s) := by
  rw [exec, execRdc, withAdmission_ok (admission_always h)]

/-- The word of RDC: its opcode, the symbol, 30 zeros and the chunk. -/
theorem word_rdc (x : Byte) (q : BitVec 2) : encode (.rdc x q) = 0x32#8 ++ x ++ 0#30 ++ q := by
  rw [BitVec.append_assoc (x₁ := 0x32#8 ++ x), zero_append_eq_setWidth]
  rfl

/-- The layout of the response of RDL. -/
theorem lengthWord_fields (e : CodeEntry) :
    (lengthWord e).extractLsb' 0 8 = e.len ∧ (lengthWord e).getLsbD 8 = e.valid ∧
      (lengthWord e).extractLsb' 9 55 = 0#55 := by
  refine ⟨BitVec.extractLsb'_append_eq_right, ?_, ?_⟩
  · simp only [lengthWord, BitVec.getLsbD_append]
    simp
  · exact (BitVec.extractLsb'_append_eq_of_le (by decide)).trans BitVec.extractLsb'_append_eq_left

/-- Bit `k` of the response of RDC is code bit `64q + k`, where there is one. -/
theorem getLsbD_codeChunk (bits : PathBits) (q : BitVec 2) {k : Nat} (hk : k < 64) :
    (codeChunk bits q).getLsbD k = if 64 * q.toNat + k < 255 then bits.getLsbD (64 * q.toNat + k) else false := by
  rw [codeChunk, BitVec.getLsbD_extractLsb', decide_eq_true hk, Bool.true_and]
  split
  next => rfl
  next hge => exact BitVec.getLsbD_of_ge _ _ (Nat.not_lt.1 hge)

end Sys2Proof.Machine

/-! ## The statements -/

namespace Sys2Proof.Proofs.DeriverRules

open Sys2Proof.Machine Sys2Proof.Safety

/-- Settles O37: the traversal of the tree completes, and where it ends every leaf has its code. -/
theorem deriveMakesCodeTable : Obligations.DeriveMakesCodeTable := by
  refine ⟨⟨decode_eq_ok_iff.2 rfl, rfl⟩, faultsIn_of_class_idle rfl, fun s => exec_derive_noTree,
    fun s hph hvalid htree => ?_⟩
  obtain ⟨u, hexec, hsp, -⟩ := exists_derived hph hvalid htree
  have heffect : Effect .derive s (finishCodes (recordCode u)) := ⟨hvalid, (exec_derive hph hvalid).symm.trans hexec⟩
  refine ⟨_, hexec, rfl, hsp, codeTable_of_effect_derive htree heffect, ?_⟩
  obtain ⟨v, hv, heq⟩ := effect_derive heffect
  rw [heq, hv, finishCodes, ← hph]
  rfl

/-- Settles O38: a descent is one step, a leaf two, and a tree of `n` leaves has `n - 1` internal nodes. -/
theorem fsmRefinesDerive : Obligations.FsmRefinesDerive := by
  intro s hph hvalid htree
  obtain ⟨u, hexec, -, hrun⟩ := exists_derived hph hvalid htree
  exact ⟨hrun.busy, hrun.reach.trans hexec.symm⟩

/-- Settles O40: a code leads to a leaf, and no path goes on from a leaf. -/
theorem codesPrefixFree : Obligations.CodesPrefixFree := by
  intro s x y htable hx hy hne hprefix
  have hleaf := eq_of_prefix_of_leaf ((htable x).leads hx) ((htable y).leads hy) (isLeaf_leafOf x) hprefix
  exact hne (by rw [← symOf_leafOf x, ← hleaf, symOf_leafOf])

/-- Settles O42: the response is cut out of the code's bits, and is zero past them. -/
theorem rdcAnswersChunk : Obligations.RdcAnswersChunk := fun x q =>
  ⟨⟨decode_eq_ok_iff.2 (word_rdc x q), rfl⟩, fun _ hboundary =>
    ⟨_, exec_rdc x q hboundary, fun _ hk => getLsbD_codeChunk _ q hk⟩⟩

/-- Settles O41: the response is the entry's fields put together. -/
theorem rdlAnswersLength : Obligations.RdlAnswersLength := fun x =>
  ⟨⟨decode_eq_ok_iff.2 rfl, rfl⟩, fun _ hboundary => ⟨_, exec_rdl x hboundary, lengthWord_fields _⟩⟩

end Sys2Proof.Proofs.DeriverRules

/-! SUPPORT. Proofs of the statements of 43_bit_packer.md. A stream of bits pushed from an empty byte on has a closed
form, `packing`: its whole bytes have left and its last bits wait in `ACC` over the padding (R164, R167). ENCS leaves it
with no bit, ENCB appends to it and ENCE ends it; a state has this form where `PadOk` holds. -/

namespace Sys2Proof.Machine

open Sys2Proof.Safety

/-! ## Bytes by their stream bits (20_memory.md R55) -/

theorem bitPosition_eq_ite (o : BitOrder) (m : Nat) : bitPosition o m = if o = .msbFirst then 7 - m else m := by
  cases o <;> rfl

theorem bitPosition_inj (o : BitOrder) {m n : Nat} (hm : m < 8) (hn : n < 8) :
    bitPosition o m = bitPosition o n ↔ m = n :=
  ⟨fun h => by rw [← bitPosition_bitPosition o hm, h, bitPosition_bitPosition o hn], congrArg _⟩

/-- Bytes with the same stream bits are equal. -/
theorem byte_ext_stream (o : BitOrder) {x y : Byte}
    (h : ∀ m < 8, x.getLsbD (bitPosition o m) = y.getLsbD (bitPosition o m)) : x = y :=
  BitVec.eq_of_getLsbD_eq fun k hk => by
    simpa only [bitPosition_bitPosition o hk] using h _ (bitPosition_lt o hk)

/-- The sum that makes a byte is a number in binary, whichever bit of the stream comes first. -/
theorem packByte_eq_ofBits (o : BitOrder) (bit : Nat → Bool) :
    packByte o bit = BitVec.ofNat 8 (Nat.ofBits fun k : Fin 8 => bit (bitPosition o k)) := by
  have hterm (v : Bool) (n : Nat) : (if v = true then 2 ^ n else 0) = 2 ^ n * v.toNat := by cases v <;> simp
  refine congrArg (BitVec.ofNat 8) ?_
  cases o with
  | msbFirst | lsbFirst =>
    simp [hterm, bitPosition, Nat.ofBits, List.range_succ, Fin.foldr_succ]
    omega

@[simp] theorem getLsbD_packByte (o : BitOrder) (bit : Nat → Bool) {m : Nat} (hm : m < 8) :
    (packByte o bit).getLsbD (bitPosition o m) = bit m := by
  have hpos := bitPosition_lt o hm
  rw [packByte_eq_ofBits, BitVec.getLsbD_ofNat, Nat.testBit_ofBits_lt _ _ hpos, bitPosition_bitPosition o hm]
  simp [hpos]

/-! ## Bytes of a stream (R167) -/

/-- Byte `k` of a stream of bits followed by padding. -/
def streamByte (c : Config) (bits : List Bool) (k : Nat) : Byte :=
  packByte c.bitOrder fun m => bits.getD (8 * k + m) c.padBit

@[simp] theorem getLsbD_streamByte (c : Config) (bits : List Bool) (k : Nat) {m : Nat} (hm : m < 8) :
    (streamByte c bits k).getLsbD (bitPosition c.bitOrder m) = bits.getD (8 * k + m) c.padBit :=
  getLsbD_packByte _ _ hm

@[simp] theorem packBytes_zero (c : Config) (bits : List Bool) : packBytes c bits 0 = [] := rfl

theorem packBytes_succ (c : Config) (bits : List Bool) (n : Nat) :
    packBytes c bits (n + 1) = packBytes c bits n ++ [streamByte c bits n] := by
  simp [packBytes, streamByte, List.range_succ]

/-- Past the end of the stream there is padding alone. -/
theorem streamByte_past (c : Config) {bits : List Bool} {k : Nat} (h : bits.length ≤ 8 * k) :
    streamByte c bits k = padByte c :=
  byte_ext_stream c.bitOrder fun m hm => by
    rw [getLsbD_streamByte _ _ _ hm, getLsbD_padByte _ (bitPosition_lt _ hm),
      List.getD_eq_default _ _ (by omega)]

/-- A full byte does not depend on the bits after it. -/
theorem streamByte_append (c : Config) {p : List Bool} (q : List Bool) {k : Nat} (h : 8 * (k + 1) ≤ p.length) :
    streamByte c (p ++ q) k = streamByte c p k :=
  byte_ext_stream c.bitOrder fun m hm => by
    rw [getLsbD_streamByte _ _ _ hm, getLsbD_streamByte _ _ _ hm, List.getD_append _ _ _ _ (by omega)]

theorem packBytes_append (c : Config) {p : List Bool} (q : List Bool) {n : Nat} (h : 8 * n ≤ p.length) :
    packBytes c (p ++ q) n = packBytes c p n := by
  induction n with
  | zero => rfl
  | succ n ih => rw [packBytes_succ, packBytes_succ, ih (by omega), streamByte_append c q h]

/-- The next bit of the stream goes into the byte begun. -/
theorem setBit_streamByte (c : Config) (bits : List Bool) (v : Bool) :
    setBit (streamByte c bits (bits.length / 8)) (bitPosition c.bitOrder (bits.length % 8)) v =
      streamByte c (bits ++ [v]) (bits.length / 8) := by
  refine byte_ext_stream c.bitOrder fun m hm => ?_
  have hlast : 8 * (bits.length / 8) + bits.length % 8 = bits.length := Nat.div_add_mod _ _
  rw [getLsbD_setBit _ _ (bitPosition_lt _ hm), getLsbD_streamByte _ _ _ hm, getLsbD_streamByte _ _ _ hm]
  simp only [bitPosition_inj _ hm (Nat.mod_lt _ (by decide))]
  split
  next hnew => simp [hnew, hlast]
  next hold =>
    rcases Nat.lt_or_ge (8 * (bits.length / 8) + m) bits.length with hlt | hge
    · rw [List.getD_append _ _ _ _ hlt]
    · rw [List.getD_eq_default _ _ hge, List.getD_eq_default _ _ (by simp; omega)]

/-! ## A stream being packed -/

/-- `s` with the stream `bits` pushed from an empty byte on: the full bytes have left, the rest waits. -/
def packing (bits : List Bool) (s : State) : State :=
  { s with
    acc := streamByte s.cfg bits (bits.length / 8), nacc := BitVec.ofNat 3 bits.length
    outq := s.outq ++ (packBytes s.cfg bits (bits.length / 8)).map .out }

theorem packing_nil (s : State) : packing [] s = { s with acc := padByte s.cfg, nacc := 0 } := by
  simp [packing, streamByte_past s.cfg (bits := []) (k := 0)]

@[simp] theorem toNat_nacc_packing (bits : List Bool) (s : State) : (packing bits s).nacc.toNat = bits.length % 8 :=
  BitVec.toNat_ofNat _ _

theorem nacc_packing_eq_iff {bits : List Bool} {s : State} {n : BitVec 3} :
    (packing bits s).nacc = n ↔ bits.length % 8 = n.toNat := by
  rw [← BitVec.toNat_inj, toNat_nacc_packing]

/-- `pushbit` appends its bit to the stream (R164). -/
theorem pushBit_packing (bits : List Bool) (s : State) (v : Bool) :
    pushBit (packing bits s) v = packing (bits ++ [v]) s := by
  have hplace : placeBit v (packing bits s) =
      { packing bits s with acc := streamByte s.cfg (bits ++ [v]) (bits.length / 8) } := by
    rw [← setBit_streamByte, placeBit, toNat_nacc_packing]
    rfl
  have hsucc : (packing bits s).nacc + 1 = BitVec.ofNat 3 (bits ++ [v]).length := by
    rw [List.length_append]
    exact (BitVec.ofNat_add ..).symm
  by_cases hfull : (packing bits s).nacc = 7#3
  · have hmod : bits.length % 8 = 7 := nacc_packing_eq_iff.1 hfull
    have hdiv : (bits ++ [v]).length / 8 = bits.length / 8 + 1 := by simp; omega
    have hpast : streamByte s.cfg (bits ++ [v]) (bits.length / 8 + 1) = padByte s.cfg :=
      streamByte_past _ (by simp; omega)
    rw [hfull] at hsucc
    rw [pushBit_full hfull, hplace, packing, packing, hdiv, hpast, packBytes_succ, packBytes_append _ _ (by omega),
      ← hsucc]
    simp [flushByte, emit]
  · have hmod : bits.length % 8 ≠ 7 := fun h => hfull (nacc_packing_eq_iff.2 h)
    have hdiv : (bits ++ [v]).length / 8 = bits.length / 8 := by simp; omega
    rw [pushBit_filling hfull, hplace, hsucc, packing, packing, hdiv, packBytes_append _ _ (by omega)]

/-- Pushing bits appends them to the stream. -/
theorem pushBits_packing (bits q : List Bool) (s : State) :
    pushBits (packing bits s) q = packing (bits ++ q) s := by
  induction q generalizing bits with
  | nil => simp
  | cons v q ih => rw [pushBits_cons, pushBit_packing, ih, List.append_assoc, List.singleton_append]

/-! ## The waiting bits -/

@[simp] theorem length_waitingBits (s : State) : (waitingBits s).length = s.nacc.toNat := by simp [waitingBits]

@[simp] theorem length_codeBits (e : CodeEntry) : (codeBits e).length = e.len.toNat := by simp [codeBits]

/-- With padding behind the waiting bits, a state is its waiting bits pushed into an empty byte. -/
theorem packing_waitingBits {s : State} (h : PadOk s) : packing (waitingBits s) s = s := by
  have hdiv : (waitingBits s).length / 8 = 0 := by rw [length_waitingBits]; omega
  have hacc : streamByte s.cfg (waitingBits s) 0 = s.acc := byte_ext_stream s.cfg.bitOrder fun m hm => by
    rw [getLsbD_streamByte _ _ _ hm, Nat.mul_zero, Nat.zero_add]
    rcases Nat.lt_or_ge m s.nacc.toNat with hlt | hge
    · rw [List.getD_eq_getElem _ _ (by simpa using hlt)]
      simp [waitingBits]
    · rw [List.getD_eq_default _ _ (by simpa using hge), h m hm hge]
  rw [packing, hdiv, hacc, length_waitingBits]
  simp

/-- The bits after the last full byte wait. -/
theorem waitingBits_packing (bits : List Bool) (s : State) :
    waitingBits (packing bits s) = bits.drop (8 * (bits.length / 8)) := by
  refine List.ext_getElem (by simp; omega) fun m hm _ => ?_
  rw [length_waitingBits, toNat_nacc_packing] at hm
  have hbyte := getLsbD_streamByte s.cfg bits (bits.length / 8) (m := m) (by omega)
  rw [List.getD_eq_getElem _ _ (by omega)] at hbyte
  rw [List.getElem_drop, ← hbyte]
  simp [waitingBits, packing]

theorem padOk_packing (bits : List Bool) (s : State) : PadOk (packing bits s) := fun m hm hle => by
  rw [toNat_nacc_packing] at hle
  exact (getLsbD_streamByte s.cfg bits _ hm).trans (List.getD_eq_default _ _ (by omega))

/-! ## ENCS (R161) -/

theorem exec_encs_noCodes {s : State} (hph : s.ph = .idle) (h : s.codeValid = false) :
    exec .encs s = .next { s with err := some .eSeq, ph := .fault } := by
  rw [exec, execEncs, withAdmission_idle hph, if_pos h, raise_idle _ hph]

theorem exec_encs_noSentinel {s : State} (hph : s.ph = .idle) (h : s.codeValid = true)
    (hcode : (codeAt s s.cfg.eotSym).valid = false) :
    exec .encs s = .next { s with err := some .eNocode, ph := .fault } := by
  rw [exec, execEncs, withAdmission_idle hph, if_neg (by simp [h]), if_pos hcode, raise_idle _ hph]

theorem exec_encs_opens {s : State} (hph : s.ph = .idle) (h : s.codeValid = true)
    (hcode : (codeAt s s.cfg.eotSym).valid = true) :
    exec .encs s = .next { s with acc := padByte s.cfg, nacc := 0, coll := false, ph := .enc } := by
  rw [exec, execEncs, withAdmission_idle hph, if_neg (by simp [h]), if_neg (by simp [hcode])]

/-! ## ENCB and ENCE (R162, R163) -/

/-- A command of class `enc` is out of sequence outside an encode session. -/
theorem faultsIn_of_class_enc {i : Instr} (h : commandClass i = .enc) : FaultsIn [.idle, .dec] i :=
  faultsIn_of_admission (by rw [h]; decide) (by rw [h]; decide)

theorem withAdmission_enc {s : State} (hph : s.ph = .enc) (body : State → Answer) :
    withAdmission .enc s body = body s := withAdmission_ok (by rw [hph]; rfl)

theorem exec_encb_noCode {x : Byte} {s : State} (hph : s.ph = .enc) (h : (codeAt s x).valid = false) :
    exec (.encb x) s = .next { s with err := some .eNocode, ph := .fault } := by
  rw [exec, execEncb, withAdmission_enc hph, if_pos h, raise_outside _ (by rw [hph]; decide)]

/-- ENCB appends the code of its byte to the stream. -/
theorem exec_encb_packing {x : Byte} {s : State} (bits : List Bool) (hph : s.ph = .enc)
    (h : (codeAt s x).valid = true) :
    exec (.encb x) (packing bits s) =
      .next (packing (bits ++ codeBits (codeAt s x)) { s with coll := s.coll || decide (x = s.cfg.eotSym) }) := by
  have hvalid : ¬(codeAt (packing bits s) x).valid = false := ne_false_of_eq_true h
  rw [exec, execEncb, withAdmission_enc (s := packing bits s) hph, if_neg hvalid, ← pushBits_packing]
  rfl

/-- ENCBs append the codes of their bytes, in order. -/
theorem execAll_encb_packing (data : List Byte) {s : State} (bits : List Bool) (hph : s.ph = .enc)
    (h : ∀ x ∈ data, (codeAt s x).valid = true) :
    execAll (data.map .encb) (packing bits s) =
      .next (packing (bits ++ data.flatMap fun x => codeBits (codeAt s x))
        { s with coll := s.coll || decide (s.cfg.eotSym ∈ data) }) := by
  induction data generalizing s bits with
  | nil => simp [execAll]
  | cons x q ih =>
    rw [List.forall_mem_cons] at h
    have hrest := ih (s := { s with coll := s.coll || decide (x = s.cfg.eotSym) })
      (bits ++ codeBits (codeAt s x)) hph h.2
    rw [List.map_cons, execAll, exec_encb_packing bits hph h.1, andThen_next, hrest, List.append_assoc]
    simp only [List.flatMap_cons, List.mem_cons, Bool.decide_or, Bool.or_assoc, eq_comm (a := x)]
    rfl

/-- The last byte begun leaves: what has left then is the whole stream in bytes. -/
theorem flush_packing (bits : List Bool) (s : State) :
    (if (packing bits s).nacc = 0#3 then packing bits s else flushByte (packing bits s)) = { s with
      acc := padByte s.cfg, nacc := 0
      outq := s.outq ++ (packBytes s.cfg bits ((bits.length + 7) / 8)).map .out } := by
  split
  next hempty =>
    have hmod : bits.length % 8 = 0 := nacc_packing_eq_iff.1 hempty
    have hdiv : (bits.length + 7) / 8 = bits.length / 8 := by omega
    have hzero : BitVec.ofNat 3 bits.length = 0 := hempty
    rw [packing, hzero, hdiv, streamByte_past _ (by omega)]
  next hbegun =>
    have hmod : bits.length % 8 ≠ 0 := fun h => hbegun (nacc_packing_eq_iff.2 h)
    have hdiv : (bits.length + 7) / 8 = bits.length / 8 + 1 := by omega
    rw [hdiv, packBytes_succ]
    simp [flushByte, emit, packing]

/-- ENCE appends the sentinel's code, and the whole stream has left. -/
theorem exec_ence_packing {s : State} (bits : List Bool) (hph : s.ph = .enc) :
    exec .ence (packing bits s) = .next { s with
      ph := .idle, acc := padByte s.cfg, nacc := 0
      outq := s.outq ++ (packBytes s.cfg (bits ++ codeBits (codeAt s s.cfg.eotSym))
        (((bits ++ codeBits (codeAt s s.cfg.eotSym)).length + 7) / 8)).map .out } := by
  have hpush : pushBits (packing bits s) (codeBits (codeAt (packing bits s) (packing bits s).cfg.eotSym)) =
      packing (bits ++ codeBits (codeAt s s.cfg.eotSym)) s := pushBits_packing _ _ _
  rw [exec, execEnce, withAdmission_enc (s := packing bits s) hph]
  dsimp only
  rw [hpush, flush_packing]

end Sys2Proof.Machine

/-! ## The statements -/

namespace Sys2Proof.Proofs.PackerRules

open Sys2Proof.Machine Sys2Proof.Safety

/-- Settles O47: ENCS begins an empty stream, each ENCB appends a code to it, ENCE the last one. -/
theorem encodeSessionPacks : Obligations.EncodeSessionPacks := by
  intro data s hph hvalid hsentinel hcodes
  have hopened := packing_nil { s with coll := false, ph := .enc }
  have hdata := execAll_encb_packing data (s := { s with coll := false, ph := .enc }) [] rfl hcodes
  rw [hopened] at hdata
  rw [Pseudo.expand, execAll_append, List.singleton_append, execAll, exec_encs_opens hph hvalid hsentinel, andThen_next,
    hdata, andThen_next, execAll_singleton, exec_ence_packing _ rfl, ← hph, Bool.false_or]
  rfl

/-- Settles O43, by the two tests of ENCS. -/
theorem encsOpensSession : Obligations.EncsOpensSession :=
  ⟨⟨decode_eq_ok_iff.2 rfl, rfl⟩, faultsIn_of_class_idle rfl, fun _ => exec_encs_noCodes,
    fun _ hph hvalid => ⟨exec_encs_opens hph hvalid, exec_encs_noSentinel hph hvalid⟩⟩

/-- Settles O44, by whether the bit fills the byte. -/
theorem pushBitFillsByte : Obligations.PushBitFillsByte := by
  refine fun s v => ⟨fun hlt => ?_, fun hfull => ?_⟩
  · have hne : s.nacc ≠ 7#3 := fun h => by simp [h] at hlt
    refine ⟨_, pushBit_filling hne v, fun m hm => ?_⟩
    rw [← bitPosition_eq_ite]
    exact getLsbD_setBit _ _ hm
  · have h7 : s.nacc = 7#3 := BitVec.eq_of_toNat_eq hfull
    refine ⟨_, pushBit_full h7 v, fun m hm => ?_⟩
    have hpos : (if s.cfg.bitOrder = .msbFirst then 0 else 7) = bitPosition s.cfg.bitOrder s.nacc.toNat := by
      rw [bitPosition_eq_ite, hfull]
    rw [hpos]
    exact getLsbD_setBit _ _ hm

/-- Settles O45: the state is its waiting bits pushed, and ENCB appends its code to them. -/
theorem encbPacksCode : Obligations.EncbPacksCode := by
  refine fun x => ⟨⟨decode_eq_ok_iff.2 rfl, rfl⟩, faultsIn_of_class_enc rfl, fun s hph hpad =>
    ⟨fun hvalid => ?_, exec_encb_noCode hph⟩⟩
  have hexec := exec_encb_packing (waitingBits s) hph hvalid
  have hlength : (waitingBits s ++ codeBits (codeAt s x)).length = s.nacc.toNat + (codeAt s x).len.toNat := by simp
  rw [packing_waitingBits hpad] at hexec
  rw [← hlength]
  exact ⟨_, hexec, rfl, toNat_nacc_packing _ _, waitingBits_packing _ _, padOk_packing _ _, rfl, rfl⟩

/-- Settles O46: the state is its waiting bits pushed, and ENCE ends their stream. -/
theorem enceClosesSession : Obligations.EnceClosesSession := by
  refine ⟨⟨decode_eq_ok_iff.2 rfl, rfl⟩, faultsIn_of_class_enc rfl, fun s hph hpad => ?_⟩
  have hexec := exec_ence_packing (waitingBits s) hph
  rw [packing_waitingBits hpad, List.length_append, length_waitingBits, length_codeBits] at hexec
  exact hexec

end Sys2Proof.Proofs.PackerRules

/-! SUPPORT. Proofs of the statements of 44_bit_unpacker.md. The bits of a decode session's bytes are walked one after
the other, wherever the bytes are cut, and leave what `decodeBits` says (R183, R191). The bits of a code decode to its
symbol, so the bits of an encode session decode to its data up to the first sentinel, whatever follows (R187, R188). -/

namespace Sys2Proof.Machine

open Sys2Proof.Safety

/-! ## Nodes and leaves -/

theorem inner_of_le {i : NodeIndex} (h : 256 ≤ i.toNat) : isLeaf i = false := by simpa [isLeaf] using h

theorem eq_leafOf_iff {i : NodeIndex} {x : Byte} : i = leafOf x ↔ i.toNat = x.toNat := by
  rw [← BitVec.toNat_inj, toNat_leafOf]

theorem leafOf_inj {x y : Byte} : leafOf x = leafOf y ↔ x = y := by
  rw [eq_leafOf_iff, toNat_leafOf, BitVec.toNat_inj]

/-- What an internal node is reached from is no leaf. -/
theorem inner_of_walk {s : State} {i j : NodeIndex} {p : List Bool} (hp : walk s i p = some j)
    (hinner : isLeaf j = false) : isLeaf i = false :=
  Bool.eq_false_of_not_eq_true fun hleaf => by
    rw [(walk_leaf hleaf hp).2, hleaf] at hinner
    cases hinner

/-! ## The decoded sequence, bit by bit (R191) -/

section DecodeBits

variable {s : State} {i : NodeIndex} {b : Bool}

/-- At an internal node the walk goes on. -/
theorem decodeBits_cons_inner (h : isLeaf (childOf (nodeAt s i.toNat) b) = false) (q : List Bool) :
    decodeBits s i (b :: q) = decodeBits s (childOf (nodeAt s i.toNat) b) q := by
  simp [decodeBits, h]

/-- At the sentinel's leaf the walk ends, and nothing is written (R186). -/
theorem decodeBits_cons_sentinel (h : childOf (nodeAt s i.toNat) b = leafOf s.cfg.eotSym) (q : List Bool) :
    decodeBits s i (b :: q) = { out := [], done := true, cur := s.root } := by
  simp [decodeBits, h, isLeaf_leafOf]

/-- At another leaf its symbol is written, and the walk is back at the root. -/
theorem decodeBits_cons_symbol (hleaf : isLeaf (childOf (nodeAt s i.toNat) b) = true)
    (h : childOf (nodeAt s i.toNat) b ≠ leafOf s.cfg.eotSym) (q : List Bool) :
    decodeBits s i (b :: q) = { decodeBits s s.root q with
      out := symOf (childOf (nodeAt s i.toNat) b) :: (decodeBits s s.root q).out } := by
  simp [decodeBits, hleaf, h]

/-- Bits that lead to an internal node write nothing. -/
theorem decodeBits_append_of_walk {j : NodeIndex} {p : List Bool} (hp : walk s i p = some j) (hinner : isLeaf j = false)
    (q : List Bool) : decodeBits s i (p ++ q) = decodeBits s j q := by
  induction p generalizing i with
  | nil =>
    cases hp
    rfl
  | cons b p ih =>
    rw [walk] at hp
    split at hp
    next => cases hp
    next => rw [List.cons_append, decodeBits_cons_inner (inner_of_walk hp hinner), ih hp]

/-- Where the sentinel is met the walk is back at the root. -/
theorem cur_decodeBits_of_done {bits : List Bool} (h : (decodeBits s i bits).done = true) :
    (decodeBits s i bits).cur = s.root := by
  induction bits generalizing i with
  | nil => cases h
  | cons b q ih =>
    cases hleaf : isLeaf (childOf (nodeAt s i.toNat) b) with
    | false =>
      rw [decodeBits_cons_inner hleaf] at h ⊢
      exact ih h
    | true =>
      by_cases hsentinel : childOf (nodeAt s i.toNat) b = leafOf s.cfg.eotSym
      · rw [decodeBits_cons_sentinel hsentinel]
      · rw [decodeBits_cons_symbol hleaf hsentinel] at h ⊢
        exact ih h

end DecodeBits

/-- What bits decode to depends on the tree and the parameters alone. -/
theorem decodeBits_congr {s t : State} (hnode : t.node = s.node) (hroot : t.root = s.root) (hcfg : t.cfg = s.cfg) :
    decodeBits t = decodeBits s := by
  funext i bits
  induction bits generalizing i with
  | nil => rfl
  | cons b q ih =>
    have hentry : nodeAt t i.toNat = nodeAt s i.toNat := by rw [nodeAt, hnode, nodeAt]
    rw [decodeBits, decodeBits, hentry, hroot, hcfg, ih, ih]

/-! ## The walk of a decode session (R183) -/

/-- `s` with what a walk from its position has given. -/
def walked (d : Decoded) (s : State) : State :=
  { s with cur := d.cur, decDone := d.done, outq := s.outq ++ d.out.map .out }

/-- After the sentinel every bit is discarded. -/
theorem walkBits_done {s : State} (h : s.decDone = true) (bits : List Bool) : walkBits bits s = .next s := by
  induction bits with
  | nil => rfl
  | cons b q ih => rw [walkBits, walkBit_eq_next.2 (.inl ⟨h, rfl⟩), andThen_next, ih]

theorem WalkWrites.ph {s t : State} (h : WalkWrites s t) : t.ph = s.ph := by
  rw [h]

/-- The walk stands at an internal node of the tree (10_state.md R37 (g)). -/
structure Inside (s : State) (i : NodeIndex) : Prop where
  tree    : TreeShape s
  inner   : isLeaf i = false
  reached : ∃ p, walk s s.root p = some i

theorem Inside.ne_511 {s : State} {i : NodeIndex} (h : Inside s i) : i ≠ 511#9 := by
  obtain ⟨p, hp⟩ := h.reached
  exact ne_511_of_inTree h.tree (inTree_walk h.tree h.tree.root hp)

theorem Inside.child {s : State} {i : NodeIndex} (h : Inside s i) {b : Bool}
    (hinner : isLeaf (childOf (nodeAt s i.toNat) b) = false) : Inside s (childOf (nodeAt s i.toNat) b) := by
  obtain ⟨p, hp⟩ := h.reached
  exact ⟨h.tree, hinner, p ++ [b], walk_concat hp h.inner h.ne_511 b⟩

theorem Inside.root {s : State} {i : NodeIndex} (h : Inside s i) : Inside s s.root := by
  obtain ⟨p, hp⟩ := h.reached
  exact ⟨h.tree, inner_of_walk hp h.inner, [], rfl⟩

/-- The bits of a session walk as `dec` says, from wherever the walk stands; what they write follows what was written
before. -/
theorem walkBits_walked {s : State} {i : NodeIndex} (h : Inside s i) (out : List Byte) (bits : List Bool) :
    walkBits bits (walked { out := out, done := false, cur := i } s) =
      .next (walked { decodeBits s i bits with out := out ++ (decodeBits s i bits).out } s) := by
  induction bits generalizing i out with
  | nil => simp [walkBits, decodeBits]
  | cons b q ih =>
    have hbit : walkBit b (walked { out := out, done := false, cur := i } s) =
        .next (arrive (walked { out := out, done := false, cur := childOf (nodeAt s i.toNat) b } s)) :=
      walkBit_eq_next.2 (.inr ⟨rfl, h.ne_511, rfl⟩)
    rw [walkBits, hbit, andThen_next]
    cases hleaf : isLeaf (childOf (nodeAt s i.toNat) b) with
    | false => rw [arrive_inside hleaf, ih (h.child hleaf), decodeBits_cons_inner hleaf]
    | true =>
      by_cases hsentinel : childOf (nodeAt s i.toNat) b = leafOf s.cfg.eotSym
      · rw [arrive_sentinel hleaf hsentinel, walkBits_done rfl, decodeBits_cons_sentinel hsentinel, List.append_nil]
        rfl
      · have hrest := ih h.root (out ++ [symOf (childOf (nodeAt s i.toNat) b)])
        rw [arrive_symbol hleaf hsentinel, decodeBits_cons_symbol hleaf hsentinel]
        simpa [walked] using hrest

/-- The walk of an open session. -/
theorem walkBits_inside {s : State} (h : Inside s s.cur) (hopen : s.decDone = false) (bits : List Bool) :
    walkBits bits s = .next (walked (decodeBits s s.cur bits) s) := by
  have hstart : walked { out := [], done := false, cur := s.cur } s = s := by simp [walked, ← hopen]
  simpa [hstart] using walkBits_walked h [] bits

/-! ## DECS (R181, R182) -/

theorem exec_decs_noTree {s : State} (hph : s.ph = .idle) (h : s.treeValid = false) :
    exec .decs s = .next { s with err := some .eSeq, ph := .fault } := by
  rw [exec, execDecs, withAdmission_idle hph, if_pos h, raise_idle _ hph]

theorem exec_decs_degenerate {s : State} (hph : s.ph = .idle) (h : s.treeValid = true) (hleaf : isLeaf s.root = true)
    (hroot : s.root ≠ leafOf s.cfg.eotSym) :
    exec .decs s = .next { s with err := some .eDegen, ph := .fault } := by
  rw [exec, execDecs, withAdmission_idle hph, if_neg (by simp [h]), if_pos ⟨hleaf, hroot⟩, raise_idle _ hph]

theorem exec_decs_opens {s : State} (hph : s.ph = .idle) (h : s.treeValid = true)
    (hroot : isLeaf s.root = true → s.root = leafOf s.cfg.eotSym) :
    exec .decs s = .next { s with decDone := isLeaf s.root, cur := s.root, ph := .dec } := by
  rw [exec, execDecs, withAdmission_idle hph, if_neg (by simp [h]), if_neg fun hdegenerate =>
    hdegenerate.2 (hroot hdegenerate.1)]

/-! ## DECB and DECE (R183, R184) -/

/-- A command of class `dec` is out of sequence outside a decode session. -/
theorem faultsIn_of_class_dec {i : Instr} (h : commandClass i = .dec) : FaultsIn [.idle, .enc] i :=
  faultsIn_of_admission (by rw [h]; decide) (by rw [h]; decide)

theorem withAdmission_dec {s : State} (hph : s.ph = .dec) (body : State → Answer) :
    withAdmission .dec s body = body s := withAdmission_ok (by rw [hph]; rfl)

theorem exec_decb {s : State} (hph : s.ph = .dec) (x : Byte) :
    exec (.decb x) s = walkBits (streamBits s.cfg.bitOrder x) s := by
  rw [exec, execDecb, withAdmission_dec hph]

/-- DECBs walk the bits of their bytes one after the other, wherever the bytes are cut (R191). -/
theorem execAll_decb {s : State} (hph : s.ph = .dec) (packed : List Byte) :
    execAll (packed.map .decb) s = walkBits (bytesBits s packed) s := by
  induction packed generalizing s with
  | nil => rfl
  | cons x q ih =>
    rw [List.map_cons, execAll, exec_decb hph, bytesBits, List.flatMap_cons, walkBits_append]
    cases hbyte : walkBits (streamBits s.cfg.bitOrder x) s with
    | fault | refused => rfl
    | next u =>
      have hrest := ih ((effect_decb (x := x) hbyte).ph.trans hph)
      rwa [bytesBits, cfg_walkBits hbyte] at hrest

theorem exec_dece_closes {s : State} (hph : s.ph = .dec) (h : s.decDone = true) :
    exec .dece s = .next { s with ph := .idle } := by
  rw [exec, execDece, withAdmission_dec hph, if_pos h]

/-- Without the sentinel DECE raises the fault that says where the walk stands. -/
theorem exec_dece_open {s : State} (hph : s.ph = .dec) (h : s.decDone = false) :
    exec .dece s = .next { s with err := some (if s.cur = s.root then .eTrunc else .eMidpath), ph := .fault } := by
  have hfault (f : FaultName) : raise f s = { s with err := some f, ph := .fault } :=
    raise_outside f (by rw [hph]; decide)
  rw [exec, execDece, withAdmission_dec hph, if_neg (by simp [h]), hfault, hfault, ite_not]
  split <;> rfl

/-! ## A whole session (R191) -/

/-- A session that DECS opens walks the bits of its bytes and ends with DECE. -/
theorem execAll_decode {s : State} (hph : s.ph = .idle) (hvalid : s.treeValid = true)
    (hroot : isLeaf s.root = true → s.root = leafOf s.cfg.eotSym) (packed : List Byte) :
    execAll (Pseudo.decode packed).expand s =
      andThen (walkBits (bytesBits s packed) { s with decDone := isLeaf s.root, cur := s.root, ph := .dec })
        (exec .dece) := by
  have hbytes := execAll_decb (s := { s with decDone := isLeaf s.root, cur := s.root, ph := .dec }) rfl packed
  rw [Pseudo.expand, execAll_append, List.singleton_append, execAll, exec_decs_opens hph hvalid hroot, andThen_next,
    hbytes]
  exact congrArg (andThen _) (funext fun u => execAll_singleton .dece u)

/-- On the one-leaf tree of the sentinel every byte is discarded (R182). -/
theorem execAll_decode_leaf {s : State} (hph : s.ph = .idle) (hvalid : s.treeValid = true)
    (hroot : s.root = leafOf s.cfg.eotSym) (packed : List Byte) :
    execAll (Pseudo.decode packed).expand s = .next { s with decDone := true, cur := s.root } := by
  have hleaf : isLeaf s.root = true := hroot ▸ isLeaf_leafOf _
  rw [execAll_decode hph hvalid fun _ => hroot, walkBits_done hleaf, andThen_next, exec_dece_closes rfl hleaf, hleaf,
    ← hph]

/-- On another tree the bits are walked from the root. -/
theorem execAll_decode_inner {s : State} (hph : s.ph = .idle) (hvalid : s.treeValid = true) (htree : TreeShape s)
    (hinner : isLeaf s.root = false) (packed : List Byte) :
    execAll (Pseudo.decode packed).expand s =
      exec .dece { walked (decodeBits s s.root (bytesBits s packed)) s with ph := .dec } := by
  have hinside : Inside { s with decDone := false, cur := s.root, ph := .dec } s.root :=
    ⟨SameTree.treeShape (s := s) rfl htree, hinner, [], rfl⟩
  have hbits : decodeBits { s with decDone := false, cur := s.root, ph := .dec } = decodeBits s :=
    decodeBits_congr rfl rfl rfl
  rw [execAll_decode hph hvalid (by simp [hinner]), hinner, walkBits_inside hinside rfl, andThen_next, hbits]
  rfl

/-- A session whose bits hold the sentinel ends in `IDLE`. -/
theorem execAll_decode_done {s : State} (hph : s.ph = .idle) (hvalid : s.treeValid = true) (htree : TreeShape s)
    (hinner : isLeaf s.root = false) {packed : List Byte}
    (hdone : (decodeBits s s.root (bytesBits s packed)).done = true) :
    execAll (Pseudo.decode packed).expand s = .next (walked (decodeBits s s.root (bytesBits s packed)) s) := by
  rw [execAll_decode_inner hph hvalid htree hinner, exec_dece_closes rfl hdone, ← hph]
  rfl

/-! ## The bits of codes decode to the symbols (R187, R188) -/

section Codes

variable {s : State} {p : List Bool} {x : Byte}

/-- A path from an internal root to a leaf ends with the choice that arrives there. -/
theorem exists_last_choice (hroot : isLeaf s.root = false) (hp : walk s s.root p = some (leafOf x)) :
    ∃ q b k, p = q ++ [b] ∧ walk s s.root q = some k ∧ isLeaf k = false ∧ childOf (nodeAt s k.toNat) b = leafOf x := by
  rcases List.eq_nil_or_concat' p with rfl | ⟨q, b, rfl⟩
  · rw [Option.some.inj hp, isLeaf_leafOf] at hroot
    cases hroot
  · obtain ⟨k, hk, hinner, hchild⟩ := walk_concat_inv hp
    exact ⟨q, b, k, rfl, hk, hinner, hchild⟩

/-- The sentinel's code ends the walk. -/
theorem decodeBits_sentinelCode (hroot : isLeaf s.root = false) (hp : walk s s.root p = some (leafOf s.cfg.eotSym))
    (rest : List Bool) : decodeBits s s.root (p ++ rest) = { out := [], done := true, cur := s.root } := by
  obtain ⟨q, b, k, rfl, hk, hinner, hchild⟩ := exists_last_choice hroot hp
  rw [List.append_assoc, decodeBits_append_of_walk hk hinner, List.singleton_append, decodeBits_cons_sentinel hchild]

/-- The code of another symbol writes it and leads back to the root. -/
theorem decodeBits_symbolCode (hroot : isLeaf s.root = false) (hp : walk s s.root p = some (leafOf x))
    (hx : x ≠ s.cfg.eotSym) (rest : List Bool) : decodeBits s s.root (p ++ rest) =
      { decodeBits s s.root rest with out := x :: (decodeBits s s.root rest).out } := by
  obtain ⟨q, b, k, rfl, hk, hinner, hchild⟩ := exists_last_choice hroot hp
  have hleaf : isLeaf (childOf (nodeAt s k.toNat) b) = true := hchild ▸ isLeaf_leafOf x
  have hne : childOf (nodeAt s k.toNat) b ≠ leafOf s.cfg.eotSym := by rwa [hchild, Ne, leafOf_inj]
  rw [List.append_assoc, decodeBits_append_of_walk hk hinner, List.singleton_append, decodeBits_cons_symbol hleaf hne,
    hchild, symOf_leafOf]

end Codes

/-- `code` gives every symbol of `data`, and the sentinel, a path from the root to its leaf. -/
structure CodesLead (s : State) (code : Byte → List Bool) (data : List Byte) : Prop where
  sentinel : walk s s.root (code s.cfg.eotSym) = some (leafOf s.cfg.eotSym)
  symbols  : ∀ x ∈ data, walk s s.root (code x) = some (leafOf x)

/-- The codes of data and then the sentinel's decode to the data before the first sentinel, whatever follows. -/
theorem decodeBits_codes {s : State} {code : Byte → List Bool} {data : List Byte} (h : CodesLead s code data)
    (hroot : isLeaf s.root = false) (rest : List Bool) :
    decodeBits s s.root (data.flatMap code ++ code s.cfg.eotSym ++ rest) =
      { out := data.takeWhile fun x => decide (x ≠ s.cfg.eotSym), done := true, cur := s.root } := by
  induction data with
  | nil => exact decodeBits_sentinelCode hroot h.sentinel rest
  | cons x q ih =>
    obtain ⟨hx, hq⟩ := List.forall_mem_cons.1 h.symbols
    rw [List.flatMap_cons, List.append_assoc, List.append_assoc]
    by_cases hsentinel : x = s.cfg.eotSym
    · rw [hsentinel, decodeBits_sentinelCode hroot h.sentinel]
      simp
    · rw [decodeBits_symbolCode hroot hx hsentinel, ← List.append_assoc, ih ⟨h.sentinel, hq⟩]
      simp [hsentinel]

/-- On a one-leaf tree the sentinel is the root, and no other symbol has a code. -/
theorem CodesLead.of_leaf {s : State} {code : Byte → List Bool} {data : List Byte} (h : CodesLead s code data)
    (hleaf : isLeaf s.root = true) :
    s.root = leafOf s.cfg.eotSym ∧ (data.takeWhile fun x => decide (x ≠ s.cfg.eotSym)) = [] := by
  have hroot := (walk_leaf hleaf h.sentinel).2
  refine ⟨hroot.symm, ?_⟩
  cases data with
  | nil => rfl
  | cons x q =>
    have hx := (walk_leaf hleaf (h.symbols x (List.mem_cons_self ..))).2
    simp [leafOf_inj.1 (hx.trans hroot.symm)]

/-- A session whose bits begin with the codes of data and the sentinel's writes the data before the first sentinel. -/
theorem execAll_decode_codes {s : State} {code : Byte → List Bool} {data packed : List Byte} (hph : s.ph = .idle)
    (hvalid : s.treeValid = true) (htree : TreeShape s) (h : CodesLead s code data)
    (hbits : data.flatMap code ++ code s.cfg.eotSym <+: bytesBits s packed) :
    execAll (Pseudo.decode packed).expand s = .next { s with
      decDone := true, cur := s.root
      outq := s.outq ++ (data.takeWhile fun x => decide (x ≠ s.cfg.eotSym)).map .out } := by
  cases hleaf : isLeaf s.root with
  | true =>
    obtain ⟨hroot, hempty⟩ := h.of_leaf hleaf
    rw [execAll_decode_leaf hph hvalid hroot, hempty, List.map_nil, List.append_nil]
  | false =>
    obtain ⟨rest, hrest⟩ := hbits
    have hdecoded := decodeBits_codes h hleaf rest
    rw [hrest] at hdecoded
    rw [execAll_decode_done hph hvalid htree hleaf (by rw [hdecoded]), hdecoded]
    rfl

/-- The codes of a code table lead to their leaves. -/
theorem codesLead_of_codeTable {s : State} {data : List Byte} (h : CodeTable s)
    (hsentinel : (codeAt s s.cfg.eotSym).valid = true) (hdata : ∀ x ∈ data, (codeAt s x).valid = true) :
    CodesLead s (fun x => codeBits (codeAt s x)) data :=
  ⟨(h _).leads hsentinel, fun x hx => (h x).leads (hdata x hx)⟩

/-! ## Packed bytes hold the bits they were packed from (R167) -/

theorem streamBits_streamByte (c : Config) (bits : List Bool) (k : Nat) :
    streamBits c.bitOrder (streamByte c bits k) = (List.range 8).map fun m => bits.getD (8 * k + m) c.padBit :=
  List.map_congr_left fun _ hm => getLsbD_streamByte c bits k (List.mem_range.1 hm)

/-- The bits of `n` bytes of a stream. -/
theorem flatMap_streamBits_packBytes (c : Config) (bits : List Bool) (n : Nat) :
    (packBytes c bits n).flatMap (streamBits c.bitOrder) = (List.range (8 * n)).map fun j => bits.getD j c.padBit := by
  induction n with
  | zero => rfl
  | succ n ih =>
    rw [packBytes_succ, List.flatMap_append, ih, List.flatMap_singleton, streamBits_streamByte, Nat.mul_succ,
      List.range_add, List.map_append, List.map_map]
    rfl

/-- Bytes enough for a stream begin with it. -/
theorem prefix_packBytes (c : Config) {bits : List Bool} {n : Nat} (h : bits.length ≤ 8 * n) :
    bits <+: (packBytes c bits n).flatMap (streamBits c.bitOrder) := by
  rw [flatMap_streamBits_packBytes, List.prefix_iff_getElem]
  refine ⟨by simpa using h, fun j hj => ?_⟩
  simp [hj]

theorem bitsOf_prefix_packedStream (s : State) (data : List Byte) :
    bitsOf s data <+: (packedStream s data).flatMap (streamBits s.cfg.bitOrder) :=
  prefix_packBytes s.cfg (by omega)

/-! ## The same tree on another core (R130, R187) -/

/-- In a tree a walk reads the entries below `NEXT` alone. -/
theorem walk_congr_tree {s t : State} (htree : TreeShape s) (hnode : ∀ k < s.nextNode.toNat, nodeAt t k = nodeAt s k)
    {i : NodeIndex} (hi : InTree s i.toNat) (p : List Bool) : walk t i p = walk s i p := by
  induction p generalizing i with
  | nil => rfl
  | cons b q ih =>
    rw [walk, walk, hnode _ (inTree_lt (le_nextNode htree) hi)]
    split
    next => rfl
    next hgoes =>
      obtain ⟨hinner, hne⟩ := not_or.1 hgoes
      have hstep := walk_cons (s := s) (Bool.eq_false_of_not_eq_true hinner) hne b []
      exact ih (inTree_walk htree hi hstep)

/-- What BUILD leaves for a session, from a table with a weight. -/
structure Built (s t : State) : Prop where
  exec  : exec .build s = .next t
  ph    : t.ph = .idle
  valid : t.treeValid = true
  tree  : TreeShape t
  leaf  : ∀ y : Byte, weightAt s y.toNat ≠ 0 → (nodeAt t y.toNat).w ≠ 0
  cfg   : t.cfg = s.cfg
  err   : t.err = s.err
  outq  : t.outq = s.outq

theorem exists_built {s : State} (hph : s.ph = .idle) {y : Byte} (hy : weightAt s y.toNat ≠ 0) : ∃ t, Built s t := by
  obtain ⟨-, -, hbuild⟩ := Proofs.TreeRules.buildMakesTree
  obtain ⟨t, hexec, htph, hvalid, -, -, -, -, hleaves, htree, -, hframe⟩ := hbuild s hph ⟨y, hy⟩
  refine ⟨t, hexec, htph, hvalid, htree, fun x hx hzero => hx ?_, ?_, ?_, ?_⟩
  · rw [hleaves] at hzero
    dsimp only at hzero
    bv_omega
  all_goals rw [← hframe]

theorem Built.execAll_build {s t : State} (h : Built s t) (q : List Instr) :
    execAll ([.build] ++ q) s = execAll q t := by
  rw [execAll_append, execAll_singleton, h.exec, andThen_next]

/-- What DERIVE leaves for a session. -/
structure CodesDerived (s t : State) : Prop where
  exec  : exec .derive s = .next t
  valid : t.codeValid = true
  table : CodeTable t
  ph    : t.ph = s.ph
  node  : t.node = s.node
  root  : t.root = s.root
  cfg   : t.cfg = s.cfg
  err   : t.err = s.err
  outq  : t.outq = s.outq

theorem exists_codesDerived {s : State} (hph : s.ph = .idle) (hvalid : s.treeValid = true) (htree : TreeShape s) :
    ∃ t, CodesDerived s t := by
  obtain ⟨-, -, -, hderive⟩ := Proofs.DeriverRules.deriveMakesCodeTable
  obtain ⟨t, hexec, hcodes, -, htable, hframe⟩ := hderive s hph hvalid htree
  refine ⟨t, hexec, hcodes, htable, ?_, ?_, ?_, ?_, ?_, ?_⟩
  all_goals rw [← hframe]

theorem CodesDerived.execAll_build_derive {s t u : State} (h : CodesDerived t u) (hbuilt : Built s t) (q : List Instr) :
    execAll ([.build, .derive] ++ q) s = execAll q u := by
  rw [← List.singleton_append, List.append_assoc, hbuilt.execAll_build, execAll_append, execAll_singleton,
    h.exec, andThen_next]

/-- A symbol with a weight has a code after BUILD and DERIVE. -/
theorem CodesDerived.valid_of_weight {s t u : State} (h : CodesDerived t u) (hbuilt : Built s t) {x : Byte}
    (hx : weightAt s x.toNat ≠ 0) : (codeAt u x).valid = true := by
  refine (h.table x).valid.2 ?_
  rw [nodeAt, h.node]
  exact hbuilt.leaf x hx

/-- Equal weights make trees with the same walks from the root. -/
theorem Built.walk_root_congr {s s' t t' : State} (h : Built s t) (h' : Built s' t') (hph : s.ph = .idle)
    (hph' : s'.ph = .idle) (hweights : ∀ y : Byte, weightAt s y.toNat = weightAt s' y.toNat) :
    walk t' t'.root = walk t t.root := by
  obtain ⟨-, hroot, -, -, hnodes⟩ :=
    Proofs.TreeRules.buildDependsOnWeightsAlone s s' t t' hph hph' hweights h.exec h'.exec h.valid
  funext p
  rw [← hroot]
  exact walk_congr_tree h.tree (fun k hk => (hnodes k hk).symm) h.tree.root p

theorem CodesLead.congr {s t : State} {code : Byte → List Bool} {data : List Byte} (h : CodesLead s code data)
    (hcfg : t.cfg = s.cfg) (hwalk : walk t t.root = walk s s.root) : CodesLead t code data := by
  constructor
  · rw [hcfg, hwalk]
    exact h.sentinel
  · rw [hwalk]
    exact h.symbols

end Sys2Proof.Machine

/-! ## The statements -/

namespace Sys2Proof.Proofs.UnpackerRules

open Sys2Proof.Machine Sys2Proof.Safety

/-- Settles O52: the codes of the table lead to their leaves, and after the sentinel's nothing is read. -/
theorem paddingDoesNotMatter : Obligations.PaddingDoesNotMatter := fun _ _ _ hph hvalid htree htable hsentinel hdata =>
  execAll_decode_codes hph hvalid htree (codesLead_of_codeTable htable hsentinel hdata)

/-- Settles O53: the codes of the first core's table lead to the same leaves in the tree the second core builds, so the
bytes packed with them decode there. -/
theorem roundTrip : Obligations.RoundTrip := by
  intro data s u hph hph' hcfg hweights hsentinel hdata
  obtain ⟨s₁, hbuilt⟩ := exists_built hph hsentinel
  obtain ⟨s₂, hderived⟩ := exists_codesDerived hbuilt.ph hbuilt.valid hbuilt.tree
  obtain ⟨u₁, hbuilt'⟩ := exists_built hph' ((hweights _).trans_ne hsentinel)
  have hcfg₂ : s₂.cfg = s.cfg := hderived.cfg.trans hbuilt.cfg
  have hcfg' : u₁.cfg = s₂.cfg := hbuilt'.cfg.trans (hcfg.trans hcfg₂.symm)
  have hsentinel₂ : (codeAt s₂ s₂.cfg.eotSym).valid = true := by
    rw [hcfg₂]
    exact hderived.valid_of_weight hbuilt hsentinel
  have hdata₂ : ∀ x ∈ data, (codeAt s₂ x).valid = true := fun x hx => hderived.valid_of_weight hbuilt (hdata x hx)
  have hencode := PackerRules.encodeSessionPacks data s₂ (hderived.ph.trans hbuilt.ph) hderived.valid hsentinel₂ hdata₂
  have hwalk : walk u₁ u₁.root = walk s₂ s₂.root := by
    rw [walk_congr hderived.node, hderived.root]
    exact hbuilt.walk_root_congr hbuilt' hph hph' fun y => (hweights y).symm
  have hleads := (codesLead_of_codeTable hderived.table hsentinel₂ hdata₂).congr hcfg' hwalk
  have hprefix := bitsOf_prefix_packedStream s₂ data
  have hdecode := execAll_decode_codes (packed := packedStream s₂ data) hbuilt'.ph hbuilt'.valid hbuilt'.tree hleads
    (by rwa [bytesBits, hcfg'])
  refine ⟨packedStream s₂ data, _, _, (hderived.execAll_build_derive hbuilt _).trans hencode,
    hderived.ph.trans hbuilt.ph, hderived.err.trans hbuilt.err, ?_, (hbuilt'.execAll_build _).trans hdecode,
    hbuilt'.ph, hbuilt'.err, ?_⟩
  · exact congrArg (· ++ _) (hderived.outq.trans hbuilt.outq)
  · rw [← hbuilt'.outq, ← hcfg, ← hbuilt'.cfg]

/-- Settles O48, by the two tests of DECS. -/
theorem decsOpensSession : Obligations.DecsOpensSession := by
  refine ⟨⟨decode_eq_ok_iff.2 rfl, rfl⟩, faultsIn_of_class_idle rfl, fun _ => exec_decs_noTree,
    fun s hph hvalid => ⟨fun hle => ?_, fun hroot => ?_, fun hlt hne => ?_⟩⟩
  · have hinner := inner_of_le hle
    rw [exec_decs_opens hph hvalid (by simp [hinner]), hinner]
  · have hsentinel := eq_leafOf_iff.2 hroot
    rw [exec_decs_opens hph hvalid fun _ => hsentinel, hsentinel, isLeaf_leafOf]
  · exact exec_decs_degenerate hph hvalid (isLeaf_iff.2 hlt) fun hroot => hne (eq_leafOf_iff.1 hroot)

/-- Settles O49: the walk stands at an internal node, or every bit is discarded. -/
theorem decbWalksByte : Obligations.DecbWalksByte := by
  refine fun x => ⟨⟨decode_eq_ok_iff.2 rfl, rfl⟩, faultsIn_of_class_dec rfl, fun s hph =>
    ⟨fun hdone => ?_, fun hopen htree hcur hle => ?_⟩⟩
  · rw [exec_decb hph, walkBits_done hdone]
  · rw [exec_decb hph, walkBits_inside ⟨htree, inner_of_le hle, exists_walk htree hcur⟩ hopen]
    rfl

/-- Settles O50, by whether the sentinel was met and where the walk stands. -/
theorem deceClosesSession : Obligations.DeceClosesSession := by
  refine ⟨⟨decode_eq_ok_iff.2 rfl, rfl⟩, faultsIn_of_class_dec rfl, fun s hph =>
    ⟨exec_dece_closes hph, fun hopen hne => ?_, fun hopen hroot => ?_⟩⟩
  · rw [exec_dece_open hph hopen, if_neg hne]
  · rw [exec_dece_open hph hopen, if_pos hroot]

/-- Settles O51: DECS puts the walk at the root, the bytes walk their bits, DECE looks where the walk stands. -/
theorem decodeSessionWalks : Obligations.DecodeSessionWalks := by
  refine fun packed s hph hvalid htree hle => ⟨fun hdone => ?_, fun hopen => ?_⟩
  · rw [execAll_decode_done hph hvalid htree (inner_of_le hle) hdone, walked, hdone,
      cur_decodeBits_of_done hdone]
  · rw [execAll_decode_inner hph hvalid htree (inner_of_le hle), exec_dece_open rfl hopen, walked, hopen]

end Sys2Proof.Proofs.UnpackerRules

/-! SUPPORT. Proofs of the statements of 45_system.md: the four system commands are admitted at every command boundary,
so each does what its rule says there (R201 to R204), and the word RDS answers has its fields where R34 puts them. -/

namespace Sys2Proof.Machine

open Sys2Proof.Safety

/-! ## The four commands (R201 to R204) -/

theorem exec_nop {s : State} (h : Boundary s) : exec .nop s = .next s := by
  rw [exec, execNop, withAdmission_ok (admission_always h)]

theorem exec_rst {s : State} (h : Boundary s) : exec .rst s = .next (resetItems s) := by
  rw [exec, execRst, withAdmission_ok (admission_always h)]

theorem exec_clre {s : State} (h : Boundary s) : exec .clre s = .next (leaveFault s) := by
  rw [exec, execClre, withAdmission_ok (admission_always h)]

theorem exec_rds {s : State} (h : Boundary s) : exec .rds s = .next (emit (.rsp (statusWord s)) s) := by
  rw [exec, execRds, withAdmission_ok (admission_always h)]

/-! ## The status word (R34) -/

/-- The single bits of the status word, the one between `NACC` and `ERR` among them. -/
theorem statusWord_bits (s : State) :
    (statusWord s).getLsbD 0 = s.treeValid ∧ (statusWord s).getLsbD 1 = s.codeValid ∧
      (statusWord s).getLsbD 4 = s.decDone ∧ (statusWord s).getLsbD 5 = s.coll ∧
      (statusWord s).getLsbD 11 = false := by
  simp only [statusWord, BitVec.getLsbD_append]
  simp

/-- The registers in the status word: the parts below a field are dropped one by one, then the field is the lowest. -/
theorem statusWord_registers (s : State) :
    (statusWord s).extractLsb' 2 2 = (phaseCode s.ph).extractLsb' 0 2 ∧ (statusWord s).extractLsb' 8 3 = s.nacc ∧
      (statusWord s).extractLsb' 12 4 = errCode s.err ∧ (statusWord s).extractLsb' 16 9 = s.root ∧
      (statusWord s).extractLsb' 32 9 = s.nleaf := by
  simp only [statusWord, BitVec.extractLsb'_append_eq_of_le, BitVec.extractLsb'_append_eq_right, Nat.reduceLeDiff,
    Nat.reduceSub, and_self]

/-- The gaps of the status word, found in the same way, are zero. -/
theorem statusWord_gaps (s : State) :
    (statusWord s).extractLsb' 6 2 = 0#2 ∧ (statusWord s).extractLsb' 25 7 = 0#7 ∧
      (statusWord s).extractLsb' 41 23 = 0#23 := by
  simp only [statusWord, BitVec.extractLsb'_append_eq_of_le, BitVec.extractLsb'_append_eq_right,
    BitVec.extractLsb'_eq_self, Nat.reduceLeDiff, Nat.reduceSub, and_self]

/-- At a command boundary the code of `PH` fits the two bits the status word has for it (R21). -/
theorem phaseCode_low {s : State} (h : Boundary s) : (phaseCode s.ph).extractLsb' 0 2 =
    if s.ph = .idle then 0#2 else if s.ph = .enc then 1#2 else if s.ph = .dec then 2#2 else 3#2 := by
  obtain hph | hph | hph | hph := h <;> rw [hph] <;> rfl

end Sys2Proof.Machine

/-! ## The statements -/

namespace Sys2Proof.Proofs.SystemRules

open Sys2Proof.Machine Sys2Proof.Safety

/-- Settles O20: the response is the status word, whose bits, registers and gaps stand where R34 puts them. -/
theorem rdsAnswersStatus : Obligations.RdsAnswersStatus := by
  refine ⟨⟨decode_eq_ok_iff.2 rfl, rfl⟩, fun s hboundary => ⟨statusWord s, exec_rds hboundary, ?_⟩⟩
  obtain ⟨htree, hcode, hdone, hcoll, hbit11⟩ := statusWord_bits s
  obtain ⟨hph, hnacc, herr, hroot, hnleaf⟩ := statusWord_registers s
  obtain ⟨hgap6, hgap25, hgap41⟩ := statusWord_gaps s
  refine ⟨htree, hcode, hph.trans (phaseCode_low hboundary), hdone, hcoll, hgap6, hnacc, hbit11, herr.trans ?_,
    hroot, hgap25, hnleaf, hgap41⟩
  rcases s.err with _ | f
  · rfl
  · cases f <;> rfl

/-- Settles O17: NOP is admitted and answers the state it was given. -/
theorem nopDoesNothing : Obligations.NopDoesNothing := ⟨⟨decode_eq_ok_iff.2 rfl, rfl⟩, fun _ => exec_nop⟩

/-- Settles O18: RST is admitted, and `resetItems` keeps only the parameters, the host's moves and the events. -/
theorem rstRestoresReset : Obligations.RstRestoresReset := ⟨⟨decode_eq_ok_iff.2 rfl, rfl⟩, fun _ => exec_rst⟩

/-- Settles O19: CLRE is admitted, and what it does turns on `FAULT`. -/
theorem clreLeavesFault : Obligations.ClreLeavesFault := by
  refine ⟨⟨decode_eq_ok_iff.2 rfl, rfl⟩, fun s hph => ?_, fun s hph => ?_⟩
  · rw [exec_clre (.inr (.inr (.inr hph))), leaveFault_inside hph, padByte]
  · have hboundary : Boundary s := hph.imp_right (Or.imp_right .inl)
    have houtside : s.ph ≠ .fault := by rcases hph with hph | hph | hph <;> simp [hph]
    rw [exec_clre hboundary, leaveFault_outside houtside]

end Sys2Proof.Proofs.SystemRules

/-! SUPPORT. Proofs of the statements of 60_exceptions.md: what `raise` writes (R218), which faults a command records
(R217, R219), and that a fault leaves the rest of the state as it was but for FSCL's and BUILD's own (R220). -/

namespace Sys2Proof.Machine

open Sys2Proof.Safety

/-! ## Running into `FAULT` (R217 to R220) -/

theorem raise_err (f : FaultName) {s : State} (h : s.ph ≠ .fault) : (raise f s).err = some f := by
  rw [raise_outside f h]

/-- Of the commands that take effect only FSCL and BUILD end in `FAULT`: every other one ends in the phase it began in,
or in `IDLE`, `ENC` or `DEC`. -/
theorem effect_into_fault {i : Instr} {s t : State} (hs : s.ph ≠ .fault) (h : Effect i s t) (ht : t.ph = .fault) :
    (i = .fscl ∧ t.err = some .eWovf) ∨ (i = .build ∧ t.err = some .eEmpty) := by
  cases i with
  | nop | rds | fclr | fsmp | wrw | rdw | rdn | rdl | rdc | encb =>
    cases h
    simp [hs] at ht
  | decb => exact absurd ((effect_decb h).ph.symm.trans ht) hs
  | clre =>
    cases h
    exact absurd (leaveFault_outside hs ▸ ht) hs
  | rst =>
    cases h
    cases ht
  | derive =>
    obtain ⟨u, -, rfl⟩ := effect_derive h
    cases ht
  | ence =>
    obtain ⟨u, -, rfl⟩ := h
    cases ht
  | encs =>
    obtain ⟨-, -, rfl⟩ := h
    cases ht
  | decs | dece =>
    obtain ⟨-, rfl⟩ := h
    cases ht
  | fscl =>
    rcases h with rfl | rfl
    · exact absurd ht hs
    · exact .inl ⟨rfl, raise_err .eWovf hs⟩
  | build =>
    obtain ⟨u, hu, ⟨-, rfl⟩ | ⟨j, -, -, rfl⟩⟩ := effect_build h
    · have huph : u.ph = .tbLoad := congrArg State.ph hu
      exact .inr ⟨rfl, raise_err .eEmpty (by simp [huph])⟩
    · cases ht

/-- A command that runs into `FAULT` raised a fault R217 lists for it and did nothing else, or it is FSCL or BUILD,
which raise their own fault after they have written state. -/
theorem exec_into_fault {i : Instr} {s t : State} (hs : s.ph ≠ .fault) (h : exec i s = .next t) (ht : t.ph = .fault) :
    (∃ f ∈ mayRaise i, t = { s with err := some f, ph := .fault }) ∨
      (i = .fscl ∧ t.err = some .eWovf) ∨ (i = .build ∧ t.err = some .eEmpty) := by
  rcases exec_cases h with ⟨-, rfl⟩ | ⟨f, hf, rfl⟩ | ⟨-, h⟩
  · exact absurd ht hs
  · exact .inl ⟨f, hf, raise_outside f hs⟩
  · exact .inr (effect_into_fault hs h ht)

end Sys2Proof.Machine

/-! ## The statements -/

namespace Sys2Proof.Proofs.ExceptionRules

open Sys2Proof.Machine Sys2Proof.Safety

/-- Settles O13: a fault raised at a command's first tests writes `ERR` and `PH` alone, and the two others are FSCL's
and BUILD's. -/
theorem faultsArePrecise : Obligations.FaultsArePrecise := by
  intro i s t hs h ht
  refine (exec_into_fault hs h ht).imp_left ?_
  rintro ⟨f, -, rfl⟩
  rfl

/-- Settles O14: the faults FSCL and BUILD raise late are in their lists too. -/
theorem commandsRaiseTheirFaults : Obligations.CommandsRaiseTheirFaults := by
  intro i s t hs h ht
  obtain ⟨f, hf, rfl⟩ | ⟨rfl, herr⟩ | ⟨rfl, herr⟩ := exec_into_fault hs h ht
  · exact ⟨f, hf, rfl⟩
  · exact ⟨.eWovf, by simp [mayRaise], herr⟩
  · exact ⟨.eEmpty, by simp [mayRaise], herr⟩

/-- Settles O12: the two branches of `raise`. -/
theorem raiseRecordsFirstFault : Obligations.RaiseRecordsFirstFault := fun f _ => ⟨raise_outside f, raise_inside f⟩

end Sys2Proof.Proofs.ExceptionRules

/-! SUPPORT. Proof of the statement of 70_reset_and_hazards.md: at a command boundary every command is run, misplaced or
dropped, and a command that is run completes. BUILD, DERIVE and DECB could stop at an index or a loop's bound (log
entries 7 to 9); the number of trees and the shape of the tree rule it out (R148, R192, R255). RDN tests its index. -/

namespace Sys2Proof.Machine

open Sys2Proof.Safety

/-! ## The commands that could stop -/

/-- BUILD completes on every table of weights, the empty one included (R255). -/
theorem exec_build_completes {s : State} (hph : s.ph = .idle) : ∃ t, exec .build s = .next t := by
  by_cases hcount : weightCount s = 0
  · obtain ⟨u, -, -, -, hexec⟩ := exec_build_empty hph hcount
    exact ⟨_, hexec⟩
  · obtain ⟨u, w, i, hrun⟩ := exists_buildRun hcount
    exact ⟨_, exec_build_of_run hph hrun⟩

/-- DERIVE completes: a valid tree has the shape its traversal needs (R148). -/
theorem exec_derive_completes {s : State} (hs : Coherent s) (hph : s.ph = .idle) : ∃ t, exec .derive s = .next t := by
  cases hvalid : s.treeValid with
  | false => exact ⟨_, exec_derive_noTree hph hvalid⟩
  | true =>
    obtain ⟨u, hexec, -, -⟩ := exists_derived hph hvalid (hs.tree hvalid)
    exact ⟨_, hexec⟩

/-- The walk of a decode session before the sentinel stands inside the tree (10_state.md R37 (g)). -/
theorem Coherent.inside {s : State} (hs : Coherent s) (hph : s.ph = .dec) (hopen : s.decDone = false) :
    Inside s s.cur :=
  ⟨hs.tree (hs.session.tree hph), hs.session.inside hph hopen, hs.session.reached hph hopen⟩

/-- DECB completes: it discards its bits after the sentinel, and before it the walk stays inside the tree (R192). -/
theorem exec_decb_completes {s : State} (hs : Coherent s) (hph : s.ph = .dec) (x : Byte) :
    ∃ t, exec (.decb x) s = .next t := by
  rw [exec_decb hph]
  cases hdone : s.decDone with
  | false => exact ⟨_, walkBits_inside (hs.inside hph hdone) hdone _⟩
  | true => exact ⟨_, walkBits_done hdone _⟩

/-! ## Every command and every step -/

/-- A command boundary runs a command, raises `E_SEQ` or drops it (30_encoding.md R78). -/
theorem admission_boundary {p : Phase} (h : p = .idle ∨ p = .enc ∨ p = .dec ∨ p = .fault) (c : CommandClass) :
    admission c p ≠ .notAccepted := by
  rcases h with rfl | rfl | rfl | rfl <;> cases c <;> decide

/-- A command that is admitted completes. The commands of class `always` and those that write one table have a single
outcome, the others test first whether they raise a fault of the spec. -/
theorem exec_admitted_completes {i : Instr} {s : State} (hs : Coherent s)
    (hadm : admission (commandClass i) s.ph = .ok) : ∃ t, exec i s = .next t := by
  have hboundary := hs.registers.boundary
  cases i with
  | nop => exact ⟨_, exec_nop hboundary⟩
  | rst => exact ⟨_, exec_rst hboundary⟩
  | clre => exact ⟨_, exec_clre hboundary⟩
  | rds => exact ⟨_, exec_rds hboundary⟩
  | rdw x => exact ⟨_, exec_rdw x hboundary⟩
  | rdn x => exact ⟨_, exec_rdn hboundary⟩
  | rdl x => exact ⟨_, exec_rdl x hboundary⟩
  | rdc x q => exact ⟨_, exec_rdc x q hboundary⟩
  | fclr => exact ⟨_, exec_fclr (ph_of_admission_idle hadm)⟩
  | wrw x d => exact ⟨_, exec_wrw x d (ph_of_admission_idle hadm)⟩
  | fsmp x =>
    rw [exec, execFsmp, withAdmission_idle (ph_of_admission_idle hadm)]
    split <;> exact ⟨_, rfl⟩
  | fscl =>
    obtain ⟨t, hexec, -⟩ := exec_fscl_idle (ph_of_admission_idle hadm)
    exact ⟨t, hexec⟩
  | build => exact exec_build_completes (ph_of_admission_idle hadm)
  | derive => exact exec_derive_completes hs (ph_of_admission_idle hadm)
  | encs =>
    rw [exec, execEncs, withAdmission_idle (ph_of_admission_idle hadm)]
    split
    · exact ⟨_, rfl⟩
    · split <;> exact ⟨_, rfl⟩
  | encb x =>
    rw [exec, execEncb, withAdmission_enc (ph_of_admission_enc hadm)]
    split <;> exact ⟨_, rfl⟩
  | ence =>
    rw [exec, execEnce, withAdmission_enc (ph_of_admission_enc hadm)]
    exact ⟨_, rfl⟩
  | decs =>
    rw [exec, execDecs, withAdmission_idle (ph_of_admission_idle hadm)]
    split
    · exact ⟨_, rfl⟩
    · split <;> exact ⟨_, rfl⟩
  | decb x => exact exec_decb_completes hs (ph_of_admission_dec hadm) x
  | dece =>
    cases hdone : s.decDone with
    | false => exact ⟨_, exec_dece_open (ph_of_admission_dec hadm) hdone⟩
    | true => exact ⟨_, exec_dece_closes (ph_of_admission_dec hadm) hdone⟩

theorem exec_completes {s : State} (hs : Coherent s) (i : Instr) : ∃ t, exec i s = .next t := by
  cases hadm : admission (commandClass i) s.ph with
  | ok => exact exec_admitted_completes hs hadm
  | seqFault => exact ⟨_, exec_misplaced hadm⟩
  | drop =>
    obtain ⟨body, hexec⟩ := exec_eq_withAdmission i
    exact ⟨s, (hexec s).trans (withAdmission_eq_next.2 (.inr (.inr ⟨hadm, rfl⟩)))⟩
  | notAccepted => exact absurd hadm (admission_boundary hs.registers.boundary _)

theorem step_completes {s : State} (hs : Coherent s) : ∃ t, step s = .next t := by
  rcases step_cases s with ⟨k, moves, -, hstep⟩ | ⟨hbusy, -⟩ | ⟨-, -, hstep⟩ | ⟨c, moves, i, -, -, -, hstep⟩ |
    ⟨c, moves, e, -, -, -, hstep⟩
  · exact ⟨_, hstep⟩
  · simp [busyWire_eq_false.2 hs.registers.boundary] at hbusy
  · exact ⟨_, hstep⟩
  · have haccept : Coherent (transferAll { s with host := moves }) := QuietWrites.coherent (s := s) rfl hs
    exact hstep ▸ exec_completes haccept i
  · exact ⟨_, hstep⟩

end Sys2Proof.Machine

/-! ## The statement -/

namespace Sys2Proof.Proofs.HazardRules

open Sys2Proof.Machine Sys2Proof.Safety

/-- Settles O60: a state with the invariants is at a command boundary, where every command completes. -/
theorem noStepStops : Obligations.NoStepStops := fun _ hinv => step_completes (coherent_of_inv hinv)

end Sys2Proof.Proofs.HazardRules
